-- ==== Sys2Proof/Word.lean ====
section
/-! DEFINITION. The words of the machine: 32-bit registers, addresses and instructions (spec/00_scope.md R6
`XLEN`, `ILEN`), bytes, and the two index spaces an instruction names. -/

namespace Sys2Proof

/-- A 32-bit word: register, pc, CSR, address or instruction (R7: "unsigned 32-bit words"). -/
abbrev Word := BitVec 32

/-- One byte of memory. -/
abbrev Byte := BitVec 8

/-- A register number: a 5-bit instruction field, so only 0..31 can be written down (R26, C2). -/
abbrev RegIdx := BitVec 5

/-- A CSR number: the 12-bit field `inst[31:20]`, all 4096 values valid (R71, R15). -/
abbrev CsrIdx := BitVec 12

end Sys2Proof
end

