-- ==== Sys2Proof/Machine/Flags.lean ====
section
/-! DEFINITION. The hardware has no flags and no condition codes (R20): a comparison yields the word 0 or 1 in a
general register (SLT family) or decides a branch. These are the comparisons of R7. -/

namespace Sys2Proof.Machine

/-- `a <s b`: less than on the two's complement readings (R7). -/
def ltSigned (a b : Word) : Bool := decide (a.toInt < b.toInt)

/-- `a <u b`: less than on the unsigned readings (R7). -/
def ltUnsigned (a b : Word) : Bool := decide (a.toNat < b.toNat)

/-- `a >=s b` (R7). -/
def geSigned (a b : Word) : Bool := decide (b.toInt ≤ a.toInt)

/-- `a >=u b` (R7). -/
def geUnsigned (a b : Word) : Bool := decide (b.toNat ≤ a.toNat)

/-- The result of a comparison as a word: "exactly 0 or 1 in all 32 bits" (R102). -/
def boolWord (c : Bool) : Word := if c then 1#32 else 0#32

end Sys2Proof.Machine
end

