-- ==== Sys2Proof/Machine/Sparse.lean ====
section
/-! DEFINITION. Sparse maps from natural numbers as lists in one canonical form: keys strictly rising, no entry equal
to what an absent key reads as. Main memory (R31, R32) and the CSR file (R15) are both held this way. -/

namespace Sys2Proof.Machine

/-- The value at key `k`; a key that is not listed reads as `d`. -/
def sparseGet {α : Type} (d : α) (k : Nat) : List (Nat × α) → α
  | [] => d
  | (j, v) :: l => if j = k then v else sparseGet d k l

/-- Put `v` in front of a list whose keys are all larger, unless `v` is what an absent key reads as. -/
def sparseCons {α : Type} [DecidableEq α] (d : α) (k : Nat) (v : α) (l : List (Nat × α)) : List (Nat × α) :=
  if v = d then l else (k, v) :: l

/-- Set key `k` to `v`, keeping the canonical form: writing `d` removes the entry. -/
def sparseSet {α : Type} [DecidableEq α] (d : α) (k : Nat) (v : α) : List (Nat × α) → List (Nat × α)
  | [] => sparseCons d k v []
  | (j, u) :: l =>
    if k < j then sparseCons d k v ((j, u) :: l)
    else if k = j then sparseCons d k v l
    else (j, u) :: sparseSet d k v l

/-- The canonical form: keys strictly rising from `lo` on, no value equal to `d`. -/
def sparseWf {α : Type} [DecidableEq α] (d : α) (lo : Nat) : List (Nat × α) → Bool
  | [] => true
  | (k, v) :: l => decide (lo ≤ k) && decide (v ≠ d) && sparseWf d (k + 1) l

end Sys2Proof.Machine
end

