-- ==== Sys2Proof/Config.lean ====
section
/-! DEFINITION. The parameters of the hardware (spec/00_scope.md R6) as plain data that the state carries,
their defaults, and the one free value: the word a device returns when the state's own input list is empty. -/

namespace Sys2Proof

/-- `MEM_BACKING` (R30): sparse memory (R31), or a dense store of `MEM_SIZE` bytes from `MEM_BASE` (R32). -/
inductive MemBacking where
  | sparse
  | dense (memSize : Nat)
  deriving DecidableEq, Repr

/-- `ALIGN_POLICY` (R36): whether a multi-byte access of main memory must be a multiple of its width. -/
inductive AlignPolicy where
  | permissive
  | strict
  deriving DecidableEq, Repr

/-- One entry of `PERIPHERALS` (R40): the device owns the addresses `[base, base + size)`. -/
structure Peripheral where
  base : Word
  size : Nat
  deriving DecidableEq, Repr

/-- The parameters of R6 that the source leaves to the platform. They are fixed before the first step
("added once at startup, not mutated during execution", R24). -/
structure Config where
  memBacking : MemBacking
  alignPolicy : AlignPolicy
  peripherals : List Peripheral
  strictReservedFields : Bool
  deriving DecidableEq, Repr

/-- The default of R6: sparse, permissive, no device, reserved fields ignored (decisions D1, D10, D15). -/
def Config.default : Config where
  memBacking := .sparse
  alignPolicy := .permissive
  peripherals := []
  strictReservedFields := false

/-- `MEM_BASE` = `0x8000_0000` (R6, R30: "fixed at construction"); only the dense backing uses it. -/
def Config.memBase : Nat := 0x80000000

/-- The number of byte addresses, 2^32 (R22). -/
def Config.addressSpace : Nat := 0x100000000

/-- `ENTRY_POINT` of the machine `State.reset`. The spec leaves it OPEN (R281); this is the value its own
examples use. DESIGN CHOICE (log entry 1), unsafe: every other entry point is reached by `boot`. -/
def Config.defaultEntryPoint : Word := 0x80000000#32

/-- What the spec requires of a configuration (R32, R40, U17): the dense store and every device range end
inside the address space. A configuration that breaks it is refused before the machine exists (`boot`). -/
def Config.wf (c : Config) : Bool :=
  (match c.memBacking with
    | .sparse => true
    | .dense n => decide (Config.memBase + n ≤ Config.addressSpace)) &&
  c.peripherals.all (fun p => decide (p.base.toNat + p.size ≤ Config.addressSpace))

/-- One transaction on the peripheral port (R41, R288): which device (its place in the peripheral table), the
device-local offset, and the word that crossed the port. -/
inductive DevAccess where
  | read (dev : Nat) (off : Word) (value : Word)
  | write (dev : Nat) (off : Word) (value : Word)
  deriving DecidableEq, Repr

/-- FREE VALUE (R41, U4, D26): the word device `dev` returns for a read at `off`, after the transactions
`history`, when the state names no word for it. It has no body, so nothing can be proved about it. -/
opaque Config.freeDeviceWord (history : List DevAccess) (dev : Nat) (off : Word) : Word

end Sys2Proof
end

