-- ==== Sys2Proof/Machine/State.lean ====
section
/-! DEFINITION. The state of the machine (spec/10_state.md R24), the reasons a step can stop (spec/60_exceptions.md
R250), and the state after reset (spec/70_reset_and_hazards.md R285). -/

namespace Sys2Proof.Machine

/-- Main memory: the listed bytes, addresses strictly rising, none equal to what an unlisted address reads as
(`fillByte` in Machine/Ops.lean). Its canonical form is `Memory.wf`. -/
abbrev Memory := List Host.Cell

/-- The CSR file: the listed words, indices strictly rising, none zero; an unlisted index reads 0 (R15). -/
abbrev CsrFile := List (Nat × Word)

/-- The state of R24, with the parameters of R6 and the two ends of the peripheral port beside it.

* `regs`: `x[1]` to `x[31]`; `x[k]` is entry `k - 1`. `x[0]` is a constant and is not stored (R10, R24).
* `pc` (R13), `csrs` (R15), `mem` (R22, R30), `count` (R262).
* `cfg`: the parameters of R6, fixed before the first step (model's own field, log entry 2).
* `devIn`: the words the devices will return to the next reads, in order (R41, R295; model's own field, log entry 3).
* `devLog`: the transactions presented to the peripheral port so far, oldest first (R41, R288; model's own field,
  log entry 3). -/
structure State where
  regs : Vector Word 31
  pc : Word
  csrs : CsrFile
  mem : Memory
  count : Nat
  cfg : Config
  devIn : List Word
  devLog : List DevAccess
  deriving DecidableEq, Repr

/-- The events that end a step without a next state (R250, R255). None carries a value. A fault changes no
state, so the state before the step is the state after it (the device port apart: `stoppedState`). -/
inductive Fault where
  /-- R251: raised by the decoder for a word it refuses, by EBREAK, and by a byte or halfword access of an address
  a device owns. Safe: the spec gives the stop. -/
  | unsupportedInstruction
  /-- R252: raised by a fetch at a `pc` that is not a multiple of 4 and by a main-memory access that is misaligned
  under the strict policy, past the top of the address space, or outside a dense store. Safe where the spec
  decided the stop itself (D4, D7), given by the spec elsewhere. -/
  | memoryAccessError
  /-- R253: the termination signal, raised by every ECALL and by nothing else. Not a failure: the normal end of a
  program (R264). Safe: the spec gives the stop. -/
  | ecallTermination
  deriving DecidableEq, Repr

/-- The reasons a step has no meaning in this model. -/
inductive Refusal where
  /-- An instruction the model gives no meaning yet, by its mnemonic. No arm of `exec` raises it. Safe. -/
  | notModelled (mnemonic : String)
  deriving DecidableEq, Repr

/-- The outcome of a step (R250): continue, or one of the three events. -/
abbrev Result := Host.Outcome State Fault Refusal

/-- The machine right after reset (R285) at the default parameters of R6, nothing loaded: registers 0, every CSR 0,
memory never written, `count` 0, `pc` = `ENTRY_POINT` (OPEN in the spec; the value is log entry 1, unsafe).
`boot` (Machine/Loader.lean) gives the reset state for every other choice of the parameters. -/
def State.reset : State where
  regs := Vector.replicate 31 0#32
  pc := Config.defaultEntryPoint
  csrs := []
  mem := []
  count := 0
  cfg := Config.default
  devIn := []
  devLog := []

end Sys2Proof.Machine
end

