-- ==== Sys2Proof/Machine/Ops.lean ====
section
/-! DEFINITION. The named operations over registers, CSRs, main memory, devices and the bus multiplexer
(spec/10_state.md, spec/20_memory.md), raising an event, and the end of an instruction. -/

namespace Sys2Proof.Machine

/-! ## Registers and pc (R10 to R14) -/

/-- `x[i]`: "index 0 always reads as zero" (R10). -/
def readReg (s : State) (i : RegIdx) : Word :=
  if h : i = 0 then 0
  else s.regs[i.toNat - 1]'(by
    have h0 : i.toNat ≠ 0 := fun e => h (BitVec.eq_of_toNat_eq (by simpa using e))
    have := i.isLt
    omega)

/-- `x[i] <- v`: "writes to index 0 are discarded" (R11). -/
def writeReg (s : State) (i : RegIdx) (v : Word) : State :=
  if h : i = 0 then s
  else { s with regs := s.regs.set (i.toNat - 1) v (by
    have h0 : i.toNat ≠ 0 := fun e => h (BitVec.eq_of_toNat_eq (by simpa using e))
    have := i.isLt
    omega) }

/-- `pc <- v` (R13). -/
def setPc (s : State) (v : Word) : State := { s with pc := v }

/-- `pc + 4` modulo 2^32, the address of the next instruction in sequence (R14, R62). -/
def nextPc (s : State) : Word := s.pc + 4#32

/-- `pc <- pc + 4` (R62). -/
def advance (s : State) : State := setPc s (nextPc s)

/-! ## The CSR file (R15 to R18) -/

/-- `csr[a]`: every one of the 4096 indices is a plain word, 0 until written (R15). -/
def readCsr (s : State) (a : CsrIdx) : Word := sparseGet 0#32 a.toNat s.csrs

/-- `csr[a] <- v`: stored whole; no bit is masked and no index is read-only (R15, R17, R18). -/
def writeCsr (s : State) (a : CsrIdx) (v : Word) : State := { s with csrs := sparseSet 0#32 a.toNat v s.csrs }

/-- The canonical form of the CSR file: rising indices below 4096, no zero listed. -/
def CsrFile.wf (f : CsrFile) : Bool := sparseWf 0#32 0 f && f.all (fun c => decide (c.1 < 4096))

/-! ## Main memory, byte by byte (R30 to R32) -/

/-- What an unlisted address reads as: `FILL_BYTE` = `0xFF` on the sparse backing (R31), `0x00` on the dense one
(R32, D2). -/
def fillByte (c : Config) : Byte :=
  match c.memBacking with
  | .sparse => 0xFF#8
  | .dense _ => 0x00#8

/-- Main memory has `n` bytes from `a` on: always on the sparse backing, inside `[MEM_BASE, MEM_BASE + MEM_SIZE)`
on the dense one (R31, R32). -/
def inBacking (c : Config) (a n : Nat) : Bool :=
  match c.memBacking with
  | .sparse => true
  | .dense size => decide (Config.memBase ≤ a) && decide (a + n ≤ Config.memBase + size)

/-- The byte of main memory at address `a`. -/
def readByte (s : State) (a : Nat) : Byte := sparseGet (fillByte s.cfg) a s.mem

/-- Main memory with the byte at `a` set to `b`. -/
def Memory.write (c : Config) (a : Nat) (b : Byte) (m : Memory) : Memory := sparseSet (fillByte c) a b m

/-- The canonical form of main memory under a configuration: rising addresses, no fill byte listed, every listed
address inside the address space and the backing. -/
def Memory.wf (c : Config) (m : Memory) : Bool :=
  sparseWf (fillByte c) 0 m && m.all (fun e => decide (e.1 < Config.addressSpace) && inBacking c e.1 1)

/-! ## Main memory, multi-byte (R33 to R37) -/

/-- The three access widths: 1, 2 or 4 bytes (R33). -/
inductive Width where
  | byte
  | half
  | word
  deriving DecidableEq, Repr

/-- The number of bytes of a width. -/
def Width.size : Width → Nat
  | .byte => 1
  | .half => 2
  | .word => 4

/-- The alignment check of R33: under the strict policy the address is a multiple of the width (R36). -/
def alignedFor (c : Config) (addr : Word) (w : Width) : Bool :=
  match c.alignPolicy with
  | .permissive => true
  | .strict => decide (addr.toNat % w.size = 0)

/-- The checks of R33 and R34, in their order: alignment (R36), the top of the address space (R37), the dense
range (R32). -/
def memAccessible (c : Config) (addr : Word) (w : Width) : Bool :=
  alignedFor c addr w && decide (addr.toNat + w.size ≤ Config.addressSpace) && inBacking c addr.toNat w.size

/-- `n` bytes from `a` on, little-endian: the byte at `a` is bits 7:0 (R33, R35). -/
def readLE (s : State) (a : Nat) : Nat → Word
  | 0 => 0#32
  | n + 1 => readLE s (a + 1) n <<< 8 ||| (readByte s a).setWidth 32

/-- Main memory after `n` bytes of `v` are stored from `a` on, little-endian: byte `i` is `v[8i+7:8i]` (R34, R35). -/
def writeLE (c : Config) (a : Nat) : Nat → Word → Memory → Memory
  | 0, _, m => m
  | n + 1, v, m => writeLE c (a + 1) n (v >>> 8) (Memory.write c a (v.setWidth 8) m)

/-- `MemRead(addr, n)` (R33): the `8n`-bit value, zero-extended to a word. -/
def memRead (s : State) (addr : Word) (w : Width) : Except Fault Word :=
  if memAccessible s.cfg addr w then .ok (readLE s addr.toNat w.size) else .error .memoryAccessError

/-- `MemWrite(addr, n, v)` (R34): all `n` bytes are written or none is. -/
def memWrite (s : State) (addr : Word) (w : Width) (v : Word) : Except Fault State :=
  if memAccessible s.cfg addr w then .ok { s with mem := writeLE s.cfg addr.toNat w.size v s.mem }
  else .error .memoryAccessError

/-! ## Devices and the bus multiplexer (R40 to R46) -/

/-- The device's range contains the address: `base <= addr` and `addr - base < size`, unbounded (R40). -/
def Peripheral.owns (p : Peripheral) (addr : Word) : Bool :=
  decide (p.base.toNat ≤ addr.toNat) && decide (addr.toNat - p.base.toNat < p.size)

/-- The first entry, from place `k` on, whose range contains the address, with its place in the table (R40). -/
def ownerFrom (k : Nat) : List Peripheral → Word → Option (Nat × Peripheral)
  | [], _ => none
  | p :: ps, addr => if Peripheral.owns p addr then some (k, p) else ownerFrom (k + 1) ps addr

/-- `owner(addr)` (R40): decided by the address of the first byte of an access alone (R44). -/
def owner (c : Config) (addr : Word) : Option (Nat × Peripheral) := ownerFrom 0 c.peripherals addr

/-- The word device `dev` returns for a read at `off`: the next word of the state's input list, any word at all;
when the list is empty, the free value of Config (R41, D26). -/
def deviceWord (s : State) (dev : Nat) (off : Word) : Word :=
  match s.devIn with
  | v :: _ => v
  | [] => Config.freeDeviceWord s.devLog dev off

/-- The state after a device was read: the input word is used up and the transaction is recorded (R41, R48). -/
def afterDevRead (s : State) (dev : Nat) (off : Word) : State :=
  { s with devIn := s.devIn.tail, devLog := s.devLog ++ [.read dev off (deviceWord s dev off)] }

/-- `DevWrite(d, off, v)` (R41): hands the device a word; it always succeeds. -/
def devWrite (s : State) (dev : Nat) (off v : Word) : State :=
  { s with devLog := s.devLog ++ [.write dev off v] }

/-- `BusRead(addr, n)` (R42): to main memory, or to the device that owns the address, which takes words only. The
value comes with the state after the access. -/
def busRead (s : State) (addr : Word) (w : Width) : Except Fault (Word × State) :=
  match owner s.cfg addr with
  | none =>
    match memRead s addr w with
    | .ok v => .ok (v, s)
    | .error f => .error f
  | some (dev, p) =>
    match w with
    | .word => .ok (deviceWord s dev (addr - p.base), afterDevRead s dev (addr - p.base))
    | .byte | .half => .error .unsupportedInstruction

/-- `BusWrite(addr, n, v)` (R43): to main memory, or to the device that owns the address, which takes words only. -/
def busWrite (s : State) (addr : Word) (w : Width) (v : Word) : Except Fault State :=
  match owner s.cfg addr with
  | none => memWrite s addr w v
  | some (dev, p) =>
    match w with
    | .word => .ok (devWrite s dev (addr - p.base) v)
    | .byte | .half => .error .unsupportedInstruction

/-- The device-only read path (R45): an owned address reads its device, any other fails. No step asks it for an address
no device owns, because `busRead` decides ownership first. -/
def portRead (s : State) (addr : Word) : Except Fault (Word × State) :=
  match owner s.cfg addr with
  | some (dev, p) => .ok (deviceWord s dev (addr - p.base), afterDevRead s dev (addr - p.base))
  | none => .error .unsupportedInstruction

/-- The device-only write path (R45): "Writes to unclaimed addresses are accepted as no-ops". No step asks it for an
address no device owns, because `busWrite` decides ownership first. -/
def portWrite (s : State) (addr : Word) (v : Word) : State :=
  match owner s.cfg addr with
  | some (dev, p) => devWrite s dev (addr - p.base) v
  | none => s

/-! ## Ends of a step (R250 to R254, R62, R259) -/

/-- `raise` an event (R8, R250): the step ends. Nothing is saved, no CSR is written, `pc` is not redirected and no
mode changes (R254), so the state is the one before the step. -/
def raise (f : Fault) : Result := .fault f

/-- The return from a trap (R259): no trap is ever taken, so there is nothing to restore; `pc <- pc + 4`. -/
def trapReturn (s : State) : Result := .next (advance s)

/-- The end of an instruction that only advances `pc` (R62). -/
def finish (s : State) : Result := .next (advance s)

/-- The end of an instruction with a register result: `x[rd] <- v`, then `pc <- pc + 4` (R11, R62). -/
def finishReg (s : State) (rd : RegIdx) (v : Word) : Result := .next (advance (writeReg s rd v))

/-- The run controller's counter after a step: one more for a step that continued (R262). -/
def countStep : Result → Result
  | .next s => .next { s with count := s.count + 1 }
  | .fault f => .fault f
  | .refused r => .refused r

end Sys2Proof.Machine
end

