-- ==== Sys2Proof/Machine/Operands.lean ====
section
/-! DEFINITION. The operand forms: immediates widened to a word (R64 to R71), shift amounts (R70, R120), effective
addresses (R160, R220), jump and branch targets (R180, R192, R193). -/

namespace Sys2Proof.Machine

/-- `immI` = `sext_12(inst[31:20])` (R64). -/
def immI (imm : BitVec 12) : Word := imm.signExtend 32

/-- `immS` = `sext_12` of the S-immediate field (R65). -/
def immS (imm : BitVec 12) : Word := imm.signExtend 32

/-- `immB` = `sext_13` of the B-immediate field (R67). -/
def immB (offset : BitVec 13) : Word := offset.signExtend 32

/-- `immU` = `{inst[31:12], 0x000}` (R68). -/
def immU (imm : BitVec 20) : Word := imm ++ 0x000#12

/-- `immJ` = `sext_21` of the J-immediate field (R69). -/
def immJ (offset : BitVec 21) : Word := offset.signExtend 32

/-- `uimm` = `zext_5(inst[19:15])` (R71). -/
def uimm5 (u : BitVec 5) : Word := u.setWidth 32

/-- The amount of a register shift: `x[rs2][4:0]` (R120). -/
def shiftAmount (v : Word) : BitVec 5 := v.extractLsb' 0 5

/-- `sext_8`: the low byte of a value, sign-extended (R7, R162). -/
def sext8 (v : Word) : Word := (v.setWidth 8).signExtend 32

/-- `sext_16`: the low halfword of a value, sign-extended (R7, R163). -/
def sext16 (v : Word) : Word := (v.setWidth 16).signExtend 32

/-- `zext_8`: the low byte of a value, zero-extended (R7, R165). -/
def zext8 (v : Word) : Word := (v.setWidth 8).setWidth 32

/-- `zext_16`: the low halfword of a value, zero-extended (R7, R166). -/
def zext16 (v : Word) : Word := (v.setWidth 16).setWidth 32

/-- The effective address of a load: `x[rs1] + immI`, modulo 2^32 (R160). -/
def loadAddr (s : State) (rs1 : RegIdx) (imm : BitVec 12) : Word := readReg s rs1 + immI imm

/-- The effective address of a store: `x[rs1] + immS`, modulo 2^32 (R160). -/
def storeAddr (s : State) (rs1 : RegIdx) (imm : BitVec 12) : Word := readReg s rs1 + immS imm

/-- The address of an atomic: `x[rs1]`, no displacement (R220). -/
def atomicAddr (s : State) (rs1 : RegIdx) : Word := readReg s rs1

/-- The target of a taken branch: `pc + immB` (R180). -/
def branchTarget (s : State) (offset : BitVec 13) : Word := s.pc + immB offset

/-- The target of JAL: `pc + immJ` (R192). -/
def jalTarget (s : State) (offset : BitVec 21) : Word := s.pc + immJ offset

/-- The target of JALR: `(x[rs1] + immI) & 0xFFFF_FFFE` (R193). -/
def jalrTarget (s : State) (rs1 : RegIdx) (imm : BitVec 12) : Word :=
  (readReg s rs1 + immI imm) &&& 0xFFFFFFFE#32

end Sys2Proof.Machine
end

