-- ==== Sys2Proof/Machine/LoadStore.lean ====
section
/-! DEFINITION. Loads (opcode 0x03) and stores (opcode 0x23), spec/43_load_store.md. -/

namespace Sys2Proof.Machine

/-- A load (R161): one access at the address through the bus multiplexer, then the value, extended, into `x[rd]`.
If the access raises, nothing changes; with `rd = x0` the access is still made. -/
def loadOp (width : Width) (extend : Word → Word) (rd : RegIdx) (addr : Word) (s : State) : Result :=
  match busRead s addr width with
  | .ok (v, s1) => finishReg s1 rd (extend v)
  | .error f => raise f

/-- A store (R161): one access at the address through the bus multiplexer. If it raises, nothing changes. -/
def storeOp (width : Width) (addr v : Word) (s : State) : Result :=
  match busWrite s addr width v with
  | .ok s1 => finish s1
  | .error f => raise f

/-- LB: load byte, sign-extended (R162). -/
def execLb (rd rs1 : RegIdx) (imm : BitVec 12) (s : State) : Result :=
  loadOp .byte sext8 rd (loadAddr s rs1 imm) s

/-- LH: load halfword, sign-extended (R163). -/
def execLh (rd rs1 : RegIdx) (imm : BitVec 12) (s : State) : Result :=
  loadOp .half sext16 rd (loadAddr s rs1 imm) s

/-- LW: load word; the only load that can reach a device (R164). -/
def execLw (rd rs1 : RegIdx) (imm : BitVec 12) (s : State) : Result :=
  loadOp .word id rd (loadAddr s rs1 imm) s

/-- LBU: load byte, zero-extended (R165). -/
def execLbu (rd rs1 : RegIdx) (imm : BitVec 12) (s : State) : Result :=
  loadOp .byte zext8 rd (loadAddr s rs1 imm) s

/-- LHU: load halfword, zero-extended (R166). -/
def execLhu (rd rs1 : RegIdx) (imm : BitVec 12) (s : State) : Result :=
  loadOp .half zext16 rd (loadAddr s rs1 imm) s

/-- SB: stores `x[rs2][7:0]` (R167). -/
def execSb (rs1 rs2 : RegIdx) (imm : BitVec 12) (s : State) : Result :=
  storeOp .byte (storeAddr s rs1 imm) (readReg s rs2) s

/-- SH: stores `x[rs2][15:0]` (R168). -/
def execSh (rs1 rs2 : RegIdx) (imm : BitVec 12) (s : State) : Result :=
  storeOp .half (storeAddr s rs1 imm) (readReg s rs2) s

/-- SW: stores `x[rs2]`; the only store that can reach a device (R169). -/
def execSw (rs1 rs2 : RegIdx) (imm : BitVec 12) (s : State) : Result :=
  storeOp .word (storeAddr s rs1 imm) (readReg s rs2) s

end Sys2Proof.Machine
end

