-- ==== Sys2Proof/Machine/Atomic.lean ====
section
/-! DEFINITION. Atomic instructions, opcode 0x2F (spec/47_atomic.md). The aq and rl bits have no effect (R221); there is no
reservation (R236). -/

namespace Sys2Proof.Machine

/-- A read-modify-write of one memory word (R220, R222): the read, then the write of `combine old x[rs2]` at the same
address, then the old word into `x[rd]`. An access that raises ends the step with nothing changed. -/
def amoOp (combine : Word → Word → Word) (rd rs1 rs2 : RegIdx) (s : State) : Result :=
  match busRead s (atomicAddr s rs1) .word with
  | .ok (old, s1) =>
    match busWrite s1 (atomicAddr s rs1) .word (combine old (readReg s rs2)) with
    | .ok s2 => finishReg s2 rd old
    | .error f => raise f
  | .error f => raise f

/-- The smaller of two words, signed (R231). -/
def minSignedWord (old v : Word) : Word := if old.toInt ≤ v.toInt then old else v

/-- The larger of two words, signed (R232). -/
def maxSignedWord (old v : Word) : Word := if v.toInt ≤ old.toInt then old else v

/-- The smaller of two words, unsigned (R233). -/
def minUnsignedWord (old v : Word) : Word := if old.toNat ≤ v.toNat then old else v

/-- The larger of two words, unsigned (R235). -/
def maxUnsignedWord (old v : Word) : Word := if v.toNat ≤ old.toNat then old else v

/-- LR.W: exactly `lw rd, 0(rs1)`; no reservation is recorded, the rs2 field is ignored (R224, R236). -/
def execLrW (rd rs1 _rs2 : RegIdx) (_aq _rl : BitVec 1) (s : State) : Result :=
  loadOp .word id rd (atomicAddr s rs1) s

/-- SC.W: stores `x[rs2]` and writes the success code 0; it never fails (R225, R236). If the store raises, `rd` is not
written. -/
def execScW (rd rs1 rs2 : RegIdx) (_aq _rl : BitVec 1) (s : State) : Result :=
  match busWrite s (atomicAddr s rs1) .word (readReg s rs2) with
  | .ok s1 => finishReg s1 rd 0#32
  | .error f => raise f

/-- AMOSWAP.W (R226). -/
def execAmoswapW (rd rs1 rs2 : RegIdx) (_aq _rl : BitVec 1) (s : State) : Result :=
  amoOp (fun _ v => v) rd rs1 rs2 s

/-- AMOADD.W (R227). -/
def execAmoaddW (rd rs1 rs2 : RegIdx) (_aq _rl : BitVec 1) (s : State) : Result :=
  amoOp (fun old v => old + v) rd rs1 rs2 s

/-- AMOXOR.W (R228). -/
def execAmoxorW (rd rs1 rs2 : RegIdx) (_aq _rl : BitVec 1) (s : State) : Result :=
  amoOp (fun old v => old ^^^ v) rd rs1 rs2 s

/-- AMOAND.W (R229). -/
def execAmoandW (rd rs1 rs2 : RegIdx) (_aq _rl : BitVec 1) (s : State) : Result :=
  amoOp (fun old v => old &&& v) rd rs1 rs2 s

/-- AMOOR.W (R230). -/
def execAmoorW (rd rs1 rs2 : RegIdx) (_aq _rl : BitVec 1) (s : State) : Result :=
  amoOp (fun old v => old ||| v) rd rs1 rs2 s

/-- AMOMIN.W (R231). -/
def execAmominW (rd rs1 rs2 : RegIdx) (_aq _rl : BitVec 1) (s : State) : Result :=
  amoOp minSignedWord rd rs1 rs2 s

/-- AMOMAX.W (R232). -/
def execAmomaxW (rd rs1 rs2 : RegIdx) (_aq _rl : BitVec 1) (s : State) : Result :=
  amoOp maxSignedWord rd rs1 rs2 s

/-- AMOMINU.W (R233). -/
def execAmominuW (rd rs1 rs2 : RegIdx) (_aq _rl : BitVec 1) (s : State) : Result :=
  amoOp minUnsignedWord rd rs1 rs2 s

/-- AMOMAXU.W (R235). -/
def execAmomaxuW (rd rs1 rs2 : RegIdx) (_aq _rl : BitVec 1) (s : State) : Result :=
  amoOp maxUnsignedWord rd rs1 rs2 s

end Sys2Proof.Machine
end

