-- ==== Sys2Proof/Machine/Branch.lean ====
section
/-! DEFINITION. Conditional branches, opcode 0x63 (spec/44_branch.md). A branch writes no register, accesses no memory and
cannot fault once decoded (R180). -/

namespace Sys2Proof.Machine

/-- The common end of a branch (R180): `pc + immB` if taken, else `pc + 4`; the target is not checked (R188). -/
def branchOp (taken : Bool) (offset : BitVec 13) (s : State) : Result :=
  .next (setPc s (if taken then branchTarget s offset else nextPc s))

/-- BEQ: taken if equal (R181). -/
def execBeq (rs1 rs2 : RegIdx) (offset : BitVec 13) (s : State) : Result :=
  branchOp (decide (readReg s rs1 = readReg s rs2)) offset s

/-- BNE: taken if not equal (R182). -/
def execBne (rs1 rs2 : RegIdx) (offset : BitVec 13) (s : State) : Result :=
  branchOp (decide (readReg s rs1 ≠ readReg s rs2)) offset s

/-- BLT: taken if less, signed (R183). -/
def execBlt (rs1 rs2 : RegIdx) (offset : BitVec 13) (s : State) : Result :=
  branchOp (ltSigned (readReg s rs1) (readReg s rs2)) offset s

/-- BGE: taken if not less, signed (R184). -/
def execBge (rs1 rs2 : RegIdx) (offset : BitVec 13) (s : State) : Result :=
  branchOp (geSigned (readReg s rs1) (readReg s rs2)) offset s

/-- BLTU: taken if less, unsigned (R185). -/
def execBltu (rs1 rs2 : RegIdx) (offset : BitVec 13) (s : State) : Result :=
  branchOp (ltUnsigned (readReg s rs1) (readReg s rs2)) offset s

/-- BGEU: taken if not less, unsigned (R186). -/
def execBgeu (rs1 rs2 : RegIdx) (offset : BitVec 13) (s : State) : Result :=
  branchOp (geUnsigned (readReg s rs1) (readReg s rs2)) offset s

end Sys2Proof.Machine
end

