-- ==== Sys2Proof/Machine/Fence.lean ====
section
/-! DEFINITION. FENCE and FENCE.I, opcode 0x0F (spec/48_fence.md): no-ops that only advance pc. -/

namespace Sys2Proof.Machine

/-- FENCE: only `pc <- pc + 4`; every field but opcode and funct3 is ignored (R240). -/
def execFence (_rd _rs1 : RegIdx) (_fm _pred _succ : BitVec 4) (s : State) : Result :=
  finish s

/-- FENCE.I: only `pc <- pc + 4`; every fetch reads current memory (R241). -/
def execFenceI (_rd _rs1 : RegIdx) (_imm : BitVec 12) (s : State) : Result :=
  finish s

end Sys2Proof.Machine
end

