-- ==== Sys2Proof/Machine/Jump.lean ====
section
/-! DEFINITION. LUI, AUIPC, JAL, JALR (spec/45_upper_imm_jumps.md). -/

namespace Sys2Proof.Machine

/-- The common end of JAL and JALR: the link `pc + 4` into `x[rd]`, then `pc <- target`; the target was computed
from the old registers and is not checked (R12, R192, R193, R195). -/
def jumpOp (rd : RegIdx) (target : Word) (s : State) : Result :=
  .next (setPc (writeReg s rd (nextPc s)) target)

/-- LUI: `x[rd] <- immU` (R190). -/
def execLui (rd : RegIdx) (imm : BitVec 20) (s : State) : Result :=
  finishReg s rd (immU imm)

/-- AUIPC: `x[rd] <- pc + immU`, the pc of the AUIPC itself (R191). -/
def execAuipc (rd : RegIdx) (imm : BitVec 20) (s : State) : Result :=
  finishReg s rd (s.pc + immU imm)

/-- JAL (R192). -/
def execJal (rd : RegIdx) (offset : BitVec 21) (s : State) : Result :=
  jumpOp rd (jalTarget s offset) s

/-- JALR (R193). -/
def execJalr (rd rs1 : RegIdx) (imm : BitVec 12) (s : State) : Result :=
  jumpOp rd (jalrTarget s rs1 imm) s

end Sys2Proof.Machine
end

