-- ==== Sys2Proof/Machine/MulDiv.lean ====
section
/-! DEFINITION. Multiply and divide, opcode 0x33 with funct7 0x01 (spec/42_muldiv.md). None can fault: division by zero
and signed overflow return defined values (R140). Products and quotients are computed exactly, then narrowed. -/

namespace Sys2Proof.Machine

/-- `(p mod 2^64)[63:32]`: the high word of an exact product (R142). -/
def highWord (p : Int) : Word := (BitVec.ofInt 64 p).extractLsb' 32 32

/-- `0x8000_0000`, the most negative word (R145). -/
def minSigned : Word := 0x80000000#32

/-- `0xFFFF_FFFF`: all ones, -1 (R145). -/
def allOnes : Word := 0xFFFFFFFF#32

/-- DIV's result: division by zero and the signed overflow have defined results, otherwise the quotient rounded
toward zero (R145). -/
def divSigned (a b : Word) : Word :=
  if b = 0#32 then allOnes
  else if a = minSigned ∧ b = allOnes then minSigned
  else BitVec.ofInt 32 (a.toInt.tdiv b.toInt)

/-- DIVU's result: all ones for division by zero, otherwise the quotient rounded down (R146). -/
def divUnsigned (a b : Word) : Word :=
  if b = 0#32 then allOnes else BitVec.ofNat 32 (a.toNat / b.toNat)

/-- REM's result: the dividend for division by zero, 0 for the signed overflow, otherwise
`signed(a) - signed(b) * trunc(signed(a) / signed(b))` (R147). -/
def remSigned (a b : Word) : Word :=
  if b = 0#32 then a
  else if a = minSigned ∧ b = allOnes then 0#32
  else BitVec.ofInt 32 (a.toInt - b.toInt * a.toInt.tdiv b.toInt)

/-- REMU's result: the dividend for division by zero, otherwise the remainder (R148). -/
def remUnsigned (a b : Word) : Word :=
  if b = 0#32 then a else BitVec.ofNat 32 (a.toNat % b.toNat)

/-- MUL: the low 32 bits of the product (R141). -/
def execMul (rd rs1 rs2 : RegIdx) (s : State) : Result :=
  finishReg s rd (BitVec.ofNat 32 ((readReg s rs1).toNat * (readReg s rs2).toNat))

/-- MULH: the high word, signed by signed (R142). -/
def execMulh (rd rs1 rs2 : RegIdx) (s : State) : Result :=
  finishReg s rd (highWord ((readReg s rs1).toInt * (readReg s rs2).toInt))

/-- MULHSU: the high word, signed `x[rs1]` by unsigned `x[rs2]` (R143). -/
def execMulhsu (rd rs1 rs2 : RegIdx) (s : State) : Result :=
  finishReg s rd (highWord ((readReg s rs1).toInt * ((readReg s rs2).toNat : Int)))

/-- MULHU: the high word, unsigned by unsigned (R144). -/
def execMulhu (rd rs1 rs2 : RegIdx) (s : State) : Result :=
  finishReg s rd (highWord (((readReg s rs1).toNat : Int) * ((readReg s rs2).toNat : Int)))

/-- DIV (R145). -/
def execDiv (rd rs1 rs2 : RegIdx) (s : State) : Result :=
  finishReg s rd (divSigned (readReg s rs1) (readReg s rs2))

/-- DIVU (R146). -/
def execDivu (rd rs1 rs2 : RegIdx) (s : State) : Result :=
  finishReg s rd (divUnsigned (readReg s rs1) (readReg s rs2))

/-- REM (R147). -/
def execRem (rd rs1 rs2 : RegIdx) (s : State) : Result :=
  finishReg s rd (remSigned (readReg s rs1) (readReg s rs2))

/-- REMU (R148). -/
def execRemu (rd rs1 rs2 : RegIdx) (s : State) : Result :=
  finishReg s rd (remUnsigned (readReg s rs1) (readReg s rs2))

end Sys2Proof.Machine
end

