-- ==== Sys2Proof/Machine/OpImm.lean ====
section
/-! DEFINITION. Register-immediate instructions, opcode 0x13 (spec/40_op_imm.md). None accesses memory, none can fault
(R100). -/

namespace Sys2Proof.Machine

/-- ADDI: `x[rd] <- x[rs1] + immI`, modulo 2^32 (R101). -/
def execAddi (rd rs1 : RegIdx) (imm : BitVec 12) (s : State) : Result :=
  finishReg s rd (readReg s rs1 + immI imm)

/-- SLTI: 1 if `signed(x[rs1]) < signed(immI)`, else 0 (R102). -/
def execSlti (rd rs1 : RegIdx) (imm : BitVec 12) (s : State) : Result :=
  finishReg s rd (boolWord (ltSigned (readReg s rs1) (immI imm)))

/-- SLTIU: the immediate is sign-extended, then compared as unsigned (R103). -/
def execSltiu (rd rs1 : RegIdx) (imm : BitVec 12) (s : State) : Result :=
  finishReg s rd (boolWord (ltUnsigned (readReg s rs1) (immI imm)))

/-- XORI (R104). -/
def execXori (rd rs1 : RegIdx) (imm : BitVec 12) (s : State) : Result :=
  finishReg s rd (readReg s rs1 ^^^ immI imm)

/-- ORI (R105). -/
def execOri (rd rs1 : RegIdx) (imm : BitVec 12) (s : State) : Result :=
  finishReg s rd (readReg s rs1 ||| immI imm)

/-- ANDI (R106). -/
def execAndi (rd rs1 : RegIdx) (imm : BitVec 12) (s : State) : Result :=
  finishReg s rd (readReg s rs1 &&& immI imm)

/-- SLLI: zeros enter at bit 0 (R107). -/
def execSlli (rd rs1 : RegIdx) (shamt : BitVec 5) (s : State) : Result :=
  finishReg s rd (readReg s rs1 <<< shamt.toNat)

/-- SRLI: zeros enter at bit 31 (R108). -/
def execSrli (rd rs1 : RegIdx) (shamt : BitVec 5) (s : State) : Result :=
  finishReg s rd (readReg s rs1 >>> shamt.toNat)

/-- SRAI: copies of bit 31 enter; the unchecked bits have no effect (R109, R73). -/
def execSrai (rd rs1 : RegIdx) (shamt : BitVec 5) (_unchecked : BitVec 6) (s : State) : Result :=
  finishReg s rd ((readReg s rs1).sshiftRight shamt.toNat)

end Sys2Proof.Machine
end

