-- ==== Sys2Proof/Machine/OpReg.lean ====
section
/-! DEFINITION. Register-register instructions, opcode 0x33 with funct7 0x00 and 0x20 (spec/41_op_reg.md). None accesses
memory, none can fault (R120); register shifts use the low 5 bits of `x[rs2]`. -/

namespace Sys2Proof.Machine

/-- ADD, modulo 2^32 (R121). -/
def execAdd (rd rs1 rs2 : RegIdx) (s : State) : Result :=
  finishReg s rd (readReg s rs1 + readReg s rs2)

/-- SUB, modulo 2^32 (R122). -/
def execSub (rd rs1 rs2 : RegIdx) (s : State) : Result :=
  finishReg s rd (readReg s rs1 - readReg s rs2)

/-- SLL by `x[rs2][4:0]` (R123). -/
def execSll (rd rs1 rs2 : RegIdx) (s : State) : Result :=
  finishReg s rd (readReg s rs1 <<< (shiftAmount (readReg s rs2)).toNat)

/-- SLT: signed comparison (R124). -/
def execSlt (rd rs1 rs2 : RegIdx) (s : State) : Result :=
  finishReg s rd (boolWord (ltSigned (readReg s rs1) (readReg s rs2)))

/-- SLTU: unsigned comparison (R125). -/
def execSltu (rd rs1 rs2 : RegIdx) (s : State) : Result :=
  finishReg s rd (boolWord (ltUnsigned (readReg s rs1) (readReg s rs2)))

/-- XOR (R126). -/
def execXor (rd rs1 rs2 : RegIdx) (s : State) : Result :=
  finishReg s rd (readReg s rs1 ^^^ readReg s rs2)

/-- SRL by `x[rs2][4:0]` (R127). -/
def execSrl (rd rs1 rs2 : RegIdx) (s : State) : Result :=
  finishReg s rd (readReg s rs1 >>> (shiftAmount (readReg s rs2)).toNat)

/-- SRA by `x[rs2][4:0]` (R128). -/
def execSra (rd rs1 rs2 : RegIdx) (s : State) : Result :=
  finishReg s rd ((readReg s rs1).sshiftRight (shiftAmount (readReg s rs2)).toNat)

/-- OR (R129). -/
def execOr (rd rs1 rs2 : RegIdx) (s : State) : Result :=
  finishReg s rd (readReg s rs1 ||| readReg s rs2)

/-- AND (R130). -/
def execAnd (rd rs1 rs2 : RegIdx) (s : State) : Result :=
  finishReg s rd (readReg s rs1 &&& readReg s rs2)

end Sys2Proof.Machine
end

