-- ==== Sys2Proof/Machine/System.lean ====
section
/-! DEFINITION. System instructions and CSR access, opcode 0x73 (spec/46_system_csr.md). There is one mode and no access
check: no CSR instruction faults (R18, R210, R258). Every source is read before any destination is written (R12). -/

namespace Sys2Proof.Machine

/-- ECALL: raises the termination signal; no state changes, whatever the ignored fields hold (R201, R253). -/
def execEcall (_rd _rs1 : RegIdx) (_s : State) : Result :=
  raise .ecallTermination

/-- EBREAK: "treated as unsupported", refused exactly like an illegal word (R211). -/
def execEbreak (_rd _rs1 : RegIdx) (_s : State) : Result :=
  raise .unsupportedInstruction

/-- MRET: "no-op, PC += 4"; mepc and mstatus are neither read nor written (R202, R259). -/
def execMret (_rd _rs1 : RegIdx) (s : State) : Result :=
  trapReturn s

/-- CSR read and write (R203, R206): the CSR takes `v` always, `x[rd]` its old value. -/
def csrWriteOp (rd : RegIdx) (csr : CsrIdx) (v : Word) (s : State) : Result :=
  finishReg (writeCsr s csr v) rd (readCsr s csr)

/-- CSR read and set bits (R204, R207): written only "when the mask is non-zero" (R210). -/
def csrSetOp (rd : RegIdx) (csr : CsrIdx) (m : Word) (s : State) : Result :=
  finishReg (if m = 0#32 then s else writeCsr s csr (readCsr s csr ||| m)) rd (readCsr s csr)

/-- CSR read and clear bits (R205, R208): written only "when the mask is non-zero" (R210). -/
def csrClearOp (rd : RegIdx) (csr : CsrIdx) (m : Word) (s : State) : Result :=
  finishReg (if m = 0#32 then s else writeCsr s csr (readCsr s csr &&& ~~~m)) rd (readCsr s csr)

/-- CSRRW (R203). -/
def execCsrrw (rd rs1 : RegIdx) (csr : CsrIdx) (s : State) : Result :=
  csrWriteOp rd csr (readReg s rs1) s

/-- CSRRS (R204). -/
def execCsrrs (rd rs1 : RegIdx) (csr : CsrIdx) (s : State) : Result :=
  csrSetOp rd csr (readReg s rs1) s

/-- CSRRC (R205). -/
def execCsrrc (rd rs1 : RegIdx) (csr : CsrIdx) (s : State) : Result :=
  csrClearOp rd csr (readReg s rs1) s

/-- CSRRWI: writes always, also 0 (R206). -/
def execCsrrwi (rd : RegIdx) (uimm : BitVec 5) (csr : CsrIdx) (s : State) : Result :=
  csrWriteOp rd csr (uimm5 uimm) s

/-- CSRRSI (R207). -/
def execCsrrsi (rd : RegIdx) (uimm : BitVec 5) (csr : CsrIdx) (s : State) : Result :=
  csrSetOp rd csr (uimm5 uimm) s

/-- CSRRCI (R208). -/
def execCsrrci (rd : RegIdx) (uimm : BitVec 5) (csr : CsrIdx) (s : State) : Result :=
  csrClearOp rd csr (uimm5 uimm) s

end Sys2Proof.Machine
end

