-- ==== Sys2Proof/Syntax.lean ====
section
/-! DEFINITION. The instructions: one constructor per row of spec/opcode_table.json. A constructor carries EVERY
bit field of its row, the ones the hardware ignores (R73, R221, R240, R241) among them, so that a legal word and
its instruction determine each other. -/

namespace Sys2Proof

/-- The 67 instructions. Immediates are the raw fields of the formats of R61; `unchecked` of SRAI is
`{inst[31], inst[29:25]}`, `rs2` of LR.W is `inst[24:20]`, and `aq`, `rl` are `inst[26]`, `inst[25]`. -/
inductive Instr where
  -- opcode 0x13 (spec/40_op_imm.md)
  | addi (rd rs1 : RegIdx) (imm : BitVec 12)
  | slti (rd rs1 : RegIdx) (imm : BitVec 12)
  | sltiu (rd rs1 : RegIdx) (imm : BitVec 12)
  | xori (rd rs1 : RegIdx) (imm : BitVec 12)
  | ori (rd rs1 : RegIdx) (imm : BitVec 12)
  | andi (rd rs1 : RegIdx) (imm : BitVec 12)
  | slli (rd rs1 : RegIdx) (shamt : BitVec 5)
  | srli (rd rs1 : RegIdx) (shamt : BitVec 5)
  | srai (rd rs1 : RegIdx) (shamt : BitVec 5) (unchecked : BitVec 6)
  -- opcode 0x33, funct7 0x00 and 0x20 (spec/41_op_reg.md)
  | add (rd rs1 rs2 : RegIdx)
  | sub (rd rs1 rs2 : RegIdx)
  | sll (rd rs1 rs2 : RegIdx)
  | slt (rd rs1 rs2 : RegIdx)
  | sltu (rd rs1 rs2 : RegIdx)
  | xor (rd rs1 rs2 : RegIdx)
  | srl (rd rs1 rs2 : RegIdx)
  | sra (rd rs1 rs2 : RegIdx)
  | or (rd rs1 rs2 : RegIdx)
  | and (rd rs1 rs2 : RegIdx)
  -- opcode 0x33, funct7 0x01 (spec/42_muldiv.md)
  | mul (rd rs1 rs2 : RegIdx)
  | mulh (rd rs1 rs2 : RegIdx)
  | mulhsu (rd rs1 rs2 : RegIdx)
  | mulhu (rd rs1 rs2 : RegIdx)
  | div (rd rs1 rs2 : RegIdx)
  | divu (rd rs1 rs2 : RegIdx)
  | rem (rd rs1 rs2 : RegIdx)
  | remu (rd rs1 rs2 : RegIdx)
  -- opcodes 0x03 and 0x23 (spec/43_load_store.md)
  | lb (rd rs1 : RegIdx) (imm : BitVec 12)
  | lh (rd rs1 : RegIdx) (imm : BitVec 12)
  | lw (rd rs1 : RegIdx) (imm : BitVec 12)
  | lbu (rd rs1 : RegIdx) (imm : BitVec 12)
  | lhu (rd rs1 : RegIdx) (imm : BitVec 12)
  | sb (rs1 rs2 : RegIdx) (imm : BitVec 12)
  | sh (rs1 rs2 : RegIdx) (imm : BitVec 12)
  | sw (rs1 rs2 : RegIdx) (imm : BitVec 12)
  -- opcode 0x63 (spec/44_branch.md); offset bit 0 is 0 in every word
  | beq (rs1 rs2 : RegIdx) (offset : BitVec 13)
  | bne (rs1 rs2 : RegIdx) (offset : BitVec 13)
  | blt (rs1 rs2 : RegIdx) (offset : BitVec 13)
  | bge (rs1 rs2 : RegIdx) (offset : BitVec 13)
  | bltu (rs1 rs2 : RegIdx) (offset : BitVec 13)
  | bgeu (rs1 rs2 : RegIdx) (offset : BitVec 13)
  -- opcodes 0x37, 0x17, 0x6F, 0x67 (spec/45_upper_imm_jumps.md)
  | lui (rd : RegIdx) (imm : BitVec 20)
  | auipc (rd : RegIdx) (imm : BitVec 20)
  | jal (rd : RegIdx) (offset : BitVec 21)
  | jalr (rd rs1 : RegIdx) (imm : BitVec 12)
  -- opcode 0x73 (spec/46_system_csr.md)
  | ecall (rd rs1 : RegIdx)
  | ebreak (rd rs1 : RegIdx)
  | mret (rd rs1 : RegIdx)
  | csrrw (rd rs1 : RegIdx) (csr : CsrIdx)
  | csrrs (rd rs1 : RegIdx) (csr : CsrIdx)
  | csrrc (rd rs1 : RegIdx) (csr : CsrIdx)
  | csrrwi (rd : RegIdx) (uimm : BitVec 5) (csr : CsrIdx)
  | csrrsi (rd : RegIdx) (uimm : BitVec 5) (csr : CsrIdx)
  | csrrci (rd : RegIdx) (uimm : BitVec 5) (csr : CsrIdx)
  -- opcode 0x2F (spec/47_atomic.md)
  | lrW (rd rs1 rs2 : RegIdx) (aq rl : BitVec 1)
  | scW (rd rs1 rs2 : RegIdx) (aq rl : BitVec 1)
  | amoswapW (rd rs1 rs2 : RegIdx) (aq rl : BitVec 1)
  | amoaddW (rd rs1 rs2 : RegIdx) (aq rl : BitVec 1)
  | amoxorW (rd rs1 rs2 : RegIdx) (aq rl : BitVec 1)
  | amoandW (rd rs1 rs2 : RegIdx) (aq rl : BitVec 1)
  | amoorW (rd rs1 rs2 : RegIdx) (aq rl : BitVec 1)
  | amominW (rd rs1 rs2 : RegIdx) (aq rl : BitVec 1)
  | amomaxW (rd rs1 rs2 : RegIdx) (aq rl : BitVec 1)
  | amominuW (rd rs1 rs2 : RegIdx) (aq rl : BitVec 1)
  | amomaxuW (rd rs1 rs2 : RegIdx) (aq rl : BitVec 1)
  -- opcode 0x0F (spec/48_fence.md)
  | fence (rd rs1 : RegIdx) (fm pred succ : BitVec 4)
  | fenceI (rd rs1 : RegIdx) (imm : BitVec 12)
  deriving DecidableEq, Repr

/-- The row of spec/opcode_table.json an instruction stands for, by its mnemonic there. -/
def Instr.mnemonic : Instr → String
  | .addi .. => "ADDI"
  | .slti .. => "SLTI"
  | .sltiu .. => "SLTIU"
  | .xori .. => "XORI"
  | .ori .. => "ORI"
  | .andi .. => "ANDI"
  | .slli .. => "SLLI"
  | .srli .. => "SRLI"
  | .srai .. => "SRAI"
  | .add .. => "ADD"
  | .sub .. => "SUB"
  | .sll .. => "SLL"
  | .slt .. => "SLT"
  | .sltu .. => "SLTU"
  | .xor .. => "XOR"
  | .srl .. => "SRL"
  | .sra .. => "SRA"
  | .or .. => "OR"
  | .and .. => "AND"
  | .mul .. => "MUL"
  | .mulh .. => "MULH"
  | .mulhsu .. => "MULHSU"
  | .mulhu .. => "MULHU"
  | .div .. => "DIV"
  | .divu .. => "DIVU"
  | .rem .. => "REM"
  | .remu .. => "REMU"
  | .lb .. => "LB"
  | .lh .. => "LH"
  | .lw .. => "LW"
  | .lbu .. => "LBU"
  | .lhu .. => "LHU"
  | .sb .. => "SB"
  | .sh .. => "SH"
  | .sw .. => "SW"
  | .beq .. => "BEQ"
  | .bne .. => "BNE"
  | .blt .. => "BLT"
  | .bge .. => "BGE"
  | .bltu .. => "BLTU"
  | .bgeu .. => "BGEU"
  | .lui .. => "LUI"
  | .auipc .. => "AUIPC"
  | .jal .. => "JAL"
  | .jalr .. => "JALR"
  | .ecall .. => "ECALL"
  | .ebreak .. => "EBREAK"
  | .mret .. => "MRET"
  | .csrrw .. => "CSRRW"
  | .csrrs .. => "CSRRS"
  | .csrrc .. => "CSRRC"
  | .csrrwi .. => "CSRRWI"
  | .csrrsi .. => "CSRRSI"
  | .csrrci .. => "CSRRCI"
  | .lrW .. => "LR.W"
  | .scW .. => "SC.W"
  | .amoswapW .. => "AMOSWAP.W"
  | .amoaddW .. => "AMOADD.W"
  | .amoxorW .. => "AMOXOR.W"
  | .amoandW .. => "AMOAND.W"
  | .amoorW .. => "AMOOR.W"
  | .amominW .. => "AMOMIN.W"
  | .amomaxW .. => "AMOMAX.W"
  | .amominuW .. => "AMOMINU.W"
  | .amomaxuW .. => "AMOMAXU.W"
  | .fence .. => "FENCE"
  | .fenceI .. => "FENCE.I"

end Sys2Proof
end

