-- ==== Sys2Proof/Machine/Dispatch.lean ====
section
/-! DEFINITION. One arm per instruction: its meaning. -/

namespace Sys2Proof.Machine

/-- The meaning of an instruction at a state whose `pc` is the instruction's own address (R8). -/
def exec (i : Instr) (s : State) : Host.Outcome State Fault Refusal :=
  match i with
  | .addi rd rs1 imm => Sys2Proof.Machine.execAddi rd rs1 imm s
  | .slti rd rs1 imm => Sys2Proof.Machine.execSlti rd rs1 imm s
  | .sltiu rd rs1 imm => Sys2Proof.Machine.execSltiu rd rs1 imm s
  | .xori rd rs1 imm => Sys2Proof.Machine.execXori rd rs1 imm s
  | .ori rd rs1 imm => Sys2Proof.Machine.execOri rd rs1 imm s
  | .andi rd rs1 imm => Sys2Proof.Machine.execAndi rd rs1 imm s
  | .slli rd rs1 shamt => Sys2Proof.Machine.execSlli rd rs1 shamt s
  | .srli rd rs1 shamt => Sys2Proof.Machine.execSrli rd rs1 shamt s
  | .srai rd rs1 shamt unchecked => Sys2Proof.Machine.execSrai rd rs1 shamt unchecked s
  | .add rd rs1 rs2 => Sys2Proof.Machine.execAdd rd rs1 rs2 s
  | .sub rd rs1 rs2 => Sys2Proof.Machine.execSub rd rs1 rs2 s
  | .sll rd rs1 rs2 => Sys2Proof.Machine.execSll rd rs1 rs2 s
  | .slt rd rs1 rs2 => Sys2Proof.Machine.execSlt rd rs1 rs2 s
  | .sltu rd rs1 rs2 => Sys2Proof.Machine.execSltu rd rs1 rs2 s
  | .xor rd rs1 rs2 => Sys2Proof.Machine.execXor rd rs1 rs2 s
  | .srl rd rs1 rs2 => Sys2Proof.Machine.execSrl rd rs1 rs2 s
  | .sra rd rs1 rs2 => Sys2Proof.Machine.execSra rd rs1 rs2 s
  | .or rd rs1 rs2 => Sys2Proof.Machine.execOr rd rs1 rs2 s
  | .and rd rs1 rs2 => Sys2Proof.Machine.execAnd rd rs1 rs2 s
  | .mul rd rs1 rs2 => Sys2Proof.Machine.execMul rd rs1 rs2 s
  | .mulh rd rs1 rs2 => Sys2Proof.Machine.execMulh rd rs1 rs2 s
  | .mulhsu rd rs1 rs2 => Sys2Proof.Machine.execMulhsu rd rs1 rs2 s
  | .mulhu rd rs1 rs2 => Sys2Proof.Machine.execMulhu rd rs1 rs2 s
  | .div rd rs1 rs2 => Sys2Proof.Machine.execDiv rd rs1 rs2 s
  | .divu rd rs1 rs2 => Sys2Proof.Machine.execDivu rd rs1 rs2 s
  | .rem rd rs1 rs2 => Sys2Proof.Machine.execRem rd rs1 rs2 s
  | .remu rd rs1 rs2 => Sys2Proof.Machine.execRemu rd rs1 rs2 s
  | .lb rd rs1 imm => Sys2Proof.Machine.execLb rd rs1 imm s
  | .lh rd rs1 imm => Sys2Proof.Machine.execLh rd rs1 imm s
  | .lw rd rs1 imm => Sys2Proof.Machine.execLw rd rs1 imm s
  | .lbu rd rs1 imm => Sys2Proof.Machine.execLbu rd rs1 imm s
  | .lhu rd rs1 imm => Sys2Proof.Machine.execLhu rd rs1 imm s
  | .sb rs1 rs2 imm => Sys2Proof.Machine.execSb rs1 rs2 imm s
  | .sh rs1 rs2 imm => Sys2Proof.Machine.execSh rs1 rs2 imm s
  | .sw rs1 rs2 imm => Sys2Proof.Machine.execSw rs1 rs2 imm s
  | .beq rs1 rs2 offset => Sys2Proof.Machine.execBeq rs1 rs2 offset s
  | .bne rs1 rs2 offset => Sys2Proof.Machine.execBne rs1 rs2 offset s
  | .blt rs1 rs2 offset => Sys2Proof.Machine.execBlt rs1 rs2 offset s
  | .bge rs1 rs2 offset => Sys2Proof.Machine.execBge rs1 rs2 offset s
  | .bltu rs1 rs2 offset => Sys2Proof.Machine.execBltu rs1 rs2 offset s
  | .bgeu rs1 rs2 offset => Sys2Proof.Machine.execBgeu rs1 rs2 offset s
  | .lui rd imm => Sys2Proof.Machine.execLui rd imm s
  | .auipc rd imm => Sys2Proof.Machine.execAuipc rd imm s
  | .jal rd offset => Sys2Proof.Machine.execJal rd offset s
  | .jalr rd rs1 imm => Sys2Proof.Machine.execJalr rd rs1 imm s
  | .ecall rd rs1 => Sys2Proof.Machine.execEcall rd rs1 s
  | .ebreak rd rs1 => Sys2Proof.Machine.execEbreak rd rs1 s
  | .mret rd rs1 => Sys2Proof.Machine.execMret rd rs1 s
  | .csrrw rd rs1 csr => Sys2Proof.Machine.execCsrrw rd rs1 csr s
  | .csrrs rd rs1 csr => Sys2Proof.Machine.execCsrrs rd rs1 csr s
  | .csrrc rd rs1 csr => Sys2Proof.Machine.execCsrrc rd rs1 csr s
  | .csrrwi rd uimm csr => Sys2Proof.Machine.execCsrrwi rd uimm csr s
  | .csrrsi rd uimm csr => Sys2Proof.Machine.execCsrrsi rd uimm csr s
  | .csrrci rd uimm csr => Sys2Proof.Machine.execCsrrci rd uimm csr s
  | .lrW rd rs1 rs2 aq rl => Sys2Proof.Machine.execLrW rd rs1 rs2 aq rl s
  | .scW rd rs1 rs2 aq rl => Sys2Proof.Machine.execScW rd rs1 rs2 aq rl s
  | .amoswapW rd rs1 rs2 aq rl => Sys2Proof.Machine.execAmoswapW rd rs1 rs2 aq rl s
  | .amoaddW rd rs1 rs2 aq rl => Sys2Proof.Machine.execAmoaddW rd rs1 rs2 aq rl s
  | .amoxorW rd rs1 rs2 aq rl => Sys2Proof.Machine.execAmoxorW rd rs1 rs2 aq rl s
  | .amoandW rd rs1 rs2 aq rl => Sys2Proof.Machine.execAmoandW rd rs1 rs2 aq rl s
  | .amoorW rd rs1 rs2 aq rl => Sys2Proof.Machine.execAmoorW rd rs1 rs2 aq rl s
  | .amominW rd rs1 rs2 aq rl => Sys2Proof.Machine.execAmominW rd rs1 rs2 aq rl s
  | .amomaxW rd rs1 rs2 aq rl => Sys2Proof.Machine.execAmomaxW rd rs1 rs2 aq rl s
  | .amominuW rd rs1 rs2 aq rl => Sys2Proof.Machine.execAmominuW rd rs1 rs2 aq rl s
  | .amomaxuW rd rs1 rs2 aq rl => Sys2Proof.Machine.execAmomaxuW rd rs1 rs2 aq rl s
  | .fence rd rs1 fm pred succ => Sys2Proof.Machine.execFence rd rs1 fm pred succ s
  | .fenceI rd rs1 imm => Sys2Proof.Machine.execFenceI rd rs1 imm s

end Sys2Proof.Machine
end

