-- ==== Sys2Proof/WellFormed.lean ====
section
/-! DEFINITION. Which instructions a word can stand for: a branch or JAL offset is even (R67, R69), and under
`STRICT_RESERVED_FIELDS` the fields of R73 are zero. -/

namespace Sys2Proof

/-- Bit 0 of the offset of a branch or of JAL is 0: "low bit implicitly zero" (R67, R69). -/
def Instr.offsetEven : Instr → Bool
  | .beq _ _ o | .bne _ _ o | .blt _ _ o | .bge _ _ o | .bltu _ _ o | .bgeu _ _ o => !o.getLsbD 0
  | .jal _ o => !o.getLsbD 0
  | .addi .. | .slti .. | .sltiu .. | .xori .. | .ori .. | .andi .. | .slli .. | .srli .. | .srai ..
  | .add .. | .sub .. | .sll .. | .slt .. | .sltu .. | .xor .. | .srl .. | .sra .. | .or .. | .and ..
  | .mul .. | .mulh .. | .mulhsu .. | .mulhu .. | .div .. | .divu .. | .rem .. | .remu ..
  | .lb .. | .lh .. | .lw .. | .lbu .. | .lhu .. | .sb .. | .sh .. | .sw ..
  | .lui .. | .auipc .. | .jalr .. | .ecall .. | .ebreak .. | .mret ..
  | .csrrw .. | .csrrs .. | .csrrc .. | .csrrwi .. | .csrrsi .. | .csrrci ..
  | .lrW .. | .scW .. | .amoswapW .. | .amoaddW .. | .amoxorW .. | .amoandW .. | .amoorW ..
  | .amominW .. | .amomaxW .. | .amominuW .. | .amomaxuW .. | .fence .. | .fenceI .. => true

/-- The fields that R73 lets a model require to be zero are zero: SRAI's `inst[31]` and `inst[29:25]`, `rd` and
`rs1` of ECALL, EBREAK and MRET, `rs2` of LR.W. The fields of FENCE and FENCE.I and aq, rl are never required
("ignored under both settings"). -/
def Instr.reservedZero : Instr → Bool
  | .srai _ _ _ u => u == 0
  | .ecall rd rs1 | .ebreak rd rs1 | .mret rd rs1 => rd == 0 && rs1 == 0
  | .lrW _ _ rs2 _ _ => rs2 == 0
  | .addi .. | .slti .. | .sltiu .. | .xori .. | .ori .. | .andi .. | .slli .. | .srli ..
  | .add .. | .sub .. | .sll .. | .slt .. | .sltu .. | .xor .. | .srl .. | .sra .. | .or .. | .and ..
  | .mul .. | .mulh .. | .mulhsu .. | .mulhu .. | .div .. | .divu .. | .rem .. | .remu ..
  | .lb .. | .lh .. | .lw .. | .lbu .. | .lhu .. | .sb .. | .sh .. | .sw ..
  | .beq .. | .bne .. | .blt .. | .bge .. | .bltu .. | .bgeu ..
  | .lui .. | .auipc .. | .jal .. | .jalr ..
  | .csrrw .. | .csrrs .. | .csrrc .. | .csrrwi .. | .csrrsi .. | .csrrci ..
  | .scW .. | .amoswapW .. | .amoaddW .. | .amoxorW .. | .amoandW .. | .amoorW ..
  | .amominW .. | .amomaxW .. | .amominuW .. | .amomaxuW .. | .fence .. | .fenceI .. => true

/-- The instructions some word decodes to, under `STRICT_RESERVED_FIELDS = strict` (R73). -/
def Instr.wellFormed (strict : Bool) (i : Instr) : Bool :=
  i.offsetEven && (!strict || i.reservedZero)

end Sys2Proof
end

