-- ==== Sys2Proof/Decode.lean ====
section
/-! DEFINITION. The decoder (spec/30_encoding.md), total on any bytes and rejecting by name; after it the encoder,
written from the same formats of R61; the opcode table of spec/opcode_table.json as masks and patterns. -/

namespace Sys2Proof

/-- Why a word (or a byte list) is no instruction: the nine items of R66, the strict reading of R73, and a byte
list that is too short. The machine answers every one of them with `UnsupportedInstruction` (R251). -/
inductive DecodeReject where
  /-- R66 item 1: `inst[6:0]` is none of the twelve opcodes. -/
  | unknownOpcode
  /-- R66 item 2 (R110): SLLI or SRLI with a bit set outside the shift amount. -/
  | shiftImmediate
  /-- R66 item 3 (R131): a (funct7, funct3) pair that is none of the eighteen. -/
  | opFunct
  /-- R66 item 4 (R170): load funct3 in {3, 6, 7}. -/
  | loadFunct3
  /-- R66 item 4 (R170): store funct3 in 3..7. -/
  | storeFunct3
  /-- R66 item 5 (R187): branch funct3 in {2, 3}. -/
  | branchFunct3
  /-- R66 item 6 (R193): JALR with funct3 not 0. -/
  | jalrFunct3
  /-- R66 item 7 (R209): SYSTEM with funct3 = 4, or funct3 = 0 and an unknown funct12. -/
  | systemFunct
  /-- R66 item 8 (R234): atomic with funct3 not 2, or an unused funct5. -/
  | atomicFunct
  /-- R66 item 9 (R242): FENCE opcode with funct3 in 2..7. -/
  | miscMemFunct3
  /-- R73: a field that `STRICT_RESERVED_FIELDS` requires to be zero is not. -/
  | reservedField
  /-- Fewer than four bytes are left (the decoder's own; every fetched word has four). -/
  | truncated
  deriving DecidableEq, Repr

/-! ## Fields and immediates of a word (R61, R64 to R71) -/

/-- `inst[lo+len-1 : lo]` (R7). -/
def bits (w : Word) (lo len : Nat) : BitVec len := w.extractLsb' lo len

/-- `inst[6:0]` (R61). -/
def opcode (w : Word) : BitVec 7 := bits w 0 7
/-- `inst[11:7]` (R61). -/
def fieldRd (w : Word) : RegIdx := bits w 7 5
/-- `inst[14:12]` (R61). -/
def funct3 (w : Word) : BitVec 3 := bits w 12 3
/-- `inst[19:15]` (R61); also `uimm` of CSRR*I (R71). -/
def fieldRs1 (w : Word) : RegIdx := bits w 15 5
/-- `inst[24:20]` (R61); also `shamt` (R70). -/
def fieldRs2 (w : Word) : RegIdx := bits w 20 5
/-- `inst[31:25]` (R61). -/
def funct7 (w : Word) : BitVec 7 := bits w 25 7
/-- `inst[31:20]`: funct12, the CSR index (R71) and the I-immediate field (R64). -/
def funct12 (w : Word) : BitVec 12 := bits w 20 12
/-- `inst[31:27]` (R61, R220). -/
def funct5 (w : Word) : BitVec 5 := bits w 27 5
/-- `inst[26]` (R61, R221). -/
def fieldAq (w : Word) : BitVec 1 := bits w 26 1
/-- `inst[25]` (R61, R221). -/
def fieldRl (w : Word) : BitVec 1 := bits w 25 1
/-- The field of the S-immediate, `{inst[31:25], inst[11:7]}` (R65). -/
def fieldImmS (w : Word) : BitVec 12 := bits w 25 7 ++ bits w 7 5
/-- The field of the B-immediate, `{inst[31], inst[7], inst[30:25], inst[11:8], 0}` (R67). -/
def fieldImmB (w : Word) : BitVec 13 := bits w 31 1 ++ bits w 7 1 ++ bits w 25 6 ++ bits w 8 4 ++ 0#1
/-- The field of the U-immediate, `inst[31:12]` (R68). -/
def fieldImmU (w : Word) : BitVec 20 := bits w 12 20
/-- The field of the J-immediate, `{inst[31], inst[19:12], inst[20], inst[30:21], 0}` (R69). -/
def fieldImmJ (w : Word) : BitVec 21 := bits w 31 1 ++ bits w 12 8 ++ bits w 20 1 ++ bits w 21 10 ++ 0#1
/-- SRAI's unchecked bits, `{inst[31], inst[29:25]}` (R73, R109). -/
def fieldUnchecked (w : Word) : BitVec 6 := bits w 31 1 ++ bits w 25 5

/-! ## The decoder, opcode by opcode (R63) -/

/-- Opcode `0x13` (R100): funct3 selects; for funct3 = 5 `inst[30]` tells SRAI from SRLI; the upper bits of SLLI
and SRLI are checked (R110). -/
def decodeOpImm (w : Word) : Except DecodeReject Instr :=
  match funct3 w with
  | 0#3 => .ok (.addi (fieldRd w) (fieldRs1 w) (funct12 w))
  | 2#3 => .ok (.slti (fieldRd w) (fieldRs1 w) (funct12 w))
  | 3#3 => .ok (.sltiu (fieldRd w) (fieldRs1 w) (funct12 w))
  | 4#3 => .ok (.xori (fieldRd w) (fieldRs1 w) (funct12 w))
  | 6#3 => .ok (.ori (fieldRd w) (fieldRs1 w) (funct12 w))
  | 7#3 => .ok (.andi (fieldRd w) (fieldRs1 w) (funct12 w))
  | 1#3 =>
    if funct7 w = 0#7 then .ok (.slli (fieldRd w) (fieldRs1 w) (fieldRs2 w)) else .error .shiftImmediate
  | _ =>
    if bits w 30 1 = 1#1 then .ok (.srai (fieldRd w) (fieldRs1 w) (fieldRs2 w) (fieldUnchecked w))
    else if funct7 w = 0#7 then .ok (.srli (fieldRd w) (fieldRs1 w) (fieldRs2 w))
    else .error .shiftImmediate

/-- Opcode `0x33`: the pair (funct7, funct3) selects (R120, R140, R131). -/
def decodeOp (w : Word) : Except DecodeReject Instr :=
  match funct7 w with
  | 0x00#7 =>
    match funct3 w with
    | 0#3 => .ok (.add (fieldRd w) (fieldRs1 w) (fieldRs2 w))
    | 1#3 => .ok (.sll (fieldRd w) (fieldRs1 w) (fieldRs2 w))
    | 2#3 => .ok (.slt (fieldRd w) (fieldRs1 w) (fieldRs2 w))
    | 3#3 => .ok (.sltu (fieldRd w) (fieldRs1 w) (fieldRs2 w))
    | 4#3 => .ok (.xor (fieldRd w) (fieldRs1 w) (fieldRs2 w))
    | 5#3 => .ok (.srl (fieldRd w) (fieldRs1 w) (fieldRs2 w))
    | 6#3 => .ok (.or (fieldRd w) (fieldRs1 w) (fieldRs2 w))
    | _ => .ok (.and (fieldRd w) (fieldRs1 w) (fieldRs2 w))
  | 0x20#7 =>
    match funct3 w with
    | 0#3 => .ok (.sub (fieldRd w) (fieldRs1 w) (fieldRs2 w))
    | 5#3 => .ok (.sra (fieldRd w) (fieldRs1 w) (fieldRs2 w))
    | _ => .error .opFunct
  | 0x01#7 =>
    match funct3 w with
    | 0#3 => .ok (.mul (fieldRd w) (fieldRs1 w) (fieldRs2 w))
    | 1#3 => .ok (.mulh (fieldRd w) (fieldRs1 w) (fieldRs2 w))
    | 2#3 => .ok (.mulhsu (fieldRd w) (fieldRs1 w) (fieldRs2 w))
    | 3#3 => .ok (.mulhu (fieldRd w) (fieldRs1 w) (fieldRs2 w))
    | 4#3 => .ok (.div (fieldRd w) (fieldRs1 w) (fieldRs2 w))
    | 5#3 => .ok (.divu (fieldRd w) (fieldRs1 w) (fieldRs2 w))
    | 6#3 => .ok (.rem (fieldRd w) (fieldRs1 w) (fieldRs2 w))
    | _ => .ok (.remu (fieldRd w) (fieldRs1 w) (fieldRs2 w))
  | _ => .error .opFunct

/-- Opcode `0x03`: funct3 selects the width and the extension (R160, R170). -/
def decodeLoad (w : Word) : Except DecodeReject Instr :=
  match funct3 w with
  | 0#3 => .ok (.lb (fieldRd w) (fieldRs1 w) (funct12 w))
  | 1#3 => .ok (.lh (fieldRd w) (fieldRs1 w) (funct12 w))
  | 2#3 => .ok (.lw (fieldRd w) (fieldRs1 w) (funct12 w))
  | 4#3 => .ok (.lbu (fieldRd w) (fieldRs1 w) (funct12 w))
  | 5#3 => .ok (.lhu (fieldRd w) (fieldRs1 w) (funct12 w))
  | _ => .error .loadFunct3

/-- Opcode `0x23`: funct3 selects the width (R160, R170). -/
def decodeStore (w : Word) : Except DecodeReject Instr :=
  match funct3 w with
  | 0#3 => .ok (.sb (fieldRs1 w) (fieldRs2 w) (fieldImmS w))
  | 1#3 => .ok (.sh (fieldRs1 w) (fieldRs2 w) (fieldImmS w))
  | 2#3 => .ok (.sw (fieldRs1 w) (fieldRs2 w) (fieldImmS w))
  | _ => .error .storeFunct3

/-- Opcode `0x63`: funct3 selects the condition (R180, R187). -/
def decodeBranch (w : Word) : Except DecodeReject Instr :=
  match funct3 w with
  | 0#3 => .ok (.beq (fieldRs1 w) (fieldRs2 w) (fieldImmB w))
  | 1#3 => .ok (.bne (fieldRs1 w) (fieldRs2 w) (fieldImmB w))
  | 4#3 => .ok (.blt (fieldRs1 w) (fieldRs2 w) (fieldImmB w))
  | 5#3 => .ok (.bge (fieldRs1 w) (fieldRs2 w) (fieldImmB w))
  | 6#3 => .ok (.bltu (fieldRs1 w) (fieldRs2 w) (fieldImmB w))
  | 7#3 => .ok (.bgeu (fieldRs1 w) (fieldRs2 w) (fieldImmB w))
  | _ => .error .branchFunct3

/-- Opcode `0x67`: "funct3 must be 0" (R193). -/
def decodeJalr (w : Word) : Except DecodeReject Instr :=
  if funct3 w = 0#3 then .ok (.jalr (fieldRd w) (fieldRs1 w) (funct12 w)) else .error .jalrFunct3

/-- Opcode `0x73` (R200, R209). -/
def decodeSystem (w : Word) : Except DecodeReject Instr :=
  match funct3 w with
  | 0#3 =>
    match funct12 w with
    | 0x000#12 => .ok (.ecall (fieldRd w) (fieldRs1 w))
    | 0x001#12 => .ok (.ebreak (fieldRd w) (fieldRs1 w))
    | 0x302#12 => .ok (.mret (fieldRd w) (fieldRs1 w))
    | _ => .error .systemFunct
  | 1#3 => .ok (.csrrw (fieldRd w) (fieldRs1 w) (funct12 w))
  | 2#3 => .ok (.csrrs (fieldRd w) (fieldRs1 w) (funct12 w))
  | 3#3 => .ok (.csrrc (fieldRd w) (fieldRs1 w) (funct12 w))
  | 5#3 => .ok (.csrrwi (fieldRd w) (fieldRs1 w) (funct12 w))
  | 6#3 => .ok (.csrrsi (fieldRd w) (fieldRs1 w) (funct12 w))
  | 7#3 => .ok (.csrrci (fieldRd w) (fieldRs1 w) (funct12 w))
  | _ => .error .systemFunct

/-- Opcode `0x2F`: funct3 must be 2 and funct5 selects (R220, R234). -/
def decodeAtomic (w : Word) : Except DecodeReject Instr :=
  if funct3 w = 2#3 then
    match funct5 w with
    | 0x00#5 => .ok (.amoaddW (fieldRd w) (fieldRs1 w) (fieldRs2 w) (fieldAq w) (fieldRl w))
    | 0x01#5 => .ok (.amoswapW (fieldRd w) (fieldRs1 w) (fieldRs2 w) (fieldAq w) (fieldRl w))
    | 0x02#5 => .ok (.lrW (fieldRd w) (fieldRs1 w) (fieldRs2 w) (fieldAq w) (fieldRl w))
    | 0x03#5 => .ok (.scW (fieldRd w) (fieldRs1 w) (fieldRs2 w) (fieldAq w) (fieldRl w))
    | 0x04#5 => .ok (.amoxorW (fieldRd w) (fieldRs1 w) (fieldRs2 w) (fieldAq w) (fieldRl w))
    | 0x08#5 => .ok (.amoorW (fieldRd w) (fieldRs1 w) (fieldRs2 w) (fieldAq w) (fieldRl w))
    | 0x0C#5 => .ok (.amoandW (fieldRd w) (fieldRs1 w) (fieldRs2 w) (fieldAq w) (fieldRl w))
    | 0x10#5 => .ok (.amominW (fieldRd w) (fieldRs1 w) (fieldRs2 w) (fieldAq w) (fieldRl w))
    | 0x14#5 => .ok (.amomaxW (fieldRd w) (fieldRs1 w) (fieldRs2 w) (fieldAq w) (fieldRl w))
    | 0x18#5 => .ok (.amominuW (fieldRd w) (fieldRs1 w) (fieldRs2 w) (fieldAq w) (fieldRl w))
    | 0x1C#5 => .ok (.amomaxuW (fieldRd w) (fieldRs1 w) (fieldRs2 w) (fieldAq w) (fieldRl w))
    | _ => .error .atomicFunct
  else .error .atomicFunct

/-- Opcode `0x0F` (R240 to R242): every other field is ignored and unchecked. -/
def decodeMiscMem (w : Word) : Except DecodeReject Instr :=
  match funct3 w with
  | 0#3 => .ok (.fence (fieldRd w) (fieldRs1 w) (bits w 28 4) (bits w 24 4) (bits w 20 4))
  | 1#3 => .ok (.fenceI (fieldRd w) (fieldRs1 w) (funct12 w))
  | _ => .error .miscMemFunct3

/-- The twelve arms of R60 and R63, every other opcode refused (R66 item 1). -/
def decodeFields (w : Word) : Except DecodeReject Instr :=
  match opcode w with
  | 0x13#7 => decodeOpImm w
  | 0x33#7 => decodeOp w
  | 0x03#7 => decodeLoad w
  | 0x23#7 => decodeStore w
  | 0x63#7 => decodeBranch w
  | 0x37#7 => .ok (.lui (fieldRd w) (fieldImmU w))
  | 0x17#7 => .ok (.auipc (fieldRd w) (fieldImmU w))
  | 0x6F#7 => .ok (.jal (fieldRd w) (fieldImmJ w))
  | 0x67#7 => decodeJalr w
  | 0x73#7 => decodeSystem w
  | 0x2F#7 => decodeAtomic w
  | 0x0F#7 => decodeMiscMem w
  | _ => .error .unknownOpcode

/-- The decoder under `STRICT_RESERVED_FIELDS = strict` (R73): a function of the word alone (R63). -/
def decode (strict : Bool) (w : Word) : Except DecodeReject Instr :=
  match decodeFields w with
  | .ok i => if strict && !i.reservedZero then .error .reservedField else .ok i
  | .error r => .error r

/-! ## Bytes (R35: little-endian, the byte at the lowest address is bits 7:0) -/

/-- Place a field `v` at bit `lo` of a word, zeros elsewhere. -/
def put {n : Nat} (lo : Nat) (v : BitVec n) : Word := v.setWidth 32 <<< lo

/-- The word whose bytes, lowest address first, are `b0 b1 b2 b3` (R33). -/
def wordOfBytes (b0 b1 b2 b3 : Byte) : Word := put 24 b3 ||| put 16 b2 ||| put 8 b1 ||| put 0 b0

/-- The bytes of a word, lowest address first (R34). -/
def bytesOfWord (w : Word) : List Byte := [bits w 0 8, bits w 8 8, bits w 16 8, bits w 24 8]

/-- The decoder on bytes: the instruction and the bytes after it, or the reason there is none. -/
def decodeBytes (strict : Bool) : List Byte → Except DecodeReject (Instr × List Byte)
  | b0 :: b1 :: b2 :: b3 :: rest =>
    match decode strict (wordOfBytes b0 b1 b2 b3) with
    | .ok i => .ok (i, rest)
    | .error r => .error r
  | _ => .error .truncated

/-- The instruction the decoder reads from an opcode-table word of `nbits` bits, at the default parameters: the
word's bytes, as the hardware stores them, given to `decodeBytes`. -/
def decodeTableWord (nbits w : Nat) : Option Instr :=
  match decodeBytes Config.default.strictReservedFields (bytesOfWord (BitVec.ofNat 32 (w % 2 ^ nbits))) with
  | .ok (i, _) => some i
  | .error _ => none

/-! ## The encoder, from the formats of R61 -/

/-- R format: `funct7 rs2 rs1 funct3 rd opcode`. -/
def encodeR (f7 : BitVec 7) (rs2 rs1 : RegIdx) (f3 : BitVec 3) (rd : RegIdx) (op : BitVec 7) : Word :=
  put 25 f7 ||| put 20 rs2 ||| put 15 rs1 ||| put 12 f3 ||| put 7 rd ||| put 0 op

/-- I format: `imm[11:0] rs1 funct3 rd opcode`. -/
def encodeI (imm : BitVec 12) (rs1 : RegIdx) (f3 : BitVec 3) (rd : RegIdx) (op : BitVec 7) : Word :=
  put 20 imm ||| put 15 rs1 ||| put 12 f3 ||| put 7 rd ||| put 0 op

/-- S format: `imm[11:5] rs2 rs1 funct3 imm[4:0] opcode`. -/
def encodeS (imm : BitVec 12) (rs2 rs1 : RegIdx) (f3 : BitVec 3) (op : BitVec 7) : Word :=
  put 25 (imm.extractLsb' 5 7) ||| put 20 rs2 ||| put 15 rs1 ||| put 12 f3 ||| put 7 (imm.extractLsb' 0 5) |||
    put 0 op

/-- B format: `imm[12] imm[10:5] rs2 rs1 funct3 imm[4:1] imm[11] opcode`. -/
def encodeB (imm : BitVec 13) (rs2 rs1 : RegIdx) (f3 : BitVec 3) (op : BitVec 7) : Word :=
  put 31 (imm.extractLsb' 12 1) ||| put 25 (imm.extractLsb' 5 6) ||| put 20 rs2 ||| put 15 rs1 ||| put 12 f3 |||
    put 8 (imm.extractLsb' 1 4) ||| put 7 (imm.extractLsb' 11 1) ||| put 0 op

/-- U format: `imm[31:12] rd opcode`. -/
def encodeU (imm : BitVec 20) (rd : RegIdx) (op : BitVec 7) : Word :=
  put 12 imm ||| put 7 rd ||| put 0 op

/-- J format: `imm[20] imm[10:1] imm[11] imm[19:12] rd opcode`. -/
def encodeJ (imm : BitVec 21) (rd : RegIdx) (op : BitVec 7) : Word :=
  put 31 (imm.extractLsb' 20 1) ||| put 21 (imm.extractLsb' 1 10) ||| put 20 (imm.extractLsb' 11 1) |||
    put 12 (imm.extractLsb' 12 8) ||| put 7 rd ||| put 0 op

/-- Atomic (A) format: `funct5 aq rl rs2 rs1 funct3 rd opcode`, opcode `0x2F`, funct3 = 2 (R220). -/
def encodeA (f5 : BitVec 5) (aq rl : BitVec 1) (rs2 rs1 rd : RegIdx) : Word :=
  put 27 f5 ||| put 26 aq ||| put 25 rl ||| put 20 rs2 ||| put 15 rs1 ||| put 12 2#3 ||| put 7 rd ||| put 0 0x2F#7

/-- SRAI: I format with `inst[30]` = 1, its unchecked bits `{inst[31], inst[29:25]}` and `shamt` (R109). -/
def encodeSrai (u : BitVec 6) (shamt : BitVec 5) (rs1 rd : RegIdx) : Word :=
  put 31 (u.extractLsb' 5 1) ||| put 30 1#1 ||| put 25 (u.extractLsb' 0 5) ||| put 20 shamt ||| put 15 rs1 |||
    put 12 5#3 ||| put 7 rd ||| put 0 0x13#7

/-- FENCE: `fm pred succ rs1 funct3 rd opcode` (R240). -/
def encodeFence (fm pred succ : BitVec 4) (rs1 rd : RegIdx) : Word :=
  put 28 fm ||| put 24 pred ||| put 20 succ ||| put 15 rs1 ||| put 12 0#3 ||| put 7 rd ||| put 0 0x0F#7

/-- The word of an instruction. -/
def encode : Instr → Word
  | .addi rd rs1 imm => encodeI imm rs1 0#3 rd 0x13#7
  | .slti rd rs1 imm => encodeI imm rs1 2#3 rd 0x13#7
  | .sltiu rd rs1 imm => encodeI imm rs1 3#3 rd 0x13#7
  | .xori rd rs1 imm => encodeI imm rs1 4#3 rd 0x13#7
  | .ori rd rs1 imm => encodeI imm rs1 6#3 rd 0x13#7
  | .andi rd rs1 imm => encodeI imm rs1 7#3 rd 0x13#7
  | .slli rd rs1 shamt => encodeR 0x00#7 shamt rs1 1#3 rd 0x13#7
  | .srli rd rs1 shamt => encodeR 0x00#7 shamt rs1 5#3 rd 0x13#7
  | .srai rd rs1 shamt u => encodeSrai u shamt rs1 rd
  | .add rd rs1 rs2 => encodeR 0x00#7 rs2 rs1 0#3 rd 0x33#7
  | .sub rd rs1 rs2 => encodeR 0x20#7 rs2 rs1 0#3 rd 0x33#7
  | .sll rd rs1 rs2 => encodeR 0x00#7 rs2 rs1 1#3 rd 0x33#7
  | .slt rd rs1 rs2 => encodeR 0x00#7 rs2 rs1 2#3 rd 0x33#7
  | .sltu rd rs1 rs2 => encodeR 0x00#7 rs2 rs1 3#3 rd 0x33#7
  | .xor rd rs1 rs2 => encodeR 0x00#7 rs2 rs1 4#3 rd 0x33#7
  | .srl rd rs1 rs2 => encodeR 0x00#7 rs2 rs1 5#3 rd 0x33#7
  | .sra rd rs1 rs2 => encodeR 0x20#7 rs2 rs1 5#3 rd 0x33#7
  | .or rd rs1 rs2 => encodeR 0x00#7 rs2 rs1 6#3 rd 0x33#7
  | .and rd rs1 rs2 => encodeR 0x00#7 rs2 rs1 7#3 rd 0x33#7
  | .mul rd rs1 rs2 => encodeR 0x01#7 rs2 rs1 0#3 rd 0x33#7
  | .mulh rd rs1 rs2 => encodeR 0x01#7 rs2 rs1 1#3 rd 0x33#7
  | .mulhsu rd rs1 rs2 => encodeR 0x01#7 rs2 rs1 2#3 rd 0x33#7
  | .mulhu rd rs1 rs2 => encodeR 0x01#7 rs2 rs1 3#3 rd 0x33#7
  | .div rd rs1 rs2 => encodeR 0x01#7 rs2 rs1 4#3 rd 0x33#7
  | .divu rd rs1 rs2 => encodeR 0x01#7 rs2 rs1 5#3 rd 0x33#7
  | .rem rd rs1 rs2 => encodeR 0x01#7 rs2 rs1 6#3 rd 0x33#7
  | .remu rd rs1 rs2 => encodeR 0x01#7 rs2 rs1 7#3 rd 0x33#7
  | .lb rd rs1 imm => encodeI imm rs1 0#3 rd 0x03#7
  | .lh rd rs1 imm => encodeI imm rs1 1#3 rd 0x03#7
  | .lw rd rs1 imm => encodeI imm rs1 2#3 rd 0x03#7
  | .lbu rd rs1 imm => encodeI imm rs1 4#3 rd 0x03#7
  | .lhu rd rs1 imm => encodeI imm rs1 5#3 rd 0x03#7
  | .sb rs1 rs2 imm => encodeS imm rs2 rs1 0#3 0x23#7
  | .sh rs1 rs2 imm => encodeS imm rs2 rs1 1#3 0x23#7
  | .sw rs1 rs2 imm => encodeS imm rs2 rs1 2#3 0x23#7
  | .beq rs1 rs2 o => encodeB o rs2 rs1 0#3 0x63#7
  | .bne rs1 rs2 o => encodeB o rs2 rs1 1#3 0x63#7
  | .blt rs1 rs2 o => encodeB o rs2 rs1 4#3 0x63#7
  | .bge rs1 rs2 o => encodeB o rs2 rs1 5#3 0x63#7
  | .bltu rs1 rs2 o => encodeB o rs2 rs1 6#3 0x63#7
  | .bgeu rs1 rs2 o => encodeB o rs2 rs1 7#3 0x63#7
  | .lui rd imm => encodeU imm rd 0x37#7
  | .auipc rd imm => encodeU imm rd 0x17#7
  | .jal rd o => encodeJ o rd 0x6F#7
  | .jalr rd rs1 imm => encodeI imm rs1 0#3 rd 0x67#7
  | .ecall rd rs1 => encodeI 0x000#12 rs1 0#3 rd 0x73#7
  | .ebreak rd rs1 => encodeI 0x001#12 rs1 0#3 rd 0x73#7
  | .mret rd rs1 => encodeI 0x302#12 rs1 0#3 rd 0x73#7
  | .csrrw rd rs1 csr => encodeI csr rs1 1#3 rd 0x73#7
  | .csrrs rd rs1 csr => encodeI csr rs1 2#3 rd 0x73#7
  | .csrrc rd rs1 csr => encodeI csr rs1 3#3 rd 0x73#7
  | .csrrwi rd uimm csr => encodeI csr uimm 5#3 rd 0x73#7
  | .csrrsi rd uimm csr => encodeI csr uimm 6#3 rd 0x73#7
  | .csrrci rd uimm csr => encodeI csr uimm 7#3 rd 0x73#7
  | .lrW rd rs1 rs2 aq rl => encodeA 0x02#5 aq rl rs2 rs1 rd
  | .scW rd rs1 rs2 aq rl => encodeA 0x03#5 aq rl rs2 rs1 rd
  | .amoswapW rd rs1 rs2 aq rl => encodeA 0x01#5 aq rl rs2 rs1 rd
  | .amoaddW rd rs1 rs2 aq rl => encodeA 0x00#5 aq rl rs2 rs1 rd
  | .amoxorW rd rs1 rs2 aq rl => encodeA 0x04#5 aq rl rs2 rs1 rd
  | .amoandW rd rs1 rs2 aq rl => encodeA 0x0C#5 aq rl rs2 rs1 rd
  | .amoorW rd rs1 rs2 aq rl => encodeA 0x08#5 aq rl rs2 rs1 rd
  | .amominW rd rs1 rs2 aq rl => encodeA 0x10#5 aq rl rs2 rs1 rd
  | .amomaxW rd rs1 rs2 aq rl => encodeA 0x14#5 aq rl rs2 rs1 rd
  | .amominuW rd rs1 rs2 aq rl => encodeA 0x18#5 aq rl rs2 rs1 rd
  | .amomaxuW rd rs1 rs2 aq rl => encodeA 0x1C#5 aq rl rs2 rs1 rd
  | .fence rd rs1 fm pred succ => encodeFence fm pred succ rs1 rd
  | .fenceI rd rs1 imm => encodeI imm rs1 1#3 rd 0x0F#7

/-- The instruction's bytes as they lie in memory, lowest address first. -/
def encodeBytes (i : Instr) : List Byte := bytesOfWord (encode i)

/-! ## The opcode table as data -/

/-- A row of spec/opcode_table.json: its mnemonic, `match`, `mask`, and the mask that applies when
`STRICT_RESERVED_FIELDS = true` (its `strict_mask` where it has one). -/
structure TableRow where
  mnemonic : String
  pattern : Word
  mask : Word
  strictMask : Word
  deriving DecidableEq, Repr

/-- The mask in force (R73). -/
def TableRow.maskFor (r : TableRow) (strict : Bool) : Word := if strict then r.strictMask else r.mask

/-- The word matches the row. -/
abbrev TableRow.fits (r : TableRow) (strict : Bool) (w : Word) : Prop := w &&& r.maskFor strict = r.pattern

/-- Rows of spec/opcode_table.json with opcode 0x13. -/
def opcodeRowsImm : List TableRow :=
  [⟨"ADDI", 0x00000013#32, 0x0000707F#32, 0x0000707F#32⟩,
   ⟨"SLTI", 0x00002013#32, 0x0000707F#32, 0x0000707F#32⟩,
   ⟨"SLTIU", 0x00003013#32, 0x0000707F#32, 0x0000707F#32⟩,
   ⟨"XORI", 0x00004013#32, 0x0000707F#32, 0x0000707F#32⟩,
   ⟨"ORI", 0x00006013#32, 0x0000707F#32, 0x0000707F#32⟩,
   ⟨"ANDI", 0x00007013#32, 0x0000707F#32, 0x0000707F#32⟩,
   ⟨"SLLI", 0x00001013#32, 0xFE00707F#32, 0xFE00707F#32⟩,
   ⟨"SRLI", 0x00005013#32, 0xFE00707F#32, 0xFE00707F#32⟩,
   ⟨"SRAI", 0x40005013#32, 0x4000707F#32, 0xFE00707F#32⟩]

/-- Rows of spec/opcode_table.json with opcode 0x33. -/
def opcodeRowsReg : List TableRow :=
  [⟨"ADD", 0x00000033#32, 0xFE00707F#32, 0xFE00707F#32⟩,
   ⟨"SUB", 0x40000033#32, 0xFE00707F#32, 0xFE00707F#32⟩,
   ⟨"SLL", 0x00001033#32, 0xFE00707F#32, 0xFE00707F#32⟩,
   ⟨"SLT", 0x00002033#32, 0xFE00707F#32, 0xFE00707F#32⟩,
   ⟨"SLTU", 0x00003033#32, 0xFE00707F#32, 0xFE00707F#32⟩,
   ⟨"XOR", 0x00004033#32, 0xFE00707F#32, 0xFE00707F#32⟩,
   ⟨"SRL", 0x00005033#32, 0xFE00707F#32, 0xFE00707F#32⟩,
   ⟨"SRA", 0x40005033#32, 0xFE00707F#32, 0xFE00707F#32⟩,
   ⟨"OR", 0x00006033#32, 0xFE00707F#32, 0xFE00707F#32⟩,
   ⟨"AND", 0x00007033#32, 0xFE00707F#32, 0xFE00707F#32⟩,
   ⟨"MUL", 0x02000033#32, 0xFE00707F#32, 0xFE00707F#32⟩,
   ⟨"MULH", 0x02001033#32, 0xFE00707F#32, 0xFE00707F#32⟩,
   ⟨"MULHSU", 0x02002033#32, 0xFE00707F#32, 0xFE00707F#32⟩,
   ⟨"MULHU", 0x02003033#32, 0xFE00707F#32, 0xFE00707F#32⟩,
   ⟨"DIV", 0x02004033#32, 0xFE00707F#32, 0xFE00707F#32⟩,
   ⟨"DIVU", 0x02005033#32, 0xFE00707F#32, 0xFE00707F#32⟩,
   ⟨"REM", 0x02006033#32, 0xFE00707F#32, 0xFE00707F#32⟩,
   ⟨"REMU", 0x02007033#32, 0xFE00707F#32, 0xFE00707F#32⟩]

/-- Rows of spec/opcode_table.json with opcode 0x03, 0x23. -/
def opcodeRowsMem : List TableRow :=
  [⟨"LB", 0x00000003#32, 0x0000707F#32, 0x0000707F#32⟩,
   ⟨"LH", 0x00001003#32, 0x0000707F#32, 0x0000707F#32⟩,
   ⟨"LW", 0x00002003#32, 0x0000707F#32, 0x0000707F#32⟩,
   ⟨"LBU", 0x00004003#32, 0x0000707F#32, 0x0000707F#32⟩,
   ⟨"LHU", 0x00005003#32, 0x0000707F#32, 0x0000707F#32⟩,
   ⟨"SB", 0x00000023#32, 0x0000707F#32, 0x0000707F#32⟩,
   ⟨"SH", 0x00001023#32, 0x0000707F#32, 0x0000707F#32⟩,
   ⟨"SW", 0x00002023#32, 0x0000707F#32, 0x0000707F#32⟩]

/-- Rows of spec/opcode_table.json with opcode 0x63, 0x37, 0x17, 0x6F, 0x67. -/
def opcodeRowsFlow : List TableRow :=
  [⟨"BEQ", 0x00000063#32, 0x0000707F#32, 0x0000707F#32⟩,
   ⟨"BNE", 0x00001063#32, 0x0000707F#32, 0x0000707F#32⟩,
   ⟨"BLT", 0x00004063#32, 0x0000707F#32, 0x0000707F#32⟩,
   ⟨"BGE", 0x00005063#32, 0x0000707F#32, 0x0000707F#32⟩,
   ⟨"BLTU", 0x00006063#32, 0x0000707F#32, 0x0000707F#32⟩,
   ⟨"BGEU", 0x00007063#32, 0x0000707F#32, 0x0000707F#32⟩,
   ⟨"LUI", 0x00000037#32, 0x0000007F#32, 0x0000007F#32⟩,
   ⟨"AUIPC", 0x00000017#32, 0x0000007F#32, 0x0000007F#32⟩,
   ⟨"JAL", 0x0000006F#32, 0x0000007F#32, 0x0000007F#32⟩,
   ⟨"JALR", 0x00000067#32, 0x0000707F#32, 0x0000707F#32⟩]

/-- Rows of spec/opcode_table.json with opcode 0x73. -/
def opcodeRowsSystem : List TableRow :=
  [⟨"ECALL", 0x00000073#32, 0xFFF0707F#32, 0xFFFFFFFF#32⟩,
   ⟨"EBREAK", 0x00100073#32, 0xFFF0707F#32, 0xFFFFFFFF#32⟩,
   ⟨"MRET", 0x30200073#32, 0xFFF0707F#32, 0xFFFFFFFF#32⟩,
   ⟨"CSRRW", 0x00001073#32, 0x0000707F#32, 0x0000707F#32⟩,
   ⟨"CSRRS", 0x00002073#32, 0x0000707F#32, 0x0000707F#32⟩,
   ⟨"CSRRC", 0x00003073#32, 0x0000707F#32, 0x0000707F#32⟩,
   ⟨"CSRRWI", 0x00005073#32, 0x0000707F#32, 0x0000707F#32⟩,
   ⟨"CSRRSI", 0x00006073#32, 0x0000707F#32, 0x0000707F#32⟩,
   ⟨"CSRRCI", 0x00007073#32, 0x0000707F#32, 0x0000707F#32⟩]

/-- Rows of spec/opcode_table.json with opcode 0x2F, 0x0F. -/
def opcodeRowsAtomic : List TableRow :=
  [⟨"LR.W", 0x1000202F#32, 0xF800707F#32, 0xF9F0707F#32⟩,
   ⟨"SC.W", 0x1800202F#32, 0xF800707F#32, 0xF800707F#32⟩,
   ⟨"AMOSWAP.W", 0x0800202F#32, 0xF800707F#32, 0xF800707F#32⟩,
   ⟨"AMOADD.W", 0x0000202F#32, 0xF800707F#32, 0xF800707F#32⟩,
   ⟨"AMOXOR.W", 0x2000202F#32, 0xF800707F#32, 0xF800707F#32⟩,
   ⟨"AMOAND.W", 0x6000202F#32, 0xF800707F#32, 0xF800707F#32⟩,
   ⟨"AMOOR.W", 0x4000202F#32, 0xF800707F#32, 0xF800707F#32⟩,
   ⟨"AMOMIN.W", 0x8000202F#32, 0xF800707F#32, 0xF800707F#32⟩,
   ⟨"AMOMAX.W", 0xA000202F#32, 0xF800707F#32, 0xF800707F#32⟩,
   ⟨"AMOMINU.W", 0xC000202F#32, 0xF800707F#32, 0xF800707F#32⟩,
   ⟨"AMOMAXU.W", 0xE000202F#32, 0xF800707F#32, 0xF800707F#32⟩,
   ⟨"FENCE", 0x0000000F#32, 0x0000707F#32, 0x0000707F#32⟩,
   ⟨"FENCE.I", 0x0000100F#32, 0x0000707F#32, 0x0000707F#32⟩]

/-- The whole table: 67 rows, pairwise disjoint (R63). -/
def opcodeTable : List TableRow :=
  opcodeRowsImm ++ opcodeRowsReg ++ opcodeRowsMem ++ opcodeRowsFlow ++ opcodeRowsSystem ++ opcodeRowsAtomic

end Sys2Proof
end

