-- ==== Sys2Proof/Machine/Fetch.lean ====
section
/-! DEFINITION. Fetching one instruction word (spec/30_encoding.md R60) and decoding it for the machine. -/

namespace Sys2Proof.Machine

/-- The fetch-alignment check: `pc[1:0] = 0`, under either alignment policy (R60, D4). -/
def fetchAligned (s : State) : Bool := decide (s.pc.toNat % 4 = 0)

/-- The fetch of R60: the alignment check, then `BusRead(pc, 4)`, which may go to a device (D5). The word comes with
the state after the access. -/
def fetch (s : State) : Except Fault (Word × State) :=
  if fetchAligned s then busRead s s.pc .word else .error .memoryAccessError

/-- The decode of a fetched word: every refused word raises `UnsupportedInstruction` (R66, R251). -/
def decodeFetched (s : State) (w : Word) : Except Fault Instr :=
  match decode s.cfg.strictReservedFields w with
  | .ok i => .ok i
  | .error _ => .error .unsupportedInstruction

/-- The state when a step that began in `s` has stopped: unchanged, but for the one device read that a fetch from a
device's range has already made (R250). -/
def stoppedState (s : State) : State :=
  match fetch s with
  | .ok (_, s1) => s1
  | .error _ => s

end Sys2Proof.Machine
end

