-- ==== Sys2Proof/Machine/Step.lean ====
section
/-! DEFINITION. One step (spec/30_encoding.md R60) and its three outcomes (spec/60_exceptions.md R250), with the run
controller's count of R262; and placing an instruction where the next step fetches it. -/

namespace Sys2Proof.Machine

/-- `Step()` of R60: fetch, decode, execute. The first check that fails is the event reported (R257). -/
def engineStep (s : State) : Result :=
  match fetch s with
  | .error f => raise f
  | .ok (w, s1) =>
    match decodeFetched s1 w with
    | .error f => raise f
    | .ok i => exec i s1

/-- One step of the machine: `Step()`, and the run controller's `count` one higher if it continued (R262, R263). -/
def step (s : State) : Host.Outcome State Fault Refusal := countStep (engineStep s)

/-- The state with the instruction whose bits are `w` (the lowest `nbits` of them, zeros above) placed where `step`
fetches next: in main memory at `pc`, as the loader would (R39), or, where a device owns `pc`, as the word that
device returns next. A `pc` that is not a multiple of 4 could never be fetched from and is rounded down. -/
def State.withFetchWord (s : State) (nbits w : Nat) : State :=
  let word : Word := BitVec.ofNat 32 (w % 2 ^ nbits)
  let t : State := setPc s (s.pc &&& 0xFFFFFFFC#32)
  match owner t.cfg t.pc with
  | some _ => { t with devIn := word :: t.devIn }
  | none =>
    match memWrite t t.pc .word word with
    | .ok t1 => t1
    | .error _ => t

end Sys2Proof.Machine
end

