-- ==== Sys2Proof/Machine/Pseudo.lean ====
section
/-! DEFINITION. The assembler's side of the instruction set: register and CSR names (spec/10_state.md R10, R16) and the
pseudo-instructions of spec/30_encoding.md R78, each "just the listed instruction or pair". The machine knows
nothing of them; all of it is general knowledge the spec adopts (G5, G7, G8; log entry 18). -/

namespace Sys2Proof.Machine

/-- The ISA string a model may print (R1, D25). -/
def isaString : String := "RV32IMA_Zicsr_Zifencei"

/-- The ABI names of x0 to x31, in order (spec/10_state.md, table under R26). -/
def abiNames : List String :=
  ["zero", "ra", "sp", "gp", "tp", "t0", "t1", "t2"] ++ ["s0", "s1", "a0", "a1", "a2", "a3", "a4", "a5"] ++
  ["a6", "a7", "s2", "s3", "s4", "s5", "s6", "s7"] ++ ["s8", "s9", "s10", "s11", "t3", "t4", "t5", "t6"]

/-- The fifteen named CSRs and their indices (R16). Each is plain storage like every other index (R17). -/
def namedCsrs : List (String × CsrIdx) :=
  [("mstatus", 0x300), ("mie", 0x304), ("mtvec", 0x305), ("mscratch", 0x340), ("mepc", 0x341), ("mcause", 0x342),
   ("mtval", 0x343), ("mip", 0x344)] ++
  [("cycle", 0xC00), ("time", 0xC01), ("instret", 0xC02), ("mvendorid", 0xF11), ("marchid", 0xF12), ("mimpid", 0xF13),
   ("mhartid", 0xF14)]

/-- The pseudo-instructions of R78. Offsets are the byte offsets added to pc; `delta` of LA is `sym - pc`. -/
inductive Pseudo where
  | nop
  | li (rd : RegIdx) (imm : Word)
  | mv (rd rs : RegIdx)
  | not (rd rs : RegIdx)
  | neg (rd rs : RegIdx)
  | seqz (rd rs : RegIdx)
  | snez (rd rs : RegIdx)
  | sltz (rd rs : RegIdx)
  | sgtz (rd rs : RegIdx)
  | beqz (rs : RegIdx) (off : BitVec 13)
  | bnez (rs : RegIdx) (off : BitVec 13)
  | blez (rs : RegIdx) (off : BitVec 13)
  | bgez (rs : RegIdx) (off : BitVec 13)
  | bltz (rs : RegIdx) (off : BitVec 13)
  | bgtz (rs : RegIdx) (off : BitVec 13)
  | bgt (rs rt : RegIdx) (off : BitVec 13)
  | ble (rs rt : RegIdx) (off : BitVec 13)
  | bgtu (rs rt : RegIdx) (off : BitVec 13)
  | bleu (rs rt : RegIdx) (off : BitVec 13)
  | j (off : BitVec 21)
  | jalLink (off : BitVec 21)
  | jr (rs : RegIdx)
  | jalrLink (rs : RegIdx)
  | ret
  | call (off : Word)
  | tail (off : Word)
  | la (rd : RegIdx) (delta : Word)
  | csrr (rd : RegIdx) (csr : CsrIdx)
  | csrw (csr : CsrIdx) (rs : RegIdx)
  | csrs (csr : CsrIdx) (rs : RegIdx)
  | csrc (csr : CsrIdx) (rs : RegIdx)
  | csrwi (csr : CsrIdx) (uimm : BitVec 5)
  | csrsi (csr : CsrIdx) (uimm : BitVec 5)
  | csrci (csr : CsrIdx) (uimm : BitVec 5)
  | rdcycle (rd : RegIdx)
  | rdtime (rd : RegIdx)
  | rdinstret (rd : RegIdx)
  | fenceAll
  deriving DecidableEq, Repr

/-- `(v + 0x800)[31:12]`: the upper part of a constant whose lower part is added sign-extended. -/
def upperPart (v : Word) : BitVec 20 := (v + 0x800#32).extractLsb' 12 20

/-- `v[11:0]`. -/
def lowerPart (v : Word) : BitVec 12 := v.extractLsb' 0 12

/-- The constant fits the signed 12-bit immediate of ADDI: it is in [-2048, 2047]. -/
def fitsImm12 (v : Word) : Bool := decide (-2048 ≤ v.toInt) && decide (v.toInt ≤ 2047)

/-- The expansions of R78. -/
def Pseudo.expand : Pseudo → List Instr
  | .nop => [.addi 0 0 0]
  | .li rd v =>
    if fitsImm12 v then [.addi rd 0 (lowerPart v)]
    else if lowerPart v = 0#12 then [.lui rd (upperPart v)]
    else [.lui rd (upperPart v), .addi rd rd (lowerPart v)]
  | .mv rd rs => [.addi rd rs 0]
  | .not rd rs => [.xori rd rs (-1)]
  | .neg rd rs => [.sub rd 0 rs]
  | .seqz rd rs => [.sltiu rd rs 1]
  | .snez rd rs => [.sltu rd 0 rs]
  | .sltz rd rs => [.slt rd rs 0]
  | .sgtz rd rs => [.slt rd 0 rs]
  | .beqz rs off => [.beq rs 0 off]
  | .bnez rs off => [.bne rs 0 off]
  | .blez rs off => [.bge 0 rs off]
  | .bgez rs off => [.bge rs 0 off]
  | .bltz rs off => [.blt rs 0 off]
  | .bgtz rs off => [.blt 0 rs off]
  | .bgt rs rt off => [.blt rt rs off]
  | .ble rs rt off => [.bge rt rs off]
  | .bgtu rs rt off => [.bltu rt rs off]
  | .bleu rs rt off => [.bgeu rt rs off]
  | .j off => [.jal 0 off]
  | .jalLink off => [.jal 1 off]
  | .jr rs => [.jalr 0 rs 0]
  | .jalrLink rs => [.jalr 1 rs 0]
  | .ret => [.jalr 0 1 0]
  | .call off => [.auipc 1 (upperPart off), .jalr 1 1 (lowerPart off)]
  | .tail off => [.auipc 6 (upperPart off), .jalr 0 6 (lowerPart off)]
  | .la rd delta => [.auipc rd (upperPart delta), .addi rd rd (lowerPart delta)]
  | .csrr rd csr => [.csrrs rd 0 csr]
  | .csrw csr rs => [.csrrw 0 rs csr]
  | .csrs csr rs => [.csrrs 0 rs csr]
  | .csrc csr rs => [.csrrc 0 rs csr]
  | .csrwi csr uimm => [.csrrwi 0 uimm csr]
  | .csrsi csr uimm => [.csrrsi 0 uimm csr]
  | .csrci csr uimm => [.csrrci 0 uimm csr]
  | .rdcycle rd => [.csrrs rd 0 0xC00]
  | .rdtime rd => [.csrrs rd 0 0xC01]
  | .rdinstret rd => [.csrrs rd 0 0xC02]
  | .fenceAll => [.fence 0 0 0 0xF 0xF]

/-- The instructions of a list, one after another, from a state; the first event ends it. -/
def execAll : List Instr → State → Result
  | [], s => .next s
  | i :: is, s =>
    match exec i s with
    | .next t => execAll is t
    | .fault f => .fault f
    | .refused r => .refused r

end Sys2Proof.Machine
end

