-- ==== Sys2Proof/Machine/Loader.lean ====
section
/-! DEFINITION. The loader port and the reset state for every choice of the open parameters (spec/20_memory.md R39,
spec/70_reset_and_hazards.md R280 to R286). -/

namespace Sys2Proof.Machine

/-- Why there is no machine to run (U17, R282). -/
inductive BootError where
  /-- The dense store or a device range ends beyond the address space (R32, R40). -/
  | badConfiguration
  /-- A segment with `address + length > 2^32` (R282, D7). -/
  | segmentPastTop
  /-- `loadSegment` met a byte outside the dense store (R282). -/
  | memoryAccessError
  deriving DecidableEq, Repr

/-- A loader segment: an address and the bytes from there on (R282). -/
abbrev Segment := Word × List Byte

/-- The bytes of a segment written one after another from `a` on by the byte-write rule of the backing (R39). -/
def loadBytes (c : Config) (a : Nat) : List Byte → Memory → Except BootError Memory
  | [], m => .ok m
  | b :: bs, m =>
    if inBacking c a 1 then loadBytes c (a + 1) bs (Memory.write c a b m) else .error .memoryAccessError

/-- `loadSegment(addr, bytes)` (R39, R282): straight to main memory, the bus multiplexer is not consulted. -/
def loadSegment (c : Config) (seg : Segment) (m : Memory) : Except BootError Memory :=
  if seg.1.toNat + seg.2.length ≤ Config.addressSpace then loadBytes c seg.1.toNat seg.2 m
  else .error .segmentPastTop

/-- The segments in sequence order: a later one overwrites an earlier one where they overlap (R282). -/
def loadSegments (c : Config) : List Segment → Memory → Except BootError Memory
  | [], m => .ok m
  | seg :: segs, m =>
    match loadSegment c seg m with
    | .ok m1 => loadSegments c segs m1
    | .error e => .error e

/-- The reset state of R285 for the parameters `c`, `ENTRY_POINT` = `entry` and `SEGMENTS` = `segs`, with `inputs`
the words the devices will return; or the reason there is no machine. -/
def boot (c : Config) (entry : Word) (segs : List Segment) (inputs : List Word) : Except BootError State :=
  if Config.wf c then
    match loadSegments c segs [] with
    | .ok m => .ok { regs := Vector.replicate 31 0#32, pc := entry, csrs := [], mem := m, count := 0, cfg := c,
                     devIn := inputs, devLog := [] }
    | .error e => .error e
  else .error .badConfiguration

end Sys2Proof.Machine
end

