-- ==== Sys2Proof/Machine/Run.lean ====
section
/-! DEFINITION. The run controller (spec/60_exceptions.md R262 to R268) and the host's reading of the final registers
(spec/70_reset_and_hazards.md R292). -/

namespace Sys2Proof.Machine

/-- The four stop reasons of R268. -/
inductive StopReason where
  | stopEcall
  | stopLimit
  | stopUnsupported
  | errorMemoryAccess
  deriving DecidableEq, Repr

/-- How a stop reaches the caller (R268). -/
inductive Surfaced where
  | cleanReturn
  | reportedReturn
  | errorToCaller
  deriving DecidableEq, Repr

/-- The "surfaced as" column of R268: only a `MemoryAccessError` is an error to the caller (R265, R266). -/
def StopReason.surfacedAs : StopReason → Surfaced
  | .stopEcall | .stopLimit => .cleanReturn
  | .stopUnsupported => .reportedReturn
  | .errorMemoryAccess => .errorToCaller

/-- What `Run` returns and the host can read afterwards: the stop reason, and the final state, whose `count` is the
run's return value (R262, R266, R291). -/
structure RunResult where
  stop : StopReason
  final : State
  deriving DecidableEq, Repr

/-- The stop that an event causes (R264 to R266). The ECALL is counted, a faulting step is not (R262). -/
def stopOn (f : Fault) (s : State) : RunResult :=
  match f with
  | .ecallTermination => ⟨.stopEcall, { stoppedState s with count := s.count + 1 }⟩
  | .unsupportedInstruction => ⟨.stopUnsupported, stoppedState s⟩
  | .memoryAccessError => ⟨.errorMemoryAccess, stoppedState s⟩

/-- The loop of R263 with `budget` more instructions before the limit: the limit is tested before each step. (The
`refused` case is a step with no meaning, which no step of this machine is; it would stop like an unsupported
instruction.) -/
def runLoop : Nat → State → RunResult
  | 0, s => ⟨.stopLimit, s⟩
  | budget + 1, s =>
    match step s with
    | .next t => runLoop budget t
    | .fault f => stopOn f s
    | .refused _ => ⟨.stopUnsupported, stoppedState s⟩

/-- `Run(MAX_INSTRUCTIONS)` with the limit present: `count` starts at 0 (R262, R263). -/
def runLimited (maxInstructions : Nat) (s : State) : RunResult := runLoop maxInstructions { s with count := 0 }

/-- The loop with no limit, looked at for `fuel` steps: the result if the run has stopped by then. -/
def unlimitedLoop : Nat → State → Option RunResult
  | 0, _ => none
  | fuel + 1, s =>
    match step s with
    | .next t => unlimitedLoop fuel t
    | .fault f => some (stopOn f s)
    | .refused _ => some ⟨.stopUnsupported, stoppedState s⟩

/-- `Run` with no limit ends with `r` (R263, R267): some number of steps is enough. A run for which this holds of no
`r` runs for ever. -/
def RunsTo (s : State) (r : RunResult) : Prop := ∃ fuel, unlimitedLoop fuel { s with count := 0 } = some r

/-- The host's verdict on a run (R292). -/
inductive Verdict where
  | pass
  | fail (payload : Word)
  | unknown
  deriving DecidableEq, Repr

/-- `Classify(x)` of R292, applied to an ECALL stop only (D27). -/
def classify (r : RunResult) : Verdict :=
  match r.stop with
  | .stopEcall =>
    if readReg r.final 17#5 ≠ 93#32 then .unknown
    else if readReg r.final 3#5 ≠ 1#32 then .fail (readReg r.final 10#5)
    else if readReg r.final 10#5 = 0#32 then .pass
    else .unknown
  | .stopLimit | .stopUnsupported | .errorMemoryAccess => .unknown

end Sys2Proof.Machine
end

