-- ==== Sys2Proof/Safety.lean ====
section
/-! DEFINITION. The words claims are stated in: the canonical form of a state, what two states have in common, where an
access goes, what an instruction's own effect is, and which runs end normally. Each is written from the rules and
not by calling the operation it is about. -/

namespace Sys2Proof.Machine

/-! ## Invariants -/

/-- Main memory and the CSR file are in their canonical form. -/
def State.canonical (s : State) : Bool := Memory.wf s.cfg s.mem && CsrFile.wf s.csrs

/-- Bit 0 of `pc` is 0 (R14). -/
def State.pcEven (s : State) : Bool := !s.pc.getLsbD 0

/-! ## What two states have in common -/

/-- Every register reads the same. -/
def SameRegs (s t : State) : Prop := ∀ r, readReg t r = readReg s r

/-- Every CSR reads the same. -/
def SameCsrs (s t : State) : Prop := ∀ c, readCsr t c = readCsr s c

/-- Every byte of main memory reads the same. -/
def SameBytes (s t : State) : Prop := ∀ a, readByte t a = readByte s a

/-- The peripheral port: no transaction, no input used up. -/
def SamePort (s t : State) : Prop := t.devIn = s.devIn ∧ t.devLog = s.devLog

/-- The parameters and the run controller's counter. -/
def SameRest (s t : State) : Prop := t.cfg = s.cfg ∧ t.count = s.count

/-- Register `rd` takes `v` (nothing if `rd` is x0, which reads 0) and every other register reads as before (R10, R11). -/
def WritesReg (s t : State) (rd : RegIdx) (v : Word) : Prop :=
  readReg t rd = (if rd = 0 then 0 else v) ∧ ∀ r, r ≠ rd → readReg t r = readReg s r

/-- CSR `c` takes `v` and every other CSR reads as before. -/
def WritesCsr (s t : State) (c : CsrIdx) (v : Word) : Prop :=
  readCsr t c = v ∧ ∀ d, d ≠ c → readCsr t d = readCsr s d

/-- The `n` bytes of `v` stand at `a`, little-endian, and every other byte reads as before (R34, R35). -/
def WritesBytes (s t : State) (a : Word) (n : Nat) (v : Word) : Prop :=
  ∀ b : Nat, readByte t b =
    if a.toNat ≤ b ∧ b < a.toNat + n then v.extractLsb' (8 * (b - a.toNat)) 8 else readByte s b

/-! ## What an instruction leaves behind -/

/-- Only `pc` changes, to `pc'`. -/
def PcResult (s t : State) (pc' : Word) : Prop :=
  t.pc = pc' ∧ SameRegs s t ∧ SameCsrs s t ∧ SameBytes s t ∧ SamePort s t ∧ SameRest s t

/-- Only `x[rd]`, to `v`, and `pc`, to `pc'`, change. -/
def RegResult (s t : State) (rd : RegIdx) (v pc' : Word) : Prop :=
  t.pc = pc' ∧ WritesReg s t rd v ∧ SameCsrs s t ∧ SameBytes s t ∧ SamePort s t ∧ SameRest s t

/-- Only `x[rd]`, to `v`, CSR `c`, to `u`, and `pc`, to the next instruction, change. -/
def CsrResult (s t : State) (rd : RegIdx) (v : Word) (c : CsrIdx) (u : Word) : Prop :=
  t.pc = s.pc + 4 ∧ WritesReg s t rd v ∧ WritesCsr s t c u ∧ SameBytes s t ∧ SamePort s t ∧ SameRest s t

/-- Only the `n` bytes at `a`, to `v`, and `pc`, to the next instruction, change. -/
def StoreResult (s t : State) (a : Word) (n : Nat) (v : Word) : Prop :=
  t.pc = s.pc + 4 ∧ WritesBytes s t a n v ∧ SameRegs s t ∧ SameCsrs s t ∧ SamePort s t ∧ SameRest s t

/-- Only `x[rd]`, to `v`, the word at `a`, to `u`, and `pc`, to the next instruction, change. -/
def AtomicResult (s t : State) (rd : RegIdx) (v a u : Word) : Prop :=
  t.pc = s.pc + 4 ∧ WritesReg s t rd v ∧ WritesBytes s t a 4 u ∧ SameCsrs s t ∧ SamePort s t ∧ SameRest s t

/-- The peripheral port after the transactions `l`; each read among them used up one word of the input list. -/
def PortTook (s t : State) (l : List DevAccess) (reads : Nat) : Prop :=
  t.devLog = s.devLog ++ l ∧ t.devIn = s.devIn.drop reads

/-- `v` may be what a device returns now: if the state names a next word, it is that word. -/
def DeviceMayReturn (s : State) (v : Word) : Prop := ∀ u l, s.devIn = u :: l → v = u

/-- Only `x[rd]`, to `v`, `pc`, to the next instruction, and the peripheral port, by `l`, change. -/
def DeviceResult (s t : State) (rd : RegIdx) (v : Word) (l : List DevAccess) (reads : Nat) : Prop :=
  t.pc = s.pc + 4 ∧ WritesReg s t rd v ∧ PortTook s t l reads ∧ SameCsrs s t ∧ SameBytes s t ∧ SameRest s t

/-! ## Where an access goes (R32, R36, R37, R40) -/

/-- The device's range `[base, base + size)` contains the address, in unbounded integers. -/
def InRange (p : Peripheral) (a : Word) : Prop := p.base.toNat ≤ a.toNat ∧ a.toNat < p.base.toNat + p.size

/-- No device owns the address: the access goes to main memory. -/
def Unowned (c : Config) (a : Word) : Prop := ∀ p ∈ c.peripherals, ¬ InRange p a

/-- Entry `k` of the peripheral table, `p`, is the first whose range contains the address. -/
def OwnedBy (c : Config) (a : Word) (k : Nat) (p : Peripheral) : Prop :=
  c.peripherals[k]? = some p ∧ InRange p a ∧ ∀ j q, j < k → c.peripherals[j]? = some q → ¬ InRange q a

/-- Main memory takes an access of `n` bytes at `a`: aligned under the strict policy (R36), its last byte not
beyond `0xFFFF_FFFF` (R37), inside the store on the dense backing (R32). -/
def Accessible (c : Config) (a : Word) (n : Nat) : Prop :=
  (c.alignPolicy = .strict → n ∣ a.toNat) ∧ a.toNat + n ≤ 0x100000000 ∧
    ∀ size, c.memBacking = .dense size → 0x80000000 ≤ a.toNat ∧ a.toNat + n ≤ 0x80000000 + size

/-- The number that `n` bytes from `a` on spell, little-endian (R33, R35). -/
def littleEndian (s : State) (a : Nat) : Nat → Nat
  | 0 => 0
  | n + 1 => (readByte s a).toNat + 256 * littleEndian s (a + 1) n

/-- The word of main memory at `a` (R33). -/
def memWord (s : State) (a : Word) : Word := BitVec.ofNat 32 (littleEndian s a.toNat 4)

/-! ## Encodings -/

/-- The instruction's word fits `pattern` under the default mask, decodes to the instruction, and under
`STRICT_RESERVED_FIELDS` does so exactly when it fits under the strict mask (R66, R73). The words of a branch or JAL
are those of an even offset (R67, R69). -/
def EncodedAs (i : Instr) (pattern mask strictMask : Word) : Prop :=
  encode i &&& mask = pattern ∧
    (i.offsetEven = true →
      decode false (encode i) = .ok i ∧ (decode true (encode i) = .ok i ↔ encode i &&& strictMask = pattern))

/-- What the machine does with a fetched word: the decode, then the instruction (R60). -/
def execWord (w : Word) (s : State) : Result :=
  match decodeFetched s w with
  | .ok i => exec i s
  | .error f => raise f

/-! ## Runs (R264, R268) -/

/-- The run ended by an ECALL: "the only successful end of a program" (R264). -/
def NormalEnd (r : RunResult) : Prop := r.stop = .stopEcall

/-- A step is safe if it continues, or ends the program by an ECALL: it is no fault (R250). -/
def SafeStep (s : State) : Prop := (∃ t, step s = .next t) ∨ step s = .fault .ecallTermination

end Sys2Proof.Machine
end

