-- ==== Sys2Proof/Certificates/Slice0/Obligations.lean ====
section
/-! DEFINITION. The statements for the provers, written from the numbered rules of spec/. -/

open Sys2Proof Sys2Proof.Machine

/-- In State.reset every register 0..31 reads 0, every CSR index reads 0, every byte address of the (sparse,
default) memory reads the fill byte 0xFF, count is 0, and no device transaction has happened. The pc of
State.reset is not part of the statement (it is log entry 1). The empty transaction log is the model's own, log
entry 3. The zero of the CSRs is the decision D17 that the spec marks as its own, log entry 16. (R280, R283,
R31, R282, R284, R285.) -/
def Obligations.ResetStateReadsAsTheSpecSays : Prop :=
  (∀ r, readReg State.reset r = 0) ∧ (∀ c, readCsr State.reset c = 0) ∧
    (∀ a, readByte State.reset a = 0xFF#8) ∧ State.reset.count = 0 ∧ State.reset.devLog = []

/-- For every state, register i, j and value v: after x[i] <- v register j reads v if j = i and i is not x0, and
otherwise what it read before; x0 reads 0 before and after; no other part of the state changes; and after reset
every register reads 0. (R10.) -/
def Obligations.RegisterWriteIsReadBack : Prop :=
  ∀ (s : State) (i j : RegIdx) (v : Word),
    readReg (writeReg s i v) j = (if j = i ∧ i ≠ 0 then v else readReg s j) ∧ readReg (writeReg s i v) 0 = 0 ∧
    readReg s 0 = 0 ∧ (writeReg s i v).pc = s.pc ∧ (writeReg s i v).csrs = s.csrs ∧
    (writeReg s i v).mem = s.mem ∧ (writeReg s i v).count = s.count ∧ (writeReg s i v).cfg = s.cfg ∧
    (writeReg s i v).devIn = s.devIn ∧ (writeReg s i v).devLog = s.devLog ∧ readReg State.reset i = 0

/-- If boot answers a state for configuration c, entry point, segments and device inputs, then its registers and
CSRs read 0, pc is the entry point, count 0, no device transaction has happened, the configuration is c and
well-formed, and every byte of main memory is the byte of the LAST segment that covers it, or the fill byte
(0xFF sparse, 0x00 dense) where none does. The device input list is the model's own field (log entry 3). That
the last segment wins is the decision D30 (log entry 29), the zero of a dense store D2 (log entry 8) and the
zero of the CSRs D17 (log entry 16), which the spec marks as its own. (R280, R281, R282, R283, R284, R285, R39.) -/
def Obligations.BootLeavesTheResetState : Prop :=
  ∀ (c : Config) (entry : Word) (segs : List Segment) (inputs : List Word) (s : State),
    boot c entry segs inputs = .ok s →
      (∀ r, readReg s r = 0) ∧ s.pc = entry ∧ (∀ d, readCsr s d = 0) ∧ s.count = 0 ∧ s.cfg = c ∧
      Config.wf c = true ∧ s.devIn = inputs ∧ s.devLog = [] ∧
      (∀ (pre post : List Segment) (seg : Segment) (k : Nat), segs = pre ++ seg :: post →
        ∀ hk : k < seg.2.length,
          (∀ q ∈ post, ¬ (q.1.toNat ≤ seg.1.toNat + k ∧ seg.1.toNat + k < q.1.toNat + q.2.length)) →
            readByte s (seg.1.toNat + k) = seg.2[k]) ∧
      (∀ a, (∀ q ∈ segs, ¬ (q.1.toNat ≤ a ∧ a < q.1.toNat + q.2.length)) →
        readByte s a = (if c.memBacking = .sparse then 0xFF#8 else 0x00#8))

/-- boot answers a state exactly when the dense store and every device range end inside the address space, every
segment satisfies address + length <= 2^32, and, on the dense backing, every segment byte lies in [MEM_BASE,
MEM_BASE + MEM_SIZE); otherwise no machine is constructed. That an illegal platform gives no machine is log
entry 23; that a segment does not run past 2^32 is the decision D7 (log entry 12) and that a device range does
not D10, which the spec marks as its own. (R32, R40, R282, U17.) -/
def Obligations.BootAnswersExactlyForLegalPlatforms : Prop :=
  ∀ (c : Config) (entry : Word) (segs : List Segment) (inputs : List Word),
    (∃ s, boot c entry segs inputs = .ok s) ↔
      (∀ size, c.memBacking = .dense size → 0x80000000 + size ≤ 0x100000000) ∧
      (∀ p ∈ c.peripherals, p.base.toNat + p.size ≤ 0x100000000) ∧
      (∀ q ∈ segs, q.1.toNat + q.2.length ≤ 0x100000000 ∧
        ∀ size, c.memBacking = .dense size → ∀ k < q.2.length,
          0x80000000 ≤ q.1.toNat + k ∧ q.1.toNat + k < 0x80000000 + size)

/-- For every canonical state, address, width and value: MemWrite succeeds exactly when the access is aligned
(strict policy), does not run past 2^32 - 1 and lies in the backing, and raises MemoryAccessError otherwise;
when it succeeds the n bytes of v stand at addr little-endian, every other byte and the rest of the state is
unchanged, and MemRead at the same address and width gives the low 8n bits of v. MemRead succeeds under the same
condition, gives the n bytes little-endian, and raises MemoryAccessError otherwise. The stop past the top, the
stop of a misaligned halfword, the zero of a dense store and the unwritten bytes of a faulting store are the
decisions D7, D3, D2 and D13 that the spec marks as its own, log entries 12, 9, 8 and 6. (R33, R34.) -/
def Obligations.MemoryWriteIsReadBack : Prop :=
  ∀ (s : State) (addr v : Word) (w : Width), s.canonical = true →
    (Accessible s.cfg addr w.size →
      memRead s addr w = .ok (BitVec.ofNat 32 (littleEndian s addr.toNat w.size)) ∧
      ∃ t, memWrite s addr w v = .ok t ∧ WritesBytes s t addr w.size v ∧
        memRead t addr w = .ok (BitVec.ofNat 32 (v.toNat % 2 ^ (8 * w.size))) ∧
        t.regs = s.regs ∧ t.pc = s.pc ∧ t.csrs = s.csrs ∧ SamePort s t ∧ SameRest s t) ∧
    (¬ Accessible s.cfg addr w.size →
      memRead s addr w = .error .memoryAccessError ∧ memWrite s addr w v = .error .memoryAccessError)

/-- For every state and address: an address no device range contains is accessed as main memory, state unchanged by
a read; an address whose first owning table entry is entry k (base p) takes word accesses only, at offset addr -
base, recorded on the peripheral port, and a byte or halfword access raises UnsupportedInstruction. A device
read gives the next word of the input list where the list names one (any word otherwise, log entry 3). No
alignment is checked on a device access. The narrow access that stops, the store to an unowned address, the
owner of the first byte and the missing alignment check are the decisions D8, D9 and D11 that the spec marks as
its own, log entries 13 and 30. (R42, R43, R44.) -/
def Obligations.BusRoutesByTheFirstByte : Prop :=
  ∀ (s : State) (a v : Word),
    (Unowned s.cfg a → ∀ w,
      busRead s a w = (match memRead s a w with | .ok u => .ok (u, s) | .error f => .error f) ∧
      busWrite s a w v = memWrite s a w v) ∧
    (∀ k p, OwnedBy s.cfg a k p →
      (∃ u t, busRead s a .word = .ok (u, t) ∧ DeviceMayReturn s u ∧ PortTook s t [.read k (a - p.base) u] 1 ∧
        t.regs = s.regs ∧ t.pc = s.pc ∧ t.csrs = s.csrs ∧ t.mem = s.mem ∧ SameRest s t) ∧
      (∃ t, busWrite s a .word v = .ok t ∧ PortTook s t [.write k (a - p.base) v] 0 ∧
        t.regs = s.regs ∧ t.pc = s.pc ∧ t.csrs = s.csrs ∧ t.mem = s.mem ∧ SameRest s t) ∧
      (∀ w, w = .byte ∨ w = .half →
        busRead s a w = .error .unsupportedInstruction ∧ busWrite s a w v = .error .unsupportedInstruction))

/-- For every configuration and address: owner answers none exactly when no device range contains the address, and
entry k of the table, p, exactly when p stands at place k, its range contains the address in unbounded integers
and no earlier entry's does; one of the two is the case, the entry and its place are unique, and an entry of
size 0 owns nothing. The unbounded reading of a range is the decision D10 of the spec, and that an entry is
named by its place is log entry 22. (R40.) -/
def Obligations.EveryAddressHasOneOwnerOrNone : Prop :=
  ∀ (c : Config) (a : Word),
    (owner c a = none ↔ Unowned c a) ∧ (∀ k p, owner c a = some (k, p) ↔ OwnedBy c a k p) ∧
    (Unowned c a ∨ ∃ k p, OwnedBy c a k p) ∧ (∀ k p, OwnedBy c a k p → ¬ Unowned c a) ∧
    (∀ k p j q, OwnedBy c a k p → OwnedBy c a j q → k = j ∧ p = q) ∧
    (∀ k p, p.size = 0 → owner c a ≠ some (k, p))

/-- When pc is a multiple of 4 that no device owns and main memory takes the fetch, and the four bytes at pc decode
to i, then Step() is exec i at that state, and the machine's step is the same with count one higher if it
continued (R262). (R60, R62, R262.) -/
def Obligations.StepRunsTheDecodedInstruction : Prop :=
  ∀ (s : State) (i : Instr), s.pc.toNat % 4 = 0 → Unowned s.cfg s.pc → Accessible s.cfg s.pc 4 →
    decodeBytes s.cfg.strictReservedFields
      [readByte s s.pc.toNat, readByte s (s.pc.toNat + 1), readByte s (s.pc.toNat + 2),
       readByte s (s.pc.toNat + 3)] = .ok (i, []) →
    engineStep s = exec i s ∧
      (∀ t, exec i s = .next t → step s = .next { t with count := t.count + 1 }) ∧
      (∀ f, exec i s = .fault f → step s = .fault f)

/-- When pc is a multiple of 4 that entry k owns, there is a word w the device may return now (the next word of the
input list; where the list is empty, the free value) such that Step() decodes w and runs it at the state in
which the device has been read once at offset pc - base and the word is used up; and if w does not decode the
step raises UnsupportedInstruction. That a fetch goes to a device is the decision D5 that the spec marks as its
own, log entry 11; the input list and the free value are the model's own, log entry 3. (R60, R46, R41, R66,
R251.) -/
def Obligations.StepFetchesFromTheOwningDevice : Prop :=
  ∀ (s : State) (k : Nat) (p : Peripheral), s.pc.toNat % 4 = 0 → OwnedBy s.cfg s.pc k p →
    ∃ w, DeviceMayReturn s w ∧
      engineStep s =
        execWord w { s with devIn := s.devIn.tail, devLog := s.devLog ++ [.read k (s.pc - p.base) w] } ∧
      (∀ r, decode s.cfg.strictReservedFields w = .error r → step s = .fault .unsupportedInstruction)

/-- For every state: a pc that is not a multiple of 4 raises MemoryAccessError under either alignment policy; a
4-aligned pc that no device owns and main memory cannot serve raises MemoryAccessError; a word of main memory at
such a pc, where main memory serves it, that the decoder refuses raises UnsupportedInstruction; and so does any
word that the fetch answers, from main memory or from a device, and the decoder refuses, whatever it would have
accessed. That a misaligned pc raises this fault is the decision D4 that the spec marks as its own, and the kind
of a failed fetch D6, log entry 10. (R60, R66, R251, R252, R257.) -/
def Obligations.StepFaultsAtFetchInOrder : Prop :=
  ∀ s : State,
    (s.pc.toNat % 4 ≠ 0 → step s = .fault .memoryAccessError) ∧
    (s.pc.toNat % 4 = 0 → Unowned s.cfg s.pc → ¬ Accessible s.cfg s.pc 4 → step s = .fault .memoryAccessError) ∧
    (s.pc.toNat % 4 = 0 → Unowned s.cfg s.pc → Accessible s.cfg s.pc 4 → ∀ r,
      decode s.cfg.strictReservedFields (memWord s s.pc) = .error r → step s = .fault .unsupportedInstruction) ∧
    (∀ w t r, fetch s = .ok (w, t) → decode s.cfg.strictReservedFields w = .error r →
      step s = .fault .unsupportedInstruction)

/-- For every state s and t, if step s answers t then t.count is s.count + 1 and t.cfg is s.cfg: every instruction
takes exactly one step and adds exactly one to count, and the parameters and the peripheral table are not
mutated during execution. (R24, R262, R294.) -/
def Obligations.SteppingCountsAndKeepsTheParameters : Prop :=
  ∀ s t : State, step s = .next t → t.count = s.count + 1 ∧ t.cfg = s.cfg

/-- For every state, instruction and refusal: neither exec nor step answers that refusal, so the outcomes of a step
are exactly those of R250: it continues, it faults, or it signals termination. (R250.) -/
def Obligations.NoStepIsRefused : Prop :=
  ∀ (s : State) (i : Instr) (r : Refusal), exec i s ≠ .refused r ∧ step s ≠ .refused r

/-- For every state and instruction, if exec answers a fault then the instruction is ECALL with the termination
signal, EBREAK with UnsupportedInstruction, a byte or halfword load or store with UnsupportedInstruction
(device) or MemoryAccessError, or a word load, word store or atomic with MemoryAccessError. Arithmetic,
branches, jumps, MRET, fences and CSR accesses never fault. (R255, R257, R161, R222, R201, R211.) -/
def Obligations.OnlyTheListedInstructionsCanStop : Prop :=
  ∀ (s : State) (i : Instr) (f : Fault), exec i s = .fault f →
    (i.mnemonic = "ECALL" ∧ f = .ecallTermination) ∨ (i.mnemonic = "EBREAK" ∧ f = .unsupportedInstruction) ∨
    (i.mnemonic ∈ ["LB", "LH", "LBU", "LHU", "SB", "SH"] ∧ (f = .unsupportedInstruction ∨ f = .memoryAccessError)) ∨
    (i.mnemonic ∈ ["LW", "SW", "LR.W", "SC.W", "AMOSWAP.W", "AMOADD.W", "AMOXOR.W", "AMOAND.W", "AMOOR.W",
      "AMOMIN.W", "AMOMAX.W", "AMOMINU.W", "AMOMAXU.W"] ∧ f = .memoryAccessError)

/-- Twelve words that the spec gives for its examples, one or more of every family, decode under the default
parameters to the instruction the spec names, with its operands; and the word 0x7F is refused. (R101, R141,
R169, R164, R182, R192, R190, R109, R122, R203, R221, R240.) -/
def Obligations.SpecExampleWordsDecode : Prop :=
  decode false 0x02A00093#32 = .ok (.addi 1 0 42) ∧
    decode false 0x02108133#32 = .ok (.mul 2 1 1) ∧
    decode false 0x3E202423#32 = .ok (.sw 0 2 1000) ∧
    decode false 0x3E802183#32 = .ok (.lw 3 0 1000) ∧
    decode false 0xFE731EE3#32 = .ok (.bne 6 7 (-4)) ∧
    decode false 0xFF9FF06F#32 = .ok (.jal 0 (-8)) ∧
    decode false 0x123452B7#32 = .ok (.lui 5 0x12345) ∧
    decode false 0x40435293#32 = .ok (.srai 5 6 4 0) ∧
    decode false 0x407302B3#32 = .ok (.sub 5 6 7) ∧
    decode false 0x340312F3#32 = .ok (.csrrw 5 6 0x340) ∧
    decode false 0x067322AF#32 = .ok (.amoaddW 5 6 7 1 1) ∧
    decode false 0x0FF0000F#32 = .ok (.fence 0 0 0 15 15) ∧
    decode false 0x0000007F#32 = .error .unknownOpcode

/-- For both settings of STRICT_RESERVED_FIELDS, every word and the instruction it decodes to: rd, rs1, rs2, shamt,
uimm, the CSR index, aq, rl and SRAI's unchecked bits are the bits of the word that R61 and R70, R71 name, as
quotients and remainders of the word by powers of two; the I, S, B, U and J immediates, widened as the machine
uses them, are the signed sums of the bit fields of R64, R65, R67, R68 and R69. (R64, R65, R67, R68, R69, R70,
R71.) -/
def Obligations.FieldsAndImmediatesSitWhereTheFormatsSay : Prop :=
  ∀ (strict : Bool) (w : Word) (i : Instr), decode strict w = .ok i →
    (∀ rd rs1 imm, i ∈ ([.addi rd rs1 imm, .slti rd rs1 imm, .sltiu rd rs1 imm, .xori rd rs1 imm, .ori rd rs1 imm, .andi rd
        rs1 imm, .lb rd rs1 imm, .lh rd rs1 imm, .lw rd rs1 imm, .lbu rd rs1 imm, .lhu rd rs1 imm, .jalr rd
        rs1 imm] : List Instr) →
      rd.toNat = w.toNat / 2 ^ 7 % 32 ∧ rs1.toNat = w.toNat / 2 ^ 15 % 32 ∧ (immI imm).toInt = w.toInt / 2 ^ 20) ∧
    (∀ rd rs1 shamt, i ∈ ([.slli rd rs1 shamt, .srli rd rs1 shamt] : List Instr) →
      rd.toNat = w.toNat / 2 ^ 7 % 32 ∧ rs1.toNat = w.toNat / 2 ^ 15 % 32 ∧ shamt.toNat = w.toNat / 2 ^ 20 % 32) ∧
    (∀ rd rs1 shamt u, i = .srai rd rs1 shamt u → rd.toNat = w.toNat / 2 ^ 7 % 32 ∧ rs1.toNat = w.toNat / 2 ^ 15 % 32 ∧
      shamt.toNat = w.toNat / 2 ^ 20 % 32 ∧ u.toNat = w.toNat / 2 ^ 31 * 32 + w.toNat / 2 ^ 25 % 32) ∧
    (∀ rd rs1 rs2, i ∈ ([.add rd rs1 rs2, .sub rd rs1 rs2, .sll rd rs1 rs2, .slt rd rs1 rs2, .sltu rd rs1 rs2, .xor rd rs1
        rs2, .srl rd rs1 rs2, .sra rd rs1 rs2, .or rd rs1 rs2, .and rd rs1 rs2, .mul rd rs1 rs2, .mulh rd
        rs1 rs2, .mulhsu rd rs1 rs2, .mulhu rd rs1 rs2, .div rd rs1 rs2, .divu rd rs1 rs2, .rem rd rs1 rs2,
        .remu rd rs1 rs2] : List Instr) →
      rd.toNat = w.toNat / 2 ^ 7 % 32 ∧ rs1.toNat = w.toNat / 2 ^ 15 % 32 ∧ rs2.toNat = w.toNat / 2 ^ 20 % 32) ∧
    (∀ rs1 rs2 imm, i ∈ ([.sb rs1 rs2 imm, .sh rs1 rs2 imm, .sw rs1 rs2 imm] : List Instr) →
      rs1.toNat = w.toNat / 2 ^ 15 % 32 ∧ rs2.toNat = w.toNat / 2 ^ 20 % 32 ∧
      (immS imm).toInt = w.toInt / 2 ^ 25 * 32 + ((w.toNat / 2 ^ 7 % 32 : Nat) : Int)) ∧
    (∀ rs1 rs2 o, i ∈ ([.beq rs1 rs2 o, .bne rs1 rs2 o, .blt rs1 rs2 o, .bge rs1 rs2 o, .bltu rs1 rs2 o, .bgeu rs1 rs2 o] : List Instr) →
      rs1.toNat = w.toNat / 2 ^ 15 % 32 ∧ rs2.toNat = w.toNat / 2 ^ 20 % 32 ∧
      (immB o).toInt = -4096 * ((w.toNat / 2 ^ 31 : Nat) : Int) + ((2048 * (w.toNat / 2 ^ 7 % 2) +
        32 * (w.toNat / 2 ^ 25 % 64) + 2 * (w.toNat / 2 ^ 8 % 16) : Nat) : Int)) ∧
    (∀ rd imm, i ∈ ([.lui rd imm, .auipc rd imm] : List Instr) →
      rd.toNat = w.toNat / 2 ^ 7 % 32 ∧ (immU imm).toNat = w.toNat / 4096 * 4096) ∧
    (∀ rd o, i = .jal rd o → rd.toNat = w.toNat / 2 ^ 7 % 32 ∧
      (immJ o).toInt = -1048576 * ((w.toNat / 2 ^ 31 : Nat) : Int) + ((4096 * (w.toNat / 2 ^ 12 % 256) +
        2048 * (w.toNat / 2 ^ 20 % 2) + 2 * (w.toNat / 2 ^ 21 % 1024) : Nat) : Int)) ∧
    (∀ rd rs1 c, i ∈ ([.csrrw rd rs1 c, .csrrs rd rs1 c, .csrrc rd rs1 c] : List Instr) →
      rd.toNat = w.toNat / 2 ^ 7 % 32 ∧ rs1.toNat = w.toNat / 2 ^ 15 % 32 ∧ c.toNat = w.toNat / 2 ^ 20) ∧
    (∀ rd u c, i ∈ ([.csrrwi rd u c, .csrrsi rd u c, .csrrci rd u c] : List Instr) →
      rd.toNat = w.toNat / 2 ^ 7 % 32 ∧ (uimm5 u).toNat = w.toNat / 2 ^ 15 % 32 ∧ c.toNat = w.toNat / 2 ^ 20) ∧
    (∀ rd rs1 rs2 aq rl, i ∈ ([.lrW rd rs1 rs2 aq rl, .scW rd rs1 rs2 aq rl, .amoswapW rd rs1 rs2 aq rl, .amoaddW rd rs1 rs2 aq
        rl, .amoxorW rd rs1 rs2 aq rl, .amoandW rd rs1 rs2 aq rl, .amoorW rd rs1 rs2 aq rl, .amominW rd rs1
        rs2 aq rl, .amomaxW rd rs1 rs2 aq rl, .amominuW rd rs1 rs2 aq rl, .amomaxuW rd rs1 rs2 aq rl] : List Instr) →
      rd.toNat = w.toNat / 2 ^ 7 % 32 ∧ rs1.toNat = w.toNat / 2 ^ 15 % 32 ∧ rs2.toNat = w.toNat / 2 ^ 20 % 32 ∧
      aq.toNat = w.toNat / 2 ^ 26 % 2 ∧ rl.toNat = w.toNat / 2 ^ 25 % 2)

/-- For both settings of STRICT_RESERVED_FIELDS and every well-formed instruction, with every operand at every value
its field admits: decode of encode i is i, from the word and from its four little-endian bytes with any bytes
after them. (R61, R64, R65, R67, R68, R69, R73.) -/
def Obligations.DecodeOfEncodeIsTheInstruction : Prop :=
  ∀ (strict : Bool) (i : Instr) (rest : List Byte), i.wellFormed strict = true →
    decode strict (encode i) = .ok i ∧ decodeBytes strict (encodeBytes i ++ rest) = .ok (i, rest)

/-- For both settings of STRICT_RESERVED_FIELDS and every 32-bit word: if the word decodes to i then i is well-
formed and encode i is the word. With the other direction, legal words and well-formed instructions correspond
one to one. (R61, R63, R73.) -/
def Obligations.EncodeOfDecodeIsTheWord : Prop :=
  ∀ (strict : Bool) (w : Word) (i : Instr), decode strict w = .ok i → i.wellFormed strict = true ∧ encode i = w

/-- For both settings of STRICT_RESERVED_FIELDS and every word: if the word fits a row of opcode_table.json (its
strict mask under the strict setting), the decoder answers an instruction with that row's mnemonic; if it fits
no row, the decoder refuses it, and every state whose pc fetches that word from main memory steps to the fault
UnsupportedInstruction. (R66, R63, R73, R251.) -/
def Obligations.DecoderAcceptsExactlyTheTable : Prop :=
  ∀ (strict : Bool) (w : Word),
    (∀ row ∈ opcodeTable, row.fits strict w → ∃ i, decode strict w = .ok i ∧ i.mnemonic = row.mnemonic) ∧
    ((∀ row ∈ opcodeTable, ¬ row.fits strict w) → (∃ r, decode strict w = .error r) ∧
      ∀ s : State, s.cfg.strictReservedFields = strict → s.pc.toNat % 4 = 0 → Unowned s.cfg s.pc →
        Accessible s.cfg s.pc 4 → memWord s s.pc = w → step s = .fault .unsupportedInstruction)

/-- Under the default parameters a word is refused by exactly the item of R66 it belongs to: an opcode outside the
twelve; SLLI or SRLI with a bit outside the shift amount; an unused (funct7, funct3); an unused load, store,
branch or JALR funct3; an unused SYSTEM selector; an unused atomic selector; FENCE opcode with funct3 in 2..7.
Item 7 of R66 lists the EBREAK words too (funct12 0x001): the decoder answers EBREAK for exactly these, and its
meaning raises UnsupportedInstruction, as does every word the decoder refuses. No other refusal is answered
under the default parameters. (R66, R110, R131, R170, R187, R193, R209, R234, R242.) -/
def Obligations.IllegalWordsAreTheNineItems : Prop :=
  ∀ w : Word, let op := w &&& 0x7F#32; let f3 := (w >>> 12) &&& 7#32; let f7 := w >>> 25
    (decode false w = .error .unknownOpcode ↔
      op ∉ [0x13#32, 0x33#32, 0x03#32, 0x23#32, 0x63#32, 0x37#32, 0x17#32, 0x6F#32, 0x67#32, 0x73#32, 0x2F#32, 0x0F#32]) ∧
    (decode false w = .error .shiftImmediate ↔
      op = 0x13#32 ∧ (f3 = 1#32 ∧ f7 ≠ 0#32 ∨ f3 = 5#32 ∧ f7 ≠ 0#32 ∧ f7 &&& 0x20#32 = 0#32)) ∧
    (decode false w = .error .opFunct ↔
      op = 0x33#32 ∧ (f7 ∉ [0x00#32, 0x20#32, 0x01#32] ∨ f7 = 0x20#32 ∧ f3 ∉ [0#32, 5#32])) ∧
    (decode false w = .error .loadFunct3 ↔ op = 0x03#32 ∧ f3 ∈ [3#32, 6#32, 7#32]) ∧
    (decode false w = .error .storeFunct3 ↔ op = 0x23#32 ∧ f3 ∈ [3#32, 4#32, 5#32, 6#32, 7#32]) ∧
    (decode false w = .error .branchFunct3 ↔ op = 0x63#32 ∧ f3 ∈ [2#32, 3#32]) ∧
    (decode false w = .error .jalrFunct3 ↔ op = 0x67#32 ∧ f3 ≠ 0#32) ∧
    (decode false w = .error .systemFunct ↔
      op = 0x73#32 ∧ (f3 = 4#32 ∨ f3 = 0#32 ∧ w >>> 20 ∉ [0x000#32, 0x001#32, 0x302#32])) ∧
    (decode false w = .error .atomicFunct ↔
      op = 0x2F#32 ∧ (f3 ≠ 2#32 ∨ w >>> 27 ∉ [0x00#32, 0x01#32, 0x02#32, 0x03#32, 0x04#32, 0x08#32, 0x0C#32,
        0x10#32, 0x14#32, 0x18#32, 0x1C#32])) ∧
    (decode false w = .error .miscMemFunct3 ↔ op = 0x0F#32 ∧ f3 ∉ [0#32, 1#32]) ∧
    ((∃ rd rs1, decode false w = .ok (.ebreak rd rs1)) ↔ op = 0x73#32 ∧ f3 = 0#32 ∧ w >>> 20 = 0x001#32) ∧
    decode false w ≠ .error .reservedField ∧ decode false w ≠ .error .truncated ∧
    (∀ s : State, s.cfg.strictReservedFields = false →
      ((∃ r, decode false w = .error r) ∨ (∃ rd rs1, decode false w = .ok (.ebreak rd rs1))) →
        execWord w s = .fault .unsupportedInstruction)

/-- For every state, rd, rs1 and 12-bit immediate: each of the six is encoded as its rule says and exec answers a
next state in which x[rd] (nothing for x0) is the rule's value, computed on the integers: the sum modulo 2^32, 1
or 0 for the signed comparison, 1 or 0 for the comparison as unsigned of the sign-extended immediate, the
bitwise operations with the sign-extended immediate; pc is 4 further and nothing else changes. (R101, R102,
R103, R104, R105, R106.) -/
def Obligations.ImmediateArithmeticResults : Prop :=
  ∀ (s : State) (rd rs1 : RegIdx) (imm : BitVec 12),
    (EncodedAs (.addi rd rs1 imm) 0x00000013#32 0x0000707F#32 0x0000707F#32 ∧
      ∃ t, exec (.addi rd rs1 imm) s = .next t ∧ RegResult s t rd
        (BitVec.ofInt 32 ((readReg s rs1).toInt + imm.toInt)) (s.pc + 4)) ∧
    (EncodedAs (.slti rd rs1 imm) 0x00002013#32 0x0000707F#32 0x0000707F#32 ∧
      ∃ t, exec (.slti rd rs1 imm) s = .next t ∧ RegResult s t rd
        (if (readReg s rs1).toInt < imm.toInt then 1 else 0) (s.pc + 4)) ∧
    (EncodedAs (.sltiu rd rs1 imm) 0x00003013#32 0x0000707F#32 0x0000707F#32 ∧
      ∃ t, exec (.sltiu rd rs1 imm) s = .next t ∧ RegResult s t rd
        (if ((readReg s rs1).toNat : Int) < imm.toInt % 2 ^ 32 then 1 else 0) (s.pc + 4)) ∧
    (EncodedAs (.xori rd rs1 imm) 0x00004013#32 0x0000707F#32 0x0000707F#32 ∧
      ∃ t, exec (.xori rd rs1 imm) s = .next t ∧ RegResult s t rd
        (readReg s rs1 ^^^ BitVec.ofInt 32 imm.toInt) (s.pc + 4)) ∧
    (EncodedAs (.ori rd rs1 imm) 0x00006013#32 0x0000707F#32 0x0000707F#32 ∧
      ∃ t, exec (.ori rd rs1 imm) s = .next t ∧ RegResult s t rd
        (readReg s rs1 ||| BitVec.ofInt 32 imm.toInt) (s.pc + 4)) ∧
    (EncodedAs (.andi rd rs1 imm) 0x00007013#32 0x0000707F#32 0x0000707F#32 ∧
      ∃ t, exec (.andi rd rs1 imm) s = .next t ∧ RegResult s t rd
        (readReg s rs1 &&& BitVec.ofInt 32 imm.toInt) (s.pc + 4))

/-- For every state, rd, rs1, shift amount and value of SRAI's unchecked bits: each is encoded as its rule says
(SRAI under the default and the strict mask) and exec answers a next state in which x[rd] is x[rs1] times
2^shamt modulo 2^32, x[rs1] divided by 2^shamt rounded down as unsigned, or as signed (copies of the sign
enter); pc is 4 further and nothing else changes. SRAI's unchecked bits have no effect. The shift amount is
inst[24:20]. A word of SLLI or SRLI shape with a set bit among inst[31:25] (inst[30] clear for funct3 = 5)
raises UnsupportedInstruction. (R107, R108, R109, R110, R70.) -/
def Obligations.ImmediateShiftResults : Prop :=
  ∀ (s : State) (rd rs1 : RegIdx) (shamt : BitVec 5) (u : BitVec 6),
    (EncodedAs (.slli rd rs1 shamt) 0x00001013#32 0xFE00707F#32 0xFE00707F#32 ∧
      ∃ t, exec (.slli rd rs1 shamt) s = .next t ∧ RegResult s t rd
        (BitVec.ofNat 32 ((readReg s rs1).toNat * 2 ^ shamt.toNat)) (s.pc + 4)) ∧
    (EncodedAs (.srli rd rs1 shamt) 0x00005013#32 0xFE00707F#32 0xFE00707F#32 ∧
      ∃ t, exec (.srli rd rs1 shamt) s = .next t ∧ RegResult s t rd
        (BitVec.ofNat 32 ((readReg s rs1).toNat / 2 ^ shamt.toNat)) (s.pc + 4)) ∧
    (EncodedAs (.srai rd rs1 shamt u) 0x40005013#32 0x4000707F#32 0xFE00707F#32 ∧
      ∃ t, exec (.srai rd rs1 shamt u) s = .next t ∧ RegResult s t rd
        (BitVec.ofInt 32 ((readReg s rs1).toInt / 2 ^ shamt.toNat)) (s.pc + 4)) ∧
    (encode (.slli rd rs1 shamt) >>> 20) &&& 0x1F#32 = shamt.setWidth 32 ∧
    (encode (.srli rd rs1 shamt) >>> 20) &&& 0x1F#32 = shamt.setWidth 32 ∧
    (encode (.srai rd rs1 shamt u) >>> 20) &&& 0x1F#32 = shamt.setWidth 32 ∧
    (∀ w, (w &&& 0x707F#32 = 0x1013#32 ∧ w &&& 0xFE000000#32 ≠ 0#32) ∨
      (w &&& 0x4000707F#32 = 0x5013#32 ∧ w &&& 0xFE000000#32 ≠ 0#32) → execWord w s = .fault .unsupportedInstruction)

/-- For every state, rd, rs1 and rs2 (equal or not): each is encoded as its rule says and exec answers a next state
in which x[rd] is the sum or difference modulo 2^32, 1 or 0 for the signed or unsigned comparison, or the
bitwise result; pc is 4 further and nothing else changes. (R121, R122, R124, R125, R126, R129, R130.) -/
def Obligations.RegisterArithmeticResults : Prop :=
  ∀ (s : State) (rd rs1 rs2 : RegIdx),
    (EncodedAs (.add rd rs1 rs2) 0x00000033#32 0xFE00707F#32 0xFE00707F#32 ∧
      ∃ t, exec (.add rd rs1 rs2) s = .next t ∧ RegResult s t rd
        (BitVec.ofNat 32 ((readReg s rs1).toNat + (readReg s rs2).toNat)) (s.pc + 4)) ∧
    (EncodedAs (.sub rd rs1 rs2) 0x40000033#32 0xFE00707F#32 0xFE00707F#32 ∧
      ∃ t, exec (.sub rd rs1 rs2) s = .next t ∧ RegResult s t rd
        (BitVec.ofInt 32 ((readReg s rs1).toInt - (readReg s rs2).toInt)) (s.pc + 4)) ∧
    (EncodedAs (.slt rd rs1 rs2) 0x00002033#32 0xFE00707F#32 0xFE00707F#32 ∧
      ∃ t, exec (.slt rd rs1 rs2) s = .next t ∧ RegResult s t rd
        (if (readReg s rs1).toInt < (readReg s rs2).toInt then 1 else 0) (s.pc + 4)) ∧
    (EncodedAs (.sltu rd rs1 rs2) 0x00003033#32 0xFE00707F#32 0xFE00707F#32 ∧
      ∃ t, exec (.sltu rd rs1 rs2) s = .next t ∧ RegResult s t rd
        (if (readReg s rs1).toNat < (readReg s rs2).toNat then 1 else 0) (s.pc + 4)) ∧
    (EncodedAs (.xor rd rs1 rs2) 0x00004033#32 0xFE00707F#32 0xFE00707F#32 ∧
      ∃ t, exec (.xor rd rs1 rs2) s = .next t ∧ RegResult s t rd
        (BitVec.ofNat 32 ((readReg s rs1).toNat ^^^ (readReg s rs2).toNat)) (s.pc + 4)) ∧
    (EncodedAs (.or rd rs1 rs2) 0x00006033#32 0xFE00707F#32 0xFE00707F#32 ∧
      ∃ t, exec (.or rd rs1 rs2) s = .next t ∧ RegResult s t rd
        (BitVec.ofNat 32 ((readReg s rs1).toNat ||| (readReg s rs2).toNat)) (s.pc + 4)) ∧
    (EncodedAs (.and rd rs1 rs2) 0x00007033#32 0xFE00707F#32 0xFE00707F#32 ∧
      ∃ t, exec (.and rd rs1 rs2) s = .next t ∧ RegResult s t rd
        (BitVec.ofNat 32 ((readReg s rs1).toNat &&& (readReg s rs2).toNat)) (s.pc + 4))

/-- For every state, rd, rs1 and rs2: each is encoded as its rule says and exec answers a next state in which x[rd]
is x[rs1] shifted by x[rs2] modulo 32, as a product or a quotient rounded down, unsigned or signed; pc is 4
further and nothing else changes. (R123, R127, R128.) -/
def Obligations.RegisterShiftResults : Prop :=
  ∀ (s : State) (rd rs1 rs2 : RegIdx),
    (EncodedAs (.sll rd rs1 rs2) 0x00001033#32 0xFE00707F#32 0xFE00707F#32 ∧
      ∃ t, exec (.sll rd rs1 rs2) s = .next t ∧ RegResult s t rd
        (BitVec.ofNat 32 ((readReg s rs1).toNat * 2 ^ ((readReg s rs2).toNat % 32))) (s.pc + 4)) ∧
    (EncodedAs (.srl rd rs1 rs2) 0x00005033#32 0xFE00707F#32 0xFE00707F#32 ∧
      ∃ t, exec (.srl rd rs1 rs2) s = .next t ∧ RegResult s t rd
        (BitVec.ofNat 32 ((readReg s rs1).toNat / 2 ^ ((readReg s rs2).toNat % 32))) (s.pc + 4)) ∧
    (EncodedAs (.sra rd rs1 rs2) 0x40005033#32 0xFE00707F#32 0xFE00707F#32 ∧
      ∃ t, exec (.sra rd rs1 rs2) s = .next t ∧ RegResult s t rd
        (BitVec.ofInt 32 ((readReg s rs1).toInt / 2 ^ ((readReg s rs2).toNat % 32))) (s.pc + 4))

/-- For every state, rd, rs1 and rs2: each is encoded as its rule says and exec answers a next state in which x[rd]
is the low word of the product (the same for the signed reading) or the high word, the product divided by 2^32
rounded down, of the signed, signed by unsigned, or unsigned product; pc is 4 further and nothing else changes.
(R141, R142, R143, R144.) -/
def Obligations.MultiplyResults : Prop :=
  ∀ (s : State) (rd rs1 rs2 : RegIdx),
    (EncodedAs (.mul rd rs1 rs2) 0x02000033#32 0xFE00707F#32 0xFE00707F#32 ∧
      ∃ t, exec (.mul rd rs1 rs2) s = .next t ∧ RegResult s t rd
        (BitVec.ofInt 32 ((readReg s rs1).toInt * (readReg s rs2).toInt)) (s.pc + 4)) ∧
    (EncodedAs (.mulh rd rs1 rs2) 0x02001033#32 0xFE00707F#32 0xFE00707F#32 ∧
      ∃ t, exec (.mulh rd rs1 rs2) s = .next t ∧ RegResult s t rd
        (BitVec.ofInt 32 ((readReg s rs1).toInt * (readReg s rs2).toInt / 2 ^ 32)) (s.pc + 4)) ∧
    (EncodedAs (.mulhsu rd rs1 rs2) 0x02002033#32 0xFE00707F#32 0xFE00707F#32 ∧
      ∃ t, exec (.mulhsu rd rs1 rs2) s = .next t ∧ RegResult s t rd
        (BitVec.ofInt 32 ((readReg s rs1).toInt * ((readReg s rs2).toNat : Int) / 2 ^ 32)) (s.pc + 4)) ∧
    (EncodedAs (.mulhu rd rs1 rs2) 0x02003033#32 0xFE00707F#32 0xFE00707F#32 ∧
      ∃ t, exec (.mulhu rd rs1 rs2) s = .next t ∧ RegResult s t rd
        (BitVec.ofNat 32 ((readReg s rs1).toNat * (readReg s rs2).toNat / 2 ^ 32)) (s.pc + 4))

/-- For every state, rd, rs1 and rs2 there are words q and r such that DIV answers a next state with x[rd] = q and
REM one with x[rd] = r, pc 4 further, nothing else changed, and: for a zero divisor q is all ones and r the
dividend; for 0x80000000 by -1 q is the dividend and r is 0; otherwise q is the quotient rounded toward zero, q
* b + r = a on the integers, |r| < |b|, and r is 0 or has the sign of the dividend. Both are encoded as their
rules say. (R145, R147.) -/
def Obligations.SignedDivisionResults : Prop :=
  ∀ (s : State) (rd rs1 rs2 : RegIdx), EncodedAs (.div rd rs1 rs2) 0x02004033#32 0xFE00707F#32 0xFE00707F#32 ∧
    EncodedAs (.rem rd rs1 rs2) 0x02006033#32 0xFE00707F#32 0xFE00707F#32 ∧ ∃ q r : Word,
    (∃ t, exec (.div rd rs1 rs2) s = .next t ∧ RegResult s t rd q (s.pc + 4)) ∧
    (∃ t, exec (.rem rd rs1 rs2) s = .next t ∧ RegResult s t rd r (s.pc + 4)) ∧
    (if readReg s rs2 = 0 then q = 0xFFFFFFFF#32 ∧ r = readReg s rs1
     else if readReg s rs1 = 0x80000000#32 ∧ readReg s rs2 = 0xFFFFFFFF#32 then q = 0x80000000#32 ∧ r = 0
     else q.toInt = (readReg s rs1).toInt.tdiv (readReg s rs2).toInt ∧ q.toInt * (readReg s rs2).toInt + r.toInt = (readReg s rs1).toInt ∧ |r.toInt| < |(readReg s rs2).toInt| ∧
       (r.toInt = 0 ∨ (r.toInt < 0 ↔ (readReg s rs1).toInt < 0)))

/-- For every state, rd, rs1 and rs2 there are words q and r such that DIVU answers a next state with x[rd] = q and
REMU one with x[rd] = r, pc 4 further, nothing else changed, and: for a zero divisor q is all ones and r the
dividend; otherwise q * b + r = a on the naturals and r < b. Both are encoded as their rules say. (R146, R148.) -/
def Obligations.UnsignedDivisionResults : Prop :=
  ∀ (s : State) (rd rs1 rs2 : RegIdx), EncodedAs (.divu rd rs1 rs2) 0x02005033#32 0xFE00707F#32 0xFE00707F#32 ∧
    EncodedAs (.remu rd rs1 rs2) 0x02007033#32 0xFE00707F#32 0xFE00707F#32 ∧ ∃ q r : Word,
    (∃ t, exec (.divu rd rs1 rs2) s = .next t ∧ RegResult s t rd q (s.pc + 4)) ∧
    (∃ t, exec (.remu rd rs1 rs2) s = .next t ∧ RegResult s t rd r (s.pc + 4)) ∧
    (if readReg s rs2 = 0 then q = 0xFFFFFFFF#32 ∧ r = readReg s rs1
     else q.toNat * (readReg s rs2).toNat + r.toNat = (readReg s rs1).toNat ∧ r.toNat < (readReg s rs2).toNat)

/-- For every state, base register and 12-bit displacement: the load address and the store address are x[rs1] plus
the signed displacement modulo 2^32, and the atomic address is x[rs1]. (R160, R220, R65, R64.) -/
def Obligations.EffectiveAddressesWrap : Prop :=
  ∀ (s : State) (rs1 : RegIdx) (imm : BitVec 12),
    loadAddr s rs1 imm = BitVec.ofInt 32 ((readReg s rs1).toInt + imm.toInt) ∧
    storeAddr s rs1 imm = BitVec.ofInt 32 ((readReg s rs1).toInt + imm.toInt) ∧ atomicAddr s rs1 = readReg s rs1

/-- For every state, rd (x0 too), rs1 and displacement: at an effective address no device owns, where main memory
takes the access, exec answers a next state with x[rd] the byte or halfword there sign-extended or zero-
extended, or the word, little-endian, pc 4 further and nothing else changed; where it does not (misaligned under
the strict policy, past 2^32 - 1, outside a dense store) the fault is MemoryAccessError. At an address entry k
owns, LW answers a next state after exactly one read transaction at offset address - base, with no alignment
check, x[rd] a word the device may return now (one the input list does not name is the free value of log entry
3), main memory and the rest unchanged; LB, LH, LBU, LHU raise UnsupportedInstruction. Each is encoded as its
rule says. The access made for x0 too is the decision D21 that the spec marks as its own, log entry 26. The stop
past the top (R37), the narrow access of a device that stops (R42), the strict stop of a misaligned halfword
(R36) and the missing alignment check on a device (R44) are the decisions D7, D8, D3 and D11 that the spec marks
as its own, log entries 12, 13, 9 and 13; the word a device returns and the recorded transaction are the model's
own, log entry 3. (R162, R163, R164, R165, R166.) -/
def Obligations.LoadResults : Prop :=
  ∀ (s : State) (rd rs1 : RegIdx) (imm : BitVec 12),
    (EncodedAs (.lb rd rs1 imm) 0x00000003#32 0x0000707F#32 0x0000707F#32 ∧
      (Unowned s.cfg (loadAddr s rs1 imm) → Accessible s.cfg (loadAddr s rs1 imm) 1 →
        ∃ t, exec (.lb rd rs1 imm) s = .next t ∧ RegResult s t rd
          (BitVec.ofInt 32 (readByte s (loadAddr s rs1 imm).toNat).toInt) (s.pc + 4)) ∧
      (Unowned s.cfg (loadAddr s rs1 imm) → ¬ Accessible s.cfg (loadAddr s rs1 imm) 1 →
        exec (.lb rd rs1 imm) s = .fault .memoryAccessError) ∧
      (∀ k p, OwnedBy s.cfg (loadAddr s rs1 imm) k p → exec (.lb rd rs1 imm) s = .fault .unsupportedInstruction)) ∧
    (EncodedAs (.lh rd rs1 imm) 0x00001003#32 0x0000707F#32 0x0000707F#32 ∧
      (Unowned s.cfg (loadAddr s rs1 imm) → Accessible s.cfg (loadAddr s rs1 imm) 2 →
        ∃ t, exec (.lh rd rs1 imm) s = .next t ∧ RegResult s t rd
          (BitVec.ofInt 32 (BitVec.ofNat 16 (littleEndian s (loadAddr s rs1 imm).toNat 2)).toInt) (s.pc + 4)) ∧
      (Unowned s.cfg (loadAddr s rs1 imm) → ¬ Accessible s.cfg (loadAddr s rs1 imm) 2 →
        exec (.lh rd rs1 imm) s = .fault .memoryAccessError) ∧
      (∀ k p, OwnedBy s.cfg (loadAddr s rs1 imm) k p → exec (.lh rd rs1 imm) s = .fault .unsupportedInstruction)) ∧
    (EncodedAs (.lw rd rs1 imm) 0x00002003#32 0x0000707F#32 0x0000707F#32 ∧
      (Unowned s.cfg (loadAddr s rs1 imm) → Accessible s.cfg (loadAddr s rs1 imm) 4 →
        ∃ t, exec (.lw rd rs1 imm) s = .next t ∧ RegResult s t rd
          (memWord s (loadAddr s rs1 imm)) (s.pc + 4)) ∧
      (Unowned s.cfg (loadAddr s rs1 imm) → ¬ Accessible s.cfg (loadAddr s rs1 imm) 4 →
        exec (.lw rd rs1 imm) s = .fault .memoryAccessError) ∧
      (∀ k p, OwnedBy s.cfg (loadAddr s rs1 imm) k p → ∃ u t, exec (.lw rd rs1 imm) s = .next t ∧ DeviceMayReturn s u ∧
        DeviceResult s t rd u [.read k ((loadAddr s rs1 imm) - p.base) u] 1)) ∧
    (EncodedAs (.lbu rd rs1 imm) 0x00004003#32 0x0000707F#32 0x0000707F#32 ∧
      (Unowned s.cfg (loadAddr s rs1 imm) → Accessible s.cfg (loadAddr s rs1 imm) 1 →
        ∃ t, exec (.lbu rd rs1 imm) s = .next t ∧ RegResult s t rd
          (BitVec.ofNat 32 (readByte s (loadAddr s rs1 imm).toNat).toNat) (s.pc + 4)) ∧
      (Unowned s.cfg (loadAddr s rs1 imm) → ¬ Accessible s.cfg (loadAddr s rs1 imm) 1 →
        exec (.lbu rd rs1 imm) s = .fault .memoryAccessError) ∧
      (∀ k p, OwnedBy s.cfg (loadAddr s rs1 imm) k p → exec (.lbu rd rs1 imm) s = .fault .unsupportedInstruction)) ∧
    (EncodedAs (.lhu rd rs1 imm) 0x00005003#32 0x0000707F#32 0x0000707F#32 ∧
      (Unowned s.cfg (loadAddr s rs1 imm) → Accessible s.cfg (loadAddr s rs1 imm) 2 →
        ∃ t, exec (.lhu rd rs1 imm) s = .next t ∧ RegResult s t rd
          (BitVec.ofNat 32 (littleEndian s (loadAddr s rs1 imm).toNat 2)) (s.pc + 4)) ∧
      (Unowned s.cfg (loadAddr s rs1 imm) → ¬ Accessible s.cfg (loadAddr s rs1 imm) 2 →
        exec (.lhu rd rs1 imm) s = .fault .memoryAccessError) ∧
      (∀ k p, OwnedBy s.cfg (loadAddr s rs1 imm) k p → exec (.lhu rd rs1 imm) s = .fault .unsupportedInstruction))

/-- For every canonical state, rs1, rs2 and displacement: at an effective address no device owns, where main memory
takes the access, exec answers a next state in which the 1, 2 or 4 low bytes of x[rs2] stand at the store
address, little-endian, and every other byte of memory, every register, every CSR and the peripheral port are
unchanged, pc 4 further; where it does not, the fault is MemoryAccessError. At an address entry k owns, SW
answers a next state after exactly one write transaction of x[rs2] at offset address - base, memory and
registers unchanged; SB and SH raise UnsupportedInstruction. Each is encoded as its rule says. The stop past the
top (R37), the narrow access of a device that stops (R43), the strict stop of a misaligned halfword (R36) and
the missing alignment check on a device (R44) are the decisions D7, D8, D3 and D11 that the spec marks as its
own, log entries 12, 13, 9 and 13; the recorded transaction is the model's own, log entry 3. (R167, R168, R169.) -/
def Obligations.StoreResults : Prop :=
  ∀ (s : State) (rs1 rs2 : RegIdx) (imm : BitVec 12), s.canonical = true →
    (EncodedAs (.sb rs1 rs2 imm) 0x00000023#32 0x0000707F#32 0x0000707F#32 ∧
      (Unowned s.cfg (storeAddr s rs1 imm) → Accessible s.cfg (storeAddr s rs1 imm) 1 →
        ∃ t, exec (.sb rs1 rs2 imm) s = .next t ∧ StoreResult s t (storeAddr s rs1 imm) 1 (readReg s rs2)) ∧
      (Unowned s.cfg (storeAddr s rs1 imm) → ¬ Accessible s.cfg (storeAddr s rs1 imm) 1 →
        exec (.sb rs1 rs2 imm) s = .fault .memoryAccessError) ∧
      (∀ k p, OwnedBy s.cfg (storeAddr s rs1 imm) k p → exec (.sb rs1 rs2 imm) s = .fault .unsupportedInstruction)) ∧
    (EncodedAs (.sh rs1 rs2 imm) 0x00001023#32 0x0000707F#32 0x0000707F#32 ∧
      (Unowned s.cfg (storeAddr s rs1 imm) → Accessible s.cfg (storeAddr s rs1 imm) 2 →
        ∃ t, exec (.sh rs1 rs2 imm) s = .next t ∧ StoreResult s t (storeAddr s rs1 imm) 2 (readReg s rs2)) ∧
      (Unowned s.cfg (storeAddr s rs1 imm) → ¬ Accessible s.cfg (storeAddr s rs1 imm) 2 →
        exec (.sh rs1 rs2 imm) s = .fault .memoryAccessError) ∧
      (∀ k p, OwnedBy s.cfg (storeAddr s rs1 imm) k p → exec (.sh rs1 rs2 imm) s = .fault .unsupportedInstruction)) ∧
    (EncodedAs (.sw rs1 rs2 imm) 0x00002023#32 0x0000707F#32 0x0000707F#32 ∧
      (Unowned s.cfg (storeAddr s rs1 imm) → Accessible s.cfg (storeAddr s rs1 imm) 4 →
        ∃ t, exec (.sw rs1 rs2 imm) s = .next t ∧ StoreResult s t (storeAddr s rs1 imm) 4 (readReg s rs2)) ∧
      (Unowned s.cfg (storeAddr s rs1 imm) → ¬ Accessible s.cfg (storeAddr s rs1 imm) 4 →
        exec (.sw rs1 rs2 imm) s = .fault .memoryAccessError) ∧
      (∀ k p, OwnedBy s.cfg (storeAddr s rs1 imm) k p → ∃ t, exec (.sw rs1 rs2 imm) s = .next t ∧ t.pc = s.pc + 4 ∧
        PortTook s t [.write k ((storeAddr s rs1 imm) - p.base) (readReg s rs2)] 0 ∧
        SameRegs s t ∧ SameCsrs s t ∧ SameBytes s t ∧ SameRest s t))

/-- For every state, rs1, rs2 and 13-bit offset: each branch is encoded as its rule says and exec answers a next
state whose pc is pc + offset modulo 2^32 if its condition holds (equal, not equal, signed less, signed not
less, unsigned less, unsigned not less) and pc + 4 otherwise, whatever the alignment of the target; nothing else
changes. (R180, R181, R182, R183, R184, R185, R186.) -/
def Obligations.BranchResults : Prop :=
  ∀ (s : State) (rs1 rs2 : RegIdx) (o : BitVec 13),
    (EncodedAs (.beq rs1 rs2 o) 0x00000063#32 0x0000707F#32 0x0000707F#32 ∧ ∃ t, exec (.beq rs1 rs2 o) s = .next t ∧ PcResult s t
      (if readReg s rs1 = readReg s rs2 then BitVec.ofInt 32 ((s.pc.toNat : Int) + o.toInt) else s.pc + 4)) ∧
    (EncodedAs (.bne rs1 rs2 o) 0x00001063#32 0x0000707F#32 0x0000707F#32 ∧ ∃ t, exec (.bne rs1 rs2 o) s = .next t ∧ PcResult s t
      (if readReg s rs1 ≠ readReg s rs2 then BitVec.ofInt 32 ((s.pc.toNat : Int) + o.toInt) else s.pc + 4)) ∧
    (EncodedAs (.blt rs1 rs2 o) 0x00004063#32 0x0000707F#32 0x0000707F#32 ∧ ∃ t, exec (.blt rs1 rs2 o) s = .next t ∧ PcResult s t
      (if (readReg s rs1).toInt < (readReg s rs2).toInt then BitVec.ofInt 32 ((s.pc.toNat : Int) + o.toInt) else s.pc + 4)) ∧
    (EncodedAs (.bge rs1 rs2 o) 0x00005063#32 0x0000707F#32 0x0000707F#32 ∧ ∃ t, exec (.bge rs1 rs2 o) s = .next t ∧ PcResult s t
      (if (readReg s rs2).toInt ≤ (readReg s rs1).toInt then BitVec.ofInt 32 ((s.pc.toNat : Int) + o.toInt) else s.pc + 4)) ∧
    (EncodedAs (.bltu rs1 rs2 o) 0x00006063#32 0x0000707F#32 0x0000707F#32 ∧ ∃ t, exec (.bltu rs1 rs2 o) s = .next t ∧ PcResult s t
      (if (readReg s rs1).toNat < (readReg s rs2).toNat then BitVec.ofInt 32 ((s.pc.toNat : Int) + o.toInt) else s.pc + 4)) ∧
    (EncodedAs (.bgeu rs1 rs2 o) 0x00007063#32 0x0000707F#32 0x0000707F#32 ∧ ∃ t, exec (.bgeu rs1 rs2 o) s = .next t ∧ PcResult s t
      (if (readReg s rs2).toNat ≤ (readReg s rs1).toNat then BitVec.ofInt 32 ((s.pc.toNat : Int) + o.toInt) else s.pc + 4))

/-- For every state, rd and 20-bit immediate: LUI sets x[rd] to the immediate times 4096, AUIPC to its own pc plus
that modulo 2^32; exec answers a next state with pc 4 further and nothing else changed. Both are encoded as
their rules say. (R190, R191, R68.) -/
def Obligations.UpperImmediateResults : Prop :=
  ∀ (s : State) (rd : RegIdx) (imm : BitVec 20),
    (EncodedAs (.lui rd imm) 0x00000037#32 0x0000007F#32 0x0000007F#32 ∧
      ∃ t, exec (.lui rd imm) s = .next t ∧ RegResult s t rd
        (BitVec.ofNat 32 (imm.toNat * 4096)) (s.pc + 4)) ∧
    (EncodedAs (.auipc rd imm) 0x00000017#32 0x0000007F#32 0x0000007F#32 ∧
      ∃ t, exec (.auipc rd imm) s = .next t ∧ RegResult s t rd
        (BitVec.ofNat 32 (s.pc.toNat + imm.toNat * 4096)) (s.pc + 4))

/-- For every state, rd, rs1, offset and immediate: JAL answers a next state with pc = pc + offset modulo 2^32, JALR
one with pc = x[rs1] + immediate modulo 2^32 with bit 0 cleared, computed from the old x[rs1] also when rd =
rs1; x[rd] is the old pc + 4 and nothing else changes, whatever the alignment of the target. Both are encoded as
their rules say; a word with opcode 0x67 and funct3 not 0 is refused. (R192, R193.) -/
def Obligations.JumpResults : Prop :=
  ∀ (s : State) (rd rs1 : RegIdx) (o : BitVec 21) (imm : BitVec 12),
    (EncodedAs (.jal rd o) 0x0000006F#32 0x0000007F#32 0x0000007F#32 ∧ ∃ t, exec (.jal rd o) s = .next t ∧
      RegResult s t rd (s.pc + 4) (BitVec.ofInt 32 ((s.pc.toNat : Int) + o.toInt))) ∧
    (EncodedAs (.jalr rd rs1 imm) 0x00000067#32 0x0000707F#32 0x0000707F#32 ∧ ∃ t, exec (.jalr rd rs1 imm) s = .next t ∧
      RegResult s t rd (s.pc + 4) (BitVec.ofInt 32 ((readReg s rs1).toInt + imm.toInt) &&& 0xFFFFFFFE#32)) ∧
    (∀ strict w, w &&& 0x7F#32 = 0x67#32 → w &&& 0x7000#32 ≠ 0#32 → execWord w { s with cfg.strictReservedFields := strict } =
      .fault .unsupportedInstruction)

/-- For every state and every value of the ignored rd and rs1 fields: exec of ECALL is the event EcallTermination
and exec of EBREAK is the fault UnsupportedInstruction; an event carries no state, so nothing changes. Both are
encoded as their rules say (default and strict mask), and EBREAK words refused by the strict decoder raise the
same fault. A run whose next step is the event EcallTermination ends with stop reason StopEcall and the ECALL
counted, one whose next step is UnsupportedInstruction with StopUnsupported and nothing counted, pc unchanged in
both. (R201, R211.) -/
def Obligations.EcallAndEbreakStop : Prop :=
  ∀ (s : State) (rd rs1 : RegIdx),
    EncodedAs (.ecall rd rs1) 0x00000073#32 0xFFF0707F#32 0xFFFFFFFF#32 ∧
    EncodedAs (.ebreak rd rs1) 0x00100073#32 0xFFF0707F#32 0xFFFFFFFF#32 ∧
    exec (.ecall rd rs1) s = .fault .ecallTermination ∧ exec (.ebreak rd rs1) s = .fault .unsupportedInstruction ∧
    (∀ strict, execWord (encode (.ebreak rd rs1)) { s with cfg.strictReservedFields := strict } =
      .fault .unsupportedInstruction) ∧
    (∀ n, step s = .fault .ecallTermination → (runLoop (n + 1) s).stop = .stopEcall ∧
      (runLoop (n + 1) s).final.count = s.count + 1 ∧ (runLoop (n + 1) s).final.pc = s.pc) ∧
    (∀ n, step s = .fault .unsupportedInstruction → (runLoop (n + 1) s).stop = .stopUnsupported ∧
      (runLoop (n + 1) s).final.count = s.count ∧ (runLoop (n + 1) s).final.pc = s.pc)

/-- For every state and every value of the ignored fields: exec of MRET, FENCE and FENCE.I answers a next state with
pc 4 further in which no register, CSR (mepc and mstatus among them), memory byte or device transaction differs.
Each is encoded as its rule says, and every word with opcode 0x0F and funct3 0 or 1 decodes to FENCE or FENCE.I
under both settings of the reserved fields. (R202, R240, R241.) -/
def Obligations.MretAndFencesOnlyAdvance : Prop :=
  ∀ (s : State) (rd rs1 : RegIdx) (fm pred succ : BitVec 4) (imm : BitVec 12),
    (EncodedAs (.mret rd rs1) 0x30200073#32 0xFFF0707F#32 0xFFFFFFFF#32 ∧
      ∃ t, exec (.mret rd rs1) s = .next t ∧ PcResult s t (s.pc + 4)) ∧
    (EncodedAs (.fence rd rs1 fm pred succ) 0x0000000F#32 0x0000707F#32 0x0000707F#32 ∧
      ∃ t, exec (.fence rd rs1 fm pred succ) s = .next t ∧ PcResult s t (s.pc + 4)) ∧
    (EncodedAs (.fenceI rd rs1 imm) 0x0000100F#32 0x0000707F#32 0x0000707F#32 ∧
      ∃ t, exec (.fenceI rd rs1 imm) s = .next t ∧ PcResult s t (s.pc + 4)) ∧
    (∀ w, w &&& 0x707F#32 = 0x0F#32 ∨ w &&& 0x707F#32 = 0x100F#32 →
      ∃ t, execWord w s = .next t ∧ PcResult s t (s.pc + 4))

/-- For every canonical state, rd, rs1, 5-bit immediate and every one of the 4096 CSR indices: exec answers a next
state in which x[rd] is the CSR's old value and the CSR is the source (write), the old value with the mask's
bits set (set) or cleared (clear), the source being the old x[rs1] or the zero-extended immediate; every other
CSR, every other register and all memory is unchanged and pc is 4 further. A zero mask leaves the CSR as it was.
Each is encoded as its rule says. That CSRRWI writes a zero too (R210) and that the source is the old x[rs1] are
the decisions D16 and D14 that the spec marks as its own, log entries 15 and 14. (R203, R204, R205, R206, R207,
R208.) -/
def Obligations.CsrInstructionResults : Prop :=
  ∀ (s : State) (rd rs1 : RegIdx) (u : BitVec 5) (c : CsrIdx), s.canonical = true →
    (EncodedAs (.csrrw rd rs1 c) 0x00001073#32 0x0000707F#32 0x0000707F#32 ∧ ∃ t, exec (.csrrw rd rs1 c) s = .next t ∧
      CsrResult s t rd (readCsr s c) c (readReg s rs1)) ∧
    (EncodedAs (.csrrs rd rs1 c) 0x00002073#32 0x0000707F#32 0x0000707F#32 ∧ ∃ t, exec (.csrrs rd rs1 c) s = .next t ∧
      CsrResult s t rd (readCsr s c) c (readCsr s c ||| readReg s rs1)) ∧
    (EncodedAs (.csrrc rd rs1 c) 0x00003073#32 0x0000707F#32 0x0000707F#32 ∧ ∃ t, exec (.csrrc rd rs1 c) s = .next t ∧
      CsrResult s t rd (readCsr s c) c (readCsr s c &&& ~~~readReg s rs1)) ∧
    (EncodedAs (.csrrwi rd u c) 0x00005073#32 0x0000707F#32 0x0000707F#32 ∧ ∃ t, exec (.csrrwi rd u c) s = .next t ∧
      CsrResult s t rd (readCsr s c) c (BitVec.ofNat 32 u.toNat)) ∧
    (EncodedAs (.csrrsi rd u c) 0x00006073#32 0x0000707F#32 0x0000707F#32 ∧ ∃ t, exec (.csrrsi rd u c) s = .next t ∧
      CsrResult s t rd (readCsr s c) c (readCsr s c ||| BitVec.ofNat 32 u.toNat)) ∧
    (EncodedAs (.csrrci rd u c) 0x00007073#32 0x0000707F#32 0x0000707F#32 ∧ ∃ t, exec (.csrrci rd u c) s = .next t ∧
      CsrResult s t rd (readCsr s c) c (readCsr s c &&& ~~~(BitVec.ofNat 32 u.toNat)))

/-- For every canonical state s, instruction i and next state t: if some CSR c reads differently in t, then i is one
of the six CSR instructions and c is the index it names; and, whatever the CSR file holds, an instruction that
is none of the six does the same in every other way: from s with another CSR file f it answers the next state t
with the file f, or the same event. (R15, R18.) -/
def Obligations.OnlyCsrInstructionsTouchCsrs : Prop :=
  ∀ (s : State) (i : Instr), s.canonical = true →
    (∀ t c, exec i s = .next t → readCsr t c ≠ readCsr s c →
      (∃ rd rs1, i = .csrrw rd rs1 c ∨ i = .csrrs rd rs1 c ∨ i = .csrrc rd rs1 c) ∨
      (∃ rd u, i = .csrrwi rd u c ∨ i = .csrrsi rd u c ∨ i = .csrrci rd u c)) ∧
    (i.mnemonic ∉ ["CSRRW", "CSRRS", "CSRRC", "CSRRWI", "CSRRSI", "CSRRCI"] → ∀ f : CsrFile,
      (∀ t, exec i s = .next t → exec i { s with csrs := f } = .next { t with csrs := f }) ∧
      (∀ e, exec i s = .fault e → exec i { s with csrs := f } = .fault e))

/-- For every canonical state, rd, rs1, rs2, aq and rl: at an address no device owns, where main memory takes the
access, LR.W answers a next state with x[rd] the word there and nothing recorded, and SC.W, with or without an
LR.W before it, one in which the word there is the old x[rs2] and x[rd] is 0; pc is 4 further and nothing else
changes; where it does not, both raise MemoryAccessError. At a device LR.W is exactly one read, SC.W exactly one
write of x[rs2] with x[rd] = 0. LR.W does exactly what lw rd, 0(rs1) does; aq, rl and its rs2 field have no
effect. Each is encoded as its rule says. The success code 0, the access of a device by an atomic and the stop
past the top are the decisions D20, D12 and D7 that the spec marks as its own, log entries 17, 11 and 12; the
word the device returns and the recorded transactions are the model's own, log entry 3. (R224, R225.) -/
def Obligations.LoadReservedAndStoreConditional : Prop :=
  ∀ (s : State) (rd rs1 rs2 : RegIdx) (aq rl : BitVec 1), s.canonical = true →
    (EncodedAs (.lrW rd rs1 rs2 aq rl) 0x1000202F#32 0xF800707F#32 0xF9F0707F#32 ∧
      (Unowned s.cfg (atomicAddr s rs1) → Accessible s.cfg (atomicAddr s rs1) 4 → ∃ t, exec (.lrW rd rs1 rs2 aq rl) s = .next t ∧
        RegResult s t rd (memWord s (atomicAddr s rs1)) (s.pc + 4)) ∧
      (Unowned s.cfg (atomicAddr s rs1) → ¬ Accessible s.cfg (atomicAddr s rs1) 4 →
        exec (.lrW rd rs1 rs2 aq rl) s = .fault .memoryAccessError) ∧
      (∀ k p, OwnedBy s.cfg (atomicAddr s rs1) k p → ∃ v t, exec (.lrW rd rs1 rs2 aq rl) s = .next t ∧
        DeviceMayReturn s v ∧ DeviceResult s t rd v [.read k (atomicAddr s rs1 - p.base) v] 1)) ∧
    (EncodedAs (.scW rd rs1 rs2 aq rl) 0x1800202F#32 0xF800707F#32 0xF800707F#32 ∧
      (Unowned s.cfg (atomicAddr s rs1) → Accessible s.cfg (atomicAddr s rs1) 4 → ∃ t, exec (.scW rd rs1 rs2 aq rl) s = .next t ∧
        AtomicResult s t rd 0 (atomicAddr s rs1) (readReg s rs2)) ∧
      (Unowned s.cfg (atomicAddr s rs1) → ¬ Accessible s.cfg (atomicAddr s rs1) 4 →
        exec (.scW rd rs1 rs2 aq rl) s = .fault .memoryAccessError) ∧
      (∀ k p, OwnedBy s.cfg (atomicAddr s rs1) k p → ∃ v t, exec (.scW rd rs1 rs2 aq rl) s = .next t ∧
        v = readReg s rs2 ∧
        DeviceResult s t rd 0 [.write k (atomicAddr s rs1 - p.base) v] 0)) ∧
    exec (.lrW rd rs1 rs2 aq rl) s = exec (.lw rd rs1 0) s

/-- For every canonical state, rd, rs1, rs2, aq and rl: at an address no device owns, where main memory takes the
access, exec answers a next state in which x[rd] is the old word and the word at the address is the old x[rs2],
the sum modulo 2^32, or the bitwise result; every other byte and register is unchanged and pc is 4 further.
Where it does not, the fault is MemoryAccessError. At a device the AMO is exactly one read of a word v and one
write of the operation's result on v and x[rs2] at the same offset, with x[rd] = v (a v the input list does not
name is the free value of log entry 3). Each is encoded as its rule says. The access of a device by an atomic,
the stop past the top, the access made for x0 too and the old x[rs2] where registers coincide are the decisions
D12, D7, D21 and D14 that the spec marks as its own, log entries 11, 12, 26 and 14; the word the device returns
and the recorded transactions are the model's own, log entry 3. (R226, R227, R228, R229, R230.) -/
def Obligations.AtomicLogicResults : Prop :=
  ∀ (s : State) (rd rs1 rs2 : RegIdx) (aq rl : BitVec 1), s.canonical = true →
    (EncodedAs (.amoswapW rd rs1 rs2 aq rl) 0x0800202F#32 0xF800707F#32 0xF800707F#32 ∧
      (Unowned s.cfg (atomicAddr s rs1) → Accessible s.cfg (atomicAddr s rs1) 4 → ∃ t, exec (.amoswapW rd rs1 rs2 aq rl) s = .next t ∧
        AtomicResult s t rd (memWord s (atomicAddr s rs1)) (atomicAddr s rs1)
          (readReg s rs2)) ∧
      (Unowned s.cfg (atomicAddr s rs1) → ¬ Accessible s.cfg (atomicAddr s rs1) 4 →
        exec (.amoswapW rd rs1 rs2 aq rl) s = .fault .memoryAccessError) ∧
      (∀ k p, OwnedBy s.cfg (atomicAddr s rs1) k p → ∃ v t, exec (.amoswapW rd rs1 rs2 aq rl) s = .next t ∧
        DeviceMayReturn s v ∧ DeviceResult s t rd v
          [.read k (atomicAddr s rs1 - p.base) v, .write k (atomicAddr s rs1 - p.base) (readReg s rs2)] 1)) ∧
    (EncodedAs (.amoaddW rd rs1 rs2 aq rl) 0x0000202F#32 0xF800707F#32 0xF800707F#32 ∧
      (Unowned s.cfg (atomicAddr s rs1) → Accessible s.cfg (atomicAddr s rs1) 4 → ∃ t, exec (.amoaddW rd rs1 rs2 aq rl) s = .next t ∧
        AtomicResult s t rd (memWord s (atomicAddr s rs1)) (atomicAddr s rs1)
          (BitVec.ofNat 32 ((memWord s (atomicAddr s rs1)).toNat + (readReg s rs2).toNat))) ∧
      (Unowned s.cfg (atomicAddr s rs1) → ¬ Accessible s.cfg (atomicAddr s rs1) 4 →
        exec (.amoaddW rd rs1 rs2 aq rl) s = .fault .memoryAccessError) ∧
      (∀ k p, OwnedBy s.cfg (atomicAddr s rs1) k p → ∃ v t, exec (.amoaddW rd rs1 rs2 aq rl) s = .next t ∧
        DeviceMayReturn s v ∧ DeviceResult s t rd v
          [.read k (atomicAddr s rs1 - p.base) v, .write k (atomicAddr s rs1 - p.base) (BitVec.ofNat 32 ((v).toNat + (readReg s rs2).toNat))] 1)) ∧
    (EncodedAs (.amoxorW rd rs1 rs2 aq rl) 0x2000202F#32 0xF800707F#32 0xF800707F#32 ∧
      (Unowned s.cfg (atomicAddr s rs1) → Accessible s.cfg (atomicAddr s rs1) 4 → ∃ t, exec (.amoxorW rd rs1 rs2 aq rl) s = .next t ∧
        AtomicResult s t rd (memWord s (atomicAddr s rs1)) (atomicAddr s rs1)
          (memWord s (atomicAddr s rs1) ^^^ readReg s rs2)) ∧
      (Unowned s.cfg (atomicAddr s rs1) → ¬ Accessible s.cfg (atomicAddr s rs1) 4 →
        exec (.amoxorW rd rs1 rs2 aq rl) s = .fault .memoryAccessError) ∧
      (∀ k p, OwnedBy s.cfg (atomicAddr s rs1) k p → ∃ v t, exec (.amoxorW rd rs1 rs2 aq rl) s = .next t ∧
        DeviceMayReturn s v ∧ DeviceResult s t rd v
          [.read k (atomicAddr s rs1 - p.base) v, .write k (atomicAddr s rs1 - p.base) (v ^^^ readReg s rs2)] 1)) ∧
    (EncodedAs (.amoandW rd rs1 rs2 aq rl) 0x6000202F#32 0xF800707F#32 0xF800707F#32 ∧
      (Unowned s.cfg (atomicAddr s rs1) → Accessible s.cfg (atomicAddr s rs1) 4 → ∃ t, exec (.amoandW rd rs1 rs2 aq rl) s = .next t ∧
        AtomicResult s t rd (memWord s (atomicAddr s rs1)) (atomicAddr s rs1)
          (memWord s (atomicAddr s rs1) &&& readReg s rs2)) ∧
      (Unowned s.cfg (atomicAddr s rs1) → ¬ Accessible s.cfg (atomicAddr s rs1) 4 →
        exec (.amoandW rd rs1 rs2 aq rl) s = .fault .memoryAccessError) ∧
      (∀ k p, OwnedBy s.cfg (atomicAddr s rs1) k p → ∃ v t, exec (.amoandW rd rs1 rs2 aq rl) s = .next t ∧
        DeviceMayReturn s v ∧ DeviceResult s t rd v
          [.read k (atomicAddr s rs1 - p.base) v, .write k (atomicAddr s rs1 - p.base) (v &&& readReg s rs2)] 1)) ∧
    (EncodedAs (.amoorW rd rs1 rs2 aq rl) 0x4000202F#32 0xF800707F#32 0xF800707F#32 ∧
      (Unowned s.cfg (atomicAddr s rs1) → Accessible s.cfg (atomicAddr s rs1) 4 → ∃ t, exec (.amoorW rd rs1 rs2 aq rl) s = .next t ∧
        AtomicResult s t rd (memWord s (atomicAddr s rs1)) (atomicAddr s rs1)
          (memWord s (atomicAddr s rs1) ||| readReg s rs2)) ∧
      (Unowned s.cfg (atomicAddr s rs1) → ¬ Accessible s.cfg (atomicAddr s rs1) 4 →
        exec (.amoorW rd rs1 rs2 aq rl) s = .fault .memoryAccessError) ∧
      (∀ k p, OwnedBy s.cfg (atomicAddr s rs1) k p → ∃ v t, exec (.amoorW rd rs1 rs2 aq rl) s = .next t ∧
        DeviceMayReturn s v ∧ DeviceResult s t rd v
          [.read k (atomicAddr s rs1 - p.base) v, .write k (atomicAddr s rs1 - p.base) (v ||| readReg s rs2)] 1))

/-- For every canonical state, rd, rs1, rs2, aq and rl: at an address no device owns, where main memory takes the
access, exec answers a next state in which x[rd] is the old word and the word at the address is the smaller or
larger of it and the old x[rs2], signed or unsigned; every other byte and register is unchanged and pc is 4
further. Where it does not, the fault is MemoryAccessError. At a device the AMO is exactly one read of a word v
and one write of the operation's result on v and x[rs2] at the same offset, with x[rd] = v (a v the input list
does not name is the free value of log entry 3). Each is encoded as its rule says. The access of a device by an
atomic, the stop past the top, the access made for x0 too and the old x[rs2] where registers coincide are the
decisions D12, D7, D21 and D14 that the spec marks as its own, log entries 11, 12, 26 and 14; the word the
device returns and the recorded transactions are the model's own, log entry 3. (R231, R232, R233, R235.) -/
def Obligations.AtomicMinMaxResults : Prop :=
  ∀ (s : State) (rd rs1 rs2 : RegIdx) (aq rl : BitVec 1), s.canonical = true →
    (EncodedAs (.amominW rd rs1 rs2 aq rl) 0x8000202F#32 0xF800707F#32 0xF800707F#32 ∧
      (Unowned s.cfg (atomicAddr s rs1) → Accessible s.cfg (atomicAddr s rs1) 4 → ∃ t, exec (.amominW rd rs1 rs2 aq rl) s = .next t ∧
        AtomicResult s t rd (memWord s (atomicAddr s rs1)) (atomicAddr s rs1)
          (BitVec.ofInt 32 (min (memWord s (atomicAddr s rs1)).toInt (readReg s rs2).toInt))) ∧
      (Unowned s.cfg (atomicAddr s rs1) → ¬ Accessible s.cfg (atomicAddr s rs1) 4 →
        exec (.amominW rd rs1 rs2 aq rl) s = .fault .memoryAccessError) ∧
      (∀ k p, OwnedBy s.cfg (atomicAddr s rs1) k p → ∃ v t, exec (.amominW rd rs1 rs2 aq rl) s = .next t ∧
        DeviceMayReturn s v ∧ DeviceResult s t rd v
          [.read k (atomicAddr s rs1 - p.base) v, .write k (atomicAddr s rs1 - p.base) (BitVec.ofInt 32 (min (v).toInt (readReg s rs2).toInt))] 1)) ∧
    (EncodedAs (.amomaxW rd rs1 rs2 aq rl) 0xA000202F#32 0xF800707F#32 0xF800707F#32 ∧
      (Unowned s.cfg (atomicAddr s rs1) → Accessible s.cfg (atomicAddr s rs1) 4 → ∃ t, exec (.amomaxW rd rs1 rs2 aq rl) s = .next t ∧
        AtomicResult s t rd (memWord s (atomicAddr s rs1)) (atomicAddr s rs1)
          (BitVec.ofInt 32 (max (memWord s (atomicAddr s rs1)).toInt (readReg s rs2).toInt))) ∧
      (Unowned s.cfg (atomicAddr s rs1) → ¬ Accessible s.cfg (atomicAddr s rs1) 4 →
        exec (.amomaxW rd rs1 rs2 aq rl) s = .fault .memoryAccessError) ∧
      (∀ k p, OwnedBy s.cfg (atomicAddr s rs1) k p → ∃ v t, exec (.amomaxW rd rs1 rs2 aq rl) s = .next t ∧
        DeviceMayReturn s v ∧ DeviceResult s t rd v
          [.read k (atomicAddr s rs1 - p.base) v, .write k (atomicAddr s rs1 - p.base) (BitVec.ofInt 32 (max (v).toInt (readReg s rs2).toInt))] 1)) ∧
    (EncodedAs (.amominuW rd rs1 rs2 aq rl) 0xC000202F#32 0xF800707F#32 0xF800707F#32 ∧
      (Unowned s.cfg (atomicAddr s rs1) → Accessible s.cfg (atomicAddr s rs1) 4 → ∃ t, exec (.amominuW rd rs1 rs2 aq rl) s = .next t ∧
        AtomicResult s t rd (memWord s (atomicAddr s rs1)) (atomicAddr s rs1)
          (BitVec.ofNat 32 (min (memWord s (atomicAddr s rs1)).toNat (readReg s rs2).toNat))) ∧
      (Unowned s.cfg (atomicAddr s rs1) → ¬ Accessible s.cfg (atomicAddr s rs1) 4 →
        exec (.amominuW rd rs1 rs2 aq rl) s = .fault .memoryAccessError) ∧
      (∀ k p, OwnedBy s.cfg (atomicAddr s rs1) k p → ∃ v t, exec (.amominuW rd rs1 rs2 aq rl) s = .next t ∧
        DeviceMayReturn s v ∧ DeviceResult s t rd v
          [.read k (atomicAddr s rs1 - p.base) v, .write k (atomicAddr s rs1 - p.base) (BitVec.ofNat 32 (min (v).toNat (readReg s rs2).toNat))] 1)) ∧
    (EncodedAs (.amomaxuW rd rs1 rs2 aq rl) 0xE000202F#32 0xF800707F#32 0xF800707F#32 ∧
      (Unowned s.cfg (atomicAddr s rs1) → Accessible s.cfg (atomicAddr s rs1) 4 → ∃ t, exec (.amomaxuW rd rs1 rs2 aq rl) s = .next t ∧
        AtomicResult s t rd (memWord s (atomicAddr s rs1)) (atomicAddr s rs1)
          (BitVec.ofNat 32 (max (memWord s (atomicAddr s rs1)).toNat (readReg s rs2).toNat))) ∧
      (Unowned s.cfg (atomicAddr s rs1) → ¬ Accessible s.cfg (atomicAddr s rs1) 4 →
        exec (.amomaxuW rd rs1 rs2 aq rl) s = .fault .memoryAccessError) ∧
      (∀ k p, OwnedBy s.cfg (atomicAddr s rs1) k p → ∃ v t, exec (.amomaxuW rd rs1 rs2 aq rl) s = .next t ∧
        DeviceMayReturn s v ∧ DeviceResult s t rd v
          [.read k (atomicAddr s rs1 - p.base) v, .write k (atomicAddr s rs1 - p.base) (BitVec.ofNat 32 (max (v).toNat (readReg s rs2).toNat))] 1))

/-- For every state and any two words with opcode 0x2F that agree outside bits 26 and 25: the machine does the same
with both, under either setting of the reserved fields. (R221.) -/
def Obligations.AcquireReleaseBitsHaveNoEffect : Prop :=
  ∀ (s : State) (w u : Word), w &&& 0x7F#32 = 0x2F#32 → w &&& 0xF9FFFFFF#32 = u &&& 0xF9FFFFFF#32 →
    execWord w s = execWord u s

/-- For every state and instruction i whose reserved fields are not zero: under STRICT_RESERVED_FIELDS its word is
refused with UnsupportedInstruction; under the default, SRAI does what it does with zero unchecked bits, LR.W
what it does with rs2 = 0, and ECALL, EBREAK and MRET what they do with rd = rs1 = 0. The whole statement is the
decision D15, which R73 marks as the spec's own, log entry 7. (R73, R109, R224, R202.) -/
def Obligations.UncheckedFieldsHaveNoEffect : Prop :=
  ∀ (s : State) (rd rs1 r q : RegIdx) (shamt : BitVec 5) (u : BitVec 6) (aq rl : BitVec 1),
    (s.cfg.strictReservedFields = true → ∀ i : Instr, i.reservedZero = false →
      execWord (encode i) s = .fault .unsupportedInstruction) ∧
    (s.cfg.strictReservedFields = false →
      execWord (encode (.srai rd rs1 shamt u)) s = execWord (encode (.srai rd rs1 shamt 0)) s ∧
      execWord (encode (.lrW rd rs1 r aq rl)) s = execWord (encode (.lrW rd rs1 0 aq rl)) s ∧
      execWord (encode (.ecall r q)) s = execWord 0x00000073#32 s ∧
      execWord (encode (.ebreak r q)) s = execWord 0x00100073#32 s ∧
      execWord (encode (.mret r q)) s = execWord 0x30200073#32 s)

/-- For every state s, instruction i and next state t, and every register r: if r reads differently in t then i has
a destination field and it is r (and r is not x0); if main memory differs in t then i is SB, SH, SW, SC.W or an
AMO. (R10, R11, R46, R24.) -/
def Obligations.InstructionsWriteOnlyTheirDestination : Prop :=
  ∀ (s : State) (i : Instr) (t : State), exec i s = .next t →
    (∀ r, readReg t r ≠ readReg s r → r ≠ 0 ∧ fieldRd (encode i) = r ∧
      i.mnemonic ∉ ["SB", "SH", "SW", "BEQ", "BNE", "BLT", "BGE", "BLTU", "BGEU", "MRET", "FENCE", "FENCE.I"]) ∧
    (t.mem ≠ s.mem → i.mnemonic ∈ ["SB", "SH", "SW", "SC.W", "AMOSWAP.W", "AMOADD.W", "AMOXOR.W", "AMOAND.W",
      "AMOOR.W", "AMOMIN.W", "AMOMAX.W", "AMOMINU.W", "AMOMAXU.W"])

/-- For every state s, instruction i and next state t: pc of t is pc + 4 modulo 2^32 unless i is JAL, JALR, or one
of the six branches; for a branch pc of t is pc + 4 or pc + the sign-extended offset. (R62, R13.) -/
def Obligations.OnlyTransfersLeaveTheSequence : Prop :=
  ∀ (s : State) (i : Instr) (t : State), exec i s = .next t →
    t.pc = BitVec.ofNat 32 (s.pc.toNat + 4) ∨ i.mnemonic = "JAL" ∨ i.mnemonic = "JALR" ∨
    ∃ rs1 rs2 o, t.pc = BitVec.ofInt 32 ((s.pc.toNat : Int) + o.toInt) ∧
      (i = .beq rs1 rs2 o ∨ i = .bne rs1 rs2 o ∨ i = .blt rs1 rs2 o ∨ i = .bge rs1 rs2 o ∨
        i = .bltu rs1 rs2 o ∨ i = .bgeu rs1 rs2 o)

/-- For every state: the state after a stopped step has the registers, CSRs, pc, memory, count and parameters of the
state before it; the peripheral port is the same too, unless pc is a multiple of 4 that a device owns, and then
exactly one read transaction of that device at offset pc - base was added. That a stopped step leaves the rest
of the state unchanged is the decision D13, which R250 and R38 mark as the spec's own, and that an event carries
no state, so that stoppedState stands for the state after it, is the model's, log entry 6. (R250, R38.) -/
def Obligations.StoppedStepChangedNothing : Prop :=
  ∀ s : State,
    (stoppedState s).regs = s.regs ∧ (stoppedState s).pc = s.pc ∧ (stoppedState s).csrs = s.csrs ∧
    (stoppedState s).mem = s.mem ∧ SameRest s (stoppedState s) ∧
    (s.pc.toNat % 4 ≠ 0 ∨ Unowned s.cfg s.pc → stoppedState s = s) ∧
    (s.pc.toNat % 4 = 0 → ∀ k p, OwnedBy s.cfg s.pc k p →
      ∃ w, DeviceMayReturn s w ∧ PortTook s (stoppedState s) [.read k (s.pc - p.base) w] 1)

/-- For every state s whose memory lists only existing addresses, rising, with no fill byte, and whose CSR file
lists only indices below 4096, rising, with no zero: if step s answers t then t is in the same form. (The
canonical form is the model's representation, so that equal memories are equal data.) (R24, R31, R32, R15, R34.) -/
def Obligations.EveryStepKeepsTheStateCanonical : Prop :=
  ∀ s t : State, s.canonical = true → step s = .next t → t.canonical = true

/-- State.reset is canonical, and so is the state that boot answers for any configuration, entry point, segments and
device inputs. The canonical form is the model's own representation and no rule of the spec, log entry 24; R285
and R282 give the states it is said of. (R285, R282.) -/
def Obligations.ResetAndBootStatesAreCanonical : Prop :=
  State.reset.canonical = true ∧
    ∀ c entry segs inputs s, boot c entry segs inputs = .ok s → s.canonical = true

/-- For every state whose pc is even, if step answers a next state then its pc is even: branch and JAL offsets are
multiples of 2 and JALR clears bit 0. (A target may be 2 modulo 4; the next step then faults at its fetch.)
(R14, R188, R195.) -/
def Obligations.EveryStepKeepsPcEven : Prop :=
  ∀ s t : State, s.pcEven = true → step s = .next t → t.pcEven = true

/-- State.reset has an even pc (its value is the model's choice, log entry 1), and the state boot answers has an
even pc whenever the entry point is even. (R14, R281.) -/
def Obligations.ResetPcIsEven : Prop :=
  State.reset.pcEven = true ∧
    ∀ c entry segs inputs s, boot c entry segs inputs = .ok s → entry.toNat % 2 = 0 → s.pcEven = true

/-- For every state, branch, JAL or JALR i and next state t: exec i answers a next state; pc of t is the target of a
taken branch, of JAL or of JALR, and pc + 4 for a branch that is not taken, which stays a multiple of 4 if pc
was one, whatever the branch's target; JAL and JALR have written the link; if pc of t is not a multiple of 4 the
next step is the fault MemoryAccessError, and the stopped state still has that pc. A jump to never-written
sparse memory that no device owns succeeds and the following step raises UnsupportedInstruction; one outside a
dense memory raises MemoryAccessError at the following fetch. That no transfer checks its target and that the
misaligned fetch raises this fault are the decisions D19 and D4 that the spec marks as its own, log entries 19
and 10. (R195, R188, R192, R193, R60.) -/
def Obligations.MisalignedTargetFaultsAtTheNextFetch : Prop :=
  ∀ (s t : State) (i : Instr),
    (∃ rs1 rs2 o, i = .beq rs1 rs2 o ∨ i = .bne rs1 rs2 o ∨ i = .blt rs1 rs2 o ∨ i = .bge rs1 rs2 o ∨
      i = .bltu rs1 rs2 o ∨ i = .bgeu rs1 rs2 o) ∨ (∃ rd o, i = .jal rd o) ∨ (∃ rd rs1 imm, i = .jalr rd rs1 imm) →
    (∃ u, exec i s = .next u) ∧
    (exec i s = .next t →
      (∀ rs1 rs2 o,
        (i = .beq rs1 rs2 o → t.pc = if readReg s rs1 = readReg s rs2 then BitVec.ofInt 32 ((s.pc.toNat : Int) + o.toInt) else s.pc + 4) ∧
        (i = .bne rs1 rs2 o → t.pc = if readReg s rs1 ≠ readReg s rs2 then BitVec.ofInt 32 ((s.pc.toNat : Int) + o.toInt) else s.pc + 4) ∧
        (i = .blt rs1 rs2 o → t.pc = if (readReg s rs1).toInt < (readReg s rs2).toInt then BitVec.ofInt 32 ((s.pc.toNat : Int) + o.toInt) else s.pc + 4) ∧
        (i = .bge rs1 rs2 o → t.pc = if (readReg s rs2).toInt ≤ (readReg s rs1).toInt then BitVec.ofInt 32 ((s.pc.toNat : Int) + o.toInt) else s.pc + 4) ∧
        (i = .bltu rs1 rs2 o → t.pc = if (readReg s rs1).toNat < (readReg s rs2).toNat then BitVec.ofInt 32 ((s.pc.toNat : Int) + o.toInt) else s.pc + 4) ∧
        (i = .bgeu rs1 rs2 o → t.pc = if (readReg s rs2).toNat ≤ (readReg s rs1).toNat then BitVec.ofInt 32 ((s.pc.toNat : Int) + o.toInt) else s.pc + 4)) ∧
      (∀ rd o, i = .jal rd o → t.pc = BitVec.ofInt 32 ((s.pc.toNat : Int) + o.toInt)) ∧
      (∀ rd rs1 imm, i = .jalr rd rs1 imm →
        t.pc = BitVec.ofInt 32 ((readReg s rs1).toInt + imm.toInt) &&& 0xFFFFFFFE#32) ∧
      (s.pc.toNat % 4 = 0 → t.pc = s.pc + 4 → t.pc.toNat % 4 = 0) ∧
      (∀ rd, (∃ o, i = .jal rd o) ∨ (∃ rs1 imm, i = .jalr rd rs1 imm) →
        readReg t rd = (if rd = 0 then 0 else s.pc + 4)) ∧
      (t.pc.toNat % 4 ≠ 0 → step t = .fault .memoryAccessError ∧ (stoppedState t).pc = t.pc) ∧
      (t.pc.toNat % 4 = 0 → Unowned t.cfg t.pc →
        (t.cfg.memBacking = .sparse → (∀ k < 4, readByte t (t.pc.toNat + k) = 0xFF#8) →
          step t = .fault .unsupportedInstruction) ∧
        (¬ Accessible t.cfg t.pc 4 → step t = .fault .memoryAccessError)))

/-- For every canonical state that executes SW whose effective address is pc + 4, a multiple of 4 that no device
owns and main memory takes: the store answers a next state t, and Step() at t decodes and executes the stored
word x[rs2], with no FENCE.I in between. R50 marks this as derived by the spec from R49 and R60. (R50, R49,
R60.) -/
def Obligations.StoredInstructionIsFetchedNext : Prop :=
  ∀ (s : State) (rs1 rs2 : RegIdx) (imm : BitVec 12), s.canonical = true →
    storeAddr s rs1 imm = s.pc + 4 → s.pc.toNat % 4 = 0 → Unowned s.cfg (s.pc + 4) → Accessible s.cfg (s.pc + 4) 4 →
    ∃ t, exec (.sw rs1 rs2 imm) s = .next t ∧ engineStep t = execWord (readReg s rs2) t

/-- For every limit n and state s: the run from s with count 0 has taken k steps that continued, reaching u with
count k, and then stopped: at the limit with k = n and final state u; or, with k < n, at an ECALL with count k +
1, at UnsupportedInstruction or at MemoryAccessError with count k; the final registers, CSRs, pc and memory are
those of u. (The peripheral port may have taken the one read of a fetch, R250.) (R262, R263, R264, R265, R266,
R267, R268.) -/
def Obligations.RunStopsAsTheTableSays : Prop :=
  ∀ (n : Nat) (s : State), ∃ (k : Nat) (u : State),
    Host.Core.run core k { s with count := 0 } = .next u ∧ u.count = k ∧
    (runLimited n s).final.regs = u.regs ∧ (runLimited n s).final.pc = u.pc ∧
    (runLimited n s).final.csrs = u.csrs ∧ (runLimited n s).final.mem = u.mem ∧
    (((runLimited n s).stop = .stopLimit ∧ k = n ∧ (runLimited n s).final = u) ∨
     ((runLimited n s).stop = .stopEcall ∧ k < n ∧ step u = .fault .ecallTermination ∧
       (runLimited n s).final.count = k + 1) ∨
     ((runLimited n s).stop = .stopUnsupported ∧ k < n ∧ step u = .fault .unsupportedInstruction ∧
       (runLimited n s).final.count = k) ∨
     ((runLimited n s).stop = .errorMemoryAccess ∧ k < n ∧ step u = .fault .memoryAccessError ∧
       (runLimited n s).final.count = k))

/-- For every state s: if a run with limit n stops for any reason but the limit, then the run with no limit ends
with the same result; if the run with no limit ends with r then every large enough limit gives r, and r is never
a limit stop. (R263, R267.) -/
def Obligations.LimitOnlyCutsTheUnlimitedRun : Prop :=
  ∀ (s : State) (r : RunResult),
    (∀ n, runLimited n s = r → r.stop ≠ .stopLimit → RunsTo s r) ∧
    (RunsTo s r → r.stop ≠ .stopLimit ∧ ∃ m, ∀ n, m ≤ n → runLimited n s = r)

/-- For every run result: a stop other than an ECALL is Unknown; an ECALL stop with x17 not 93 is Unknown, with x17
= 93 and x3 not 1 it is Fail with payload x10, with x17 = 93, x3 = 1 and x10 = 0 it is Pass, and with x17 = 93,
x3 = 1 and x10 not 0 it is Unknown. The verdict is Pass in that one case only. The numbers of the three
registers and the nested reading are the decision D27 that the spec marks as its own, log entry 21. (R292.) -/
def Obligations.ClassificationOfTheFinalRegisters : Prop :=
  ∀ r : RunResult, let x := readReg r.final
    (r.stop ≠ .stopEcall ∨ x 17 ≠ 93 → classify r = .unknown) ∧
    (r.stop = .stopEcall → x 17 = 93 → x 3 ≠ 1 → classify r = .fail (x 10)) ∧
    (r.stop = .stopEcall → x 17 = 93 → x 3 = 1 → x 10 ≠ 0 → classify r = .unknown) ∧
    (classify r = .pass ↔ r.stop = .stopEcall ∧ x 17 = 93 ∧ x 3 = 1 ∧ x 10 = 0)

/-- For every state, rd and 32-bit constant v: running the expansion of li rd, v leaves x[rd] = v, and pc 4 further
for each of its instructions; la rd leaves pc + v and pc 8 further; call jumps to pc + v with bit 0 cleared and
leaves the address after its two instructions in x1; tail jumps to the same target and changes no register but
x6. No CSR, byte, device transaction, parameter or count changes. (The expansions are general knowledge the spec
adopts, log entry 18.) (R78, R68, R64.) -/
def Obligations.PseudoInstructionsReachTheirConstants : Prop :=
  ∀ (s : State) (rd : RegIdx) (v : Word),
    (∃ t, execAll (Pseudo.expand (.li rd v)) s = .next t ∧ WritesReg s t rd v ∧
      t.pc = s.pc + BitVec.ofNat 32 (4 * (Pseudo.expand (.li rd v)).length) ∧ SameCsrs s t ∧ SameBytes s t ∧
      SamePort s t ∧ SameRest s t) ∧
    (∃ t, execAll (Pseudo.expand (.la rd v)) s = .next t ∧ RegResult s t rd (s.pc + v) (s.pc + 8)) ∧
    (∃ t, execAll (Pseudo.expand (.call v)) s = .next t ∧
      RegResult s t 1 (s.pc + 8) ((s.pc + v) &&& 0xFFFFFFFE#32)) ∧
    (∃ t, execAll (Pseudo.expand (.tail v)) s = .next t ∧ (∀ r, r ≠ 6 → readReg t r = readReg s r) ∧
      t.pc = (s.pc + v) &&& 0xFFFFFFFE#32 ∧ SameCsrs s t ∧ SameBytes s t ∧ SamePort s t ∧ SameRest s t)
end

