-- ==== Sys2Proof/Laws/Sparse.lean ====
section
/-! SUPPORT. The laws of sparse maps: what is read after a set, the canonical form, and that two maps in canonical form
that read the same are the same list. -/

namespace Sys2Proof.Machine

@[simp] theorem sparseGet_nil {α : Type} (d : α) (k : Nat) : sparseGet d k [] = d := rfl

theorem sparseGet_cons_entry {α : Type} (d : α) (k j : Nat) (v : α) (l : List (Nat × α)) :
    sparseGet d k ((j, v) :: l) = if j = k then v else sparseGet d k l := rfl

variable {α : Type} [DecidableEq α]

theorem sparseWf_cons {d : α} {lo k : Nat} {v : α} {l : List (Nat × α)} :
    sparseWf d lo ((k, v) :: l) = true ↔ lo ≤ k ∧ v ≠ d ∧ sparseWf d (k + 1) l = true := by
  simp [sparseWf, and_assoc]

/-- A lower bound may be lowered. -/
theorem sparseWf_mono {d : α} {lo lo' : Nat} {l : List (Nat × α)} (h : lo' ≤ lo) (hw : sparseWf d lo l = true) :
    sparseWf d lo' l = true := by
  cases l with
  | nil => rfl
  | cons e l => obtain ⟨h1, h2⟩ := sparseWf_cons.1 hw; exact sparseWf_cons.2 ⟨h.trans h1, h2⟩

/-- A key below the bound is not listed. -/
theorem sparseGet_below {d : α} {lo k : Nat} {l : List (Nat × α)} (hw : sparseWf d lo l = true) (h : k < lo) :
    sparseGet d k l = d := by
  induction l generalizing lo with
  | nil => rfl
  | cons e l ih =>
    obtain ⟨j, v⟩ := e
    obtain ⟨h1, -, h3⟩ := sparseWf_cons.1 hw
    rw [sparseGet, if_neg (by omega)]
    exact ih h3 (by omega)

theorem sparseGet_sparseCons {d : α} {k j lo : Nat} {v : α} {l : List (Nat × α)} (hw : sparseWf d lo l = true)
    (h : k < lo) : sparseGet d j (sparseCons d k v l) = if j = k then v else sparseGet d j l := by
  unfold sparseCons
  split
  · next hv =>
    split
    · next hj => rw [hj, sparseGet_below hw h, hv]
    · rfl
  · simp only [sparseGet_cons_entry, eq_comm]

theorem sparseWf_sparseCons {d : α} {lo k : Nat} {v : α} {l : List (Nat × α)} (h : lo ≤ k)
    (hw : sparseWf d (k + 1) l = true) : sparseWf d lo (sparseCons d k v l) = true := by
  unfold sparseCons
  split
  · exact sparseWf_mono (by omega) hw
  · next hv => exact sparseWf_cons.2 ⟨h, hv, hw⟩

/-- A set keeps the canonical form. -/
theorem sparseWf_sparseSet {d : α} {lo k : Nat} (v : α) {l : List (Nat × α)} (h : lo ≤ k)
    (hw : sparseWf d lo l = true) : sparseWf d lo (sparseSet d k v l) = true := by
  induction l generalizing lo with
  | nil => exact sparseWf_sparseCons h rfl
  | cons e l ih =>
    obtain ⟨j, u⟩ := e
    obtain ⟨h1, h2, h3⟩ := sparseWf_cons.1 hw
    unfold sparseSet
    split
    · next hlt => exact sparseWf_sparseCons h (sparseWf_cons.2 ⟨hlt, h2, h3⟩)
    · split
      · next he => exact sparseWf_sparseCons h (he ▸ h3)
      · exact sparseWf_cons.2 ⟨h1, h2, ih (by omega) h3⟩

/-- What is read after a set: the new value at the key, and what stood before everywhere else. -/
theorem sparseGet_sparseSet {d : α} {lo k j : Nat} {v : α} {l : List (Nat × α)} (hw : sparseWf d lo l = true) :
    sparseGet d j (sparseSet d k v l) = if j = k then v else sparseGet d j l := by
  induction l generalizing lo with
  | nil => exact sparseGet_sparseCons (lo := k + 1) rfl (by omega)
  | cons e l ih =>
    obtain ⟨i, u⟩ := e
    obtain ⟨h1, h2, h3⟩ := sparseWf_cons.1 hw
    unfold sparseSet
    split
    · next hlt => exact sparseGet_sparseCons (lo := i) (sparseWf_cons.2 ⟨le_rfl, h2, h3⟩) hlt
    · split
      · next he =>
        subst he
        rw [sparseGet_sparseCons h3 (by omega), sparseGet_cons_entry]
        by_cases hj : j = k
        · rw [if_pos hj, if_pos hj]
        · rw [if_neg hj, if_neg hj, if_neg (Ne.symm hj)]
      · rw [sparseGet_cons_entry, ih h3, sparseGet_cons_entry]
        by_cases hj : i = j
        · rw [if_pos hj, if_pos hj, if_neg (by omega)]
        · rw [if_neg hj, if_neg hj]

/-- The keys after a set are the old ones and the key set. -/
theorem mem_sparseSet {d : α} {k : Nat} {v : α} {l : List (Nat × α)} {e : Nat × α} (h : e ∈ sparseSet d k v l) :
    e = (k, v) ∨ e ∈ l := by
  have hc : ∀ l', e ∈ sparseCons d k v l' → e = (k, v) ∨ e ∈ l' := by
    intro l' h'
    unfold sparseCons at h'
    split at h' <;> simp_all
  induction l with
  | nil => exact hc _ h
  | cons f l ih =>
    obtain ⟨i, u⟩ := f
    unfold sparseSet at h
    split at h
    · exact hc _ h
    · split at h
      · rcases hc _ h with h | h <;> simp [h]
      · rcases List.mem_cons.1 h with h | h
        · simp [h]
        · rcases ih h with h | h <;> simp [h]

/-- Two maps in canonical form that read the same everywhere are the same list. -/
theorem sparse_ext {d : α} {lo : Nat} {l m : List (Nat × α)} (hl : sparseWf d lo l = true)
    (hm : sparseWf d lo m = true) (h : ∀ k, sparseGet d k l = sparseGet d k m) : l = m := by
  induction l generalizing lo m with
  | nil =>
    cases m with
    | nil => rfl
    | cons e m =>
      obtain ⟨j, v⟩ := e
      have hv := (sparseWf_cons.1 hm).2.1
      have := h j
      simp [sparseGet_cons_entry] at this
      exact absurd this.symm hv
  | cons e l ih =>
    obtain ⟨i, u⟩ := e
    obtain ⟨h1, h2, h3⟩ := sparseWf_cons.1 hl
    cases m with
    | nil =>
      have := h i
      simp [sparseGet_cons_entry] at this
      exact absurd this h2
    | cons f m =>
      obtain ⟨j, v⟩ := f
      obtain ⟨g1, g2, g3⟩ := sparseWf_cons.1 hm
      have hij : i = j := by
        rcases Nat.lt_trichotomy i j with hlt | he | hgt
        · have := h i
          rw [sparseGet_cons_entry, if_pos rfl, sparseGet_cons_entry, if_neg (by omega),
            sparseGet_below g3 (by omega)] at this
          exact absurd this h2
        · exact he
        · have := h j
          rw [sparseGet_cons_entry, if_neg (by omega), sparseGet_below h3 (by omega), sparseGet_cons_entry,
            if_pos rfl] at this
          exact absurd this.symm g2
      subst hij
      have huv : u = v := by have := h i; simpa [sparseGet_cons_entry] using this
      subst huv
      congr 1
      refine ih h3 g3 fun k => ?_
      by_cases hk : i = k
      · rw [← hk, sparseGet_below h3 (by omega), sparseGet_below g3 (by omega)]
      · have := h k
        simpa [sparseGet_cons_entry, hk] using this

/-- Setting a key to what it reads already changes nothing. -/
theorem sparseSet_self {d : α} {k : Nat} {l : List (Nat × α)} (hw : sparseWf d 0 l = true) :
    sparseSet d k (sparseGet d k l) l = l := by
  refine sparse_ext (sparseWf_sparseSet _ (by omega) hw) hw fun j => ?_
  rw [sparseGet_sparseSet hw]
  split <;> simp_all

end Sys2Proof.Machine
end

