-- ==== Sys2Proof/Laws/State.lean ====
section
/-! SUPPORT. What each update of the state leaves in each field: one lemma per field per update, so that no later proof
unfolds a record update. -/

namespace Sys2Proof.Machine

variable (s : State)

/-! ## setPc -/

@[simp] theorem setPc_regs (v : Word) : (setPc s v).regs = s.regs := rfl
@[simp] theorem setPc_pc (v : Word) : (setPc s v).pc = v := rfl
@[simp] theorem setPc_csrs (v : Word) : (setPc s v).csrs = s.csrs := rfl
@[simp] theorem setPc_mem (v : Word) : (setPc s v).mem = s.mem := rfl
@[simp] theorem setPc_count (v : Word) : (setPc s v).count = s.count := rfl
@[simp] theorem setPc_cfg (v : Word) : (setPc s v).cfg = s.cfg := rfl
@[simp] theorem setPc_devIn (v : Word) : (setPc s v).devIn = s.devIn := rfl
@[simp] theorem setPc_devLog (v : Word) : (setPc s v).devLog = s.devLog := rfl

/-! ## advance -/

@[simp] theorem advance_regs : (advance s).regs = s.regs := rfl
@[simp] theorem advance_pc : (advance s).pc = s.pc + 4#32 := rfl
@[simp] theorem advance_csrs : (advance s).csrs = s.csrs := rfl
@[simp] theorem advance_mem : (advance s).mem = s.mem := rfl
@[simp] theorem advance_count : (advance s).count = s.count := rfl
@[simp] theorem advance_cfg : (advance s).cfg = s.cfg := rfl
@[simp] theorem advance_devIn : (advance s).devIn = s.devIn := rfl
@[simp] theorem advance_devLog : (advance s).devLog = s.devLog := rfl

/-! ## writeReg -/

@[simp] theorem writeReg_pc (i : RegIdx) (v : Word) : (writeReg s i v).pc = s.pc := by
  unfold writeReg; split <;> rfl
@[simp] theorem writeReg_csrs (i : RegIdx) (v : Word) : (writeReg s i v).csrs = s.csrs := by
  unfold writeReg; split <;> rfl
@[simp] theorem writeReg_mem (i : RegIdx) (v : Word) : (writeReg s i v).mem = s.mem := by
  unfold writeReg; split <;> rfl
@[simp] theorem writeReg_count (i : RegIdx) (v : Word) : (writeReg s i v).count = s.count := by
  unfold writeReg; split <;> rfl
@[simp] theorem writeReg_cfg (i : RegIdx) (v : Word) : (writeReg s i v).cfg = s.cfg := by
  unfold writeReg; split <;> rfl
@[simp] theorem writeReg_devIn (i : RegIdx) (v : Word) : (writeReg s i v).devIn = s.devIn := by
  unfold writeReg; split <;> rfl
@[simp] theorem writeReg_devLog (i : RegIdx) (v : Word) : (writeReg s i v).devLog = s.devLog := by
  unfold writeReg; split <;> rfl

/-! ## writeCsr -/

@[simp] theorem writeCsr_regs (a : CsrIdx) (v : Word) : (writeCsr s a v).regs = s.regs := rfl
@[simp] theorem writeCsr_pc (a : CsrIdx) (v : Word) : (writeCsr s a v).pc = s.pc := rfl
@[simp] theorem writeCsr_csrs (a : CsrIdx) (v : Word) : (writeCsr s a v).csrs = sparseSet 0#32 a.toNat v s.csrs := rfl
@[simp] theorem writeCsr_mem (a : CsrIdx) (v : Word) : (writeCsr s a v).mem = s.mem := rfl
@[simp] theorem writeCsr_count (a : CsrIdx) (v : Word) : (writeCsr s a v).count = s.count := rfl
@[simp] theorem writeCsr_cfg (a : CsrIdx) (v : Word) : (writeCsr s a v).cfg = s.cfg := rfl
@[simp] theorem writeCsr_devIn (a : CsrIdx) (v : Word) : (writeCsr s a v).devIn = s.devIn := rfl
@[simp] theorem writeCsr_devLog (a : CsrIdx) (v : Word) : (writeCsr s a v).devLog = s.devLog := rfl

/-! ## afterDevRead -/

@[simp] theorem afterDevRead_regs (dev : Nat) (off : Word) : (afterDevRead s dev off).regs = s.regs := rfl
@[simp] theorem afterDevRead_pc (dev : Nat) (off : Word) : (afterDevRead s dev off).pc = s.pc := rfl
@[simp] theorem afterDevRead_csrs (dev : Nat) (off : Word) : (afterDevRead s dev off).csrs = s.csrs := rfl
@[simp] theorem afterDevRead_mem (dev : Nat) (off : Word) : (afterDevRead s dev off).mem = s.mem := rfl
@[simp] theorem afterDevRead_count (dev : Nat) (off : Word) : (afterDevRead s dev off).count = s.count := rfl
@[simp] theorem afterDevRead_cfg (dev : Nat) (off : Word) : (afterDevRead s dev off).cfg = s.cfg := rfl
@[simp] theorem afterDevRead_devIn (dev : Nat) (off : Word) : (afterDevRead s dev off).devIn = s.devIn.tail := rfl
@[simp] theorem afterDevRead_devLog (dev : Nat) (off : Word) : (afterDevRead s dev off).devLog = s.devLog ++ [.read dev off (deviceWord s dev off)] := rfl

/-! ## devWrite -/

@[simp] theorem devWrite_regs (dev : Nat) (off v : Word) : (devWrite s dev off v).regs = s.regs := rfl
@[simp] theorem devWrite_pc (dev : Nat) (off v : Word) : (devWrite s dev off v).pc = s.pc := rfl
@[simp] theorem devWrite_csrs (dev : Nat) (off v : Word) : (devWrite s dev off v).csrs = s.csrs := rfl
@[simp] theorem devWrite_mem (dev : Nat) (off v : Word) : (devWrite s dev off v).mem = s.mem := rfl
@[simp] theorem devWrite_count (dev : Nat) (off v : Word) : (devWrite s dev off v).count = s.count := rfl
@[simp] theorem devWrite_cfg (dev : Nat) (off v : Word) : (devWrite s dev off v).cfg = s.cfg := rfl
@[simp] theorem devWrite_devIn (dev : Nat) (off v : Word) : (devWrite s dev off v).devIn = s.devIn := rfl
@[simp] theorem devWrite_devLog (dev : Nat) (off v : Word) : (devWrite s dev off v).devLog = s.devLog ++ [.write dev off v] := rfl

end Sys2Proof.Machine
end

