-- ==== Sys2Proof/Laws/Regs.lean ====
section
/-! SUPPORT. Reading registers, CSRs and memory bytes after an update. -/

namespace Sys2Proof.Machine

/-! ## Registers -/

/-- x0 reads 0 in every state (R10). -/
@[simp] theorem readReg_zero (s : State) : readReg s 0#5 = 0#32 := rfl

/-- A read depends on the stored registers alone. -/
theorem readReg_congr {s t : State} (h : t.regs = s.regs) (r : RegIdx) : readReg t r = readReg s r := by
  simp [readReg, h]

/-- A register that is not x0 reads its entry. -/
theorem readReg_of_ne_zero (s : State) {i : RegIdx} (h : i ≠ 0) (hlt : i.toNat - 1 < 31) :
    readReg s i = s.regs[i.toNat - 1] := dif_neg h

theorem regIdx_toNat_pos {i : RegIdx} (h : i ≠ 0) : 0 < i.toNat := by
  rcases Nat.eq_zero_or_pos i.toNat with h0 | h0
  · exact absurd (BitVec.eq_of_toNat_eq (by simpa using h0)) h
  · exact h0

/-- What is read after a register write: the value in the register written unless it is x0, and what stood before in
every other (R10, R11). -/
theorem readReg_writeReg_cases (s : State) (i j : RegIdx) (v : Word) :
    readReg (writeReg s i v) j = if j = i then (if i = 0 then 0 else v) else readReg s j := by
  by_cases hi : i = 0
  · by_cases hj : j = i
    · subst hj; subst hi; rfl
    · rw [if_neg hj, writeReg, dif_pos hi]
  · by_cases hj0 : j = 0
    · rw [if_neg (by rintro rfl; exact hi hj0), hj0]; rfl
    · have hi1 := regIdx_toNat_pos hi
      have hj1 := regIdx_toNat_pos hj0
      have hil := i.isLt
      have hjl := j.isLt
      rw [if_neg hi, readReg, dif_neg hj0, readReg, dif_neg hj0, writeReg]
      simp only [dif_neg hi]
      by_cases hji : j = i
      · subst hji; simp
      · have : i.toNat ≠ j.toNat := fun h => hji (BitVec.eq_of_toNat_eq h.symm)
        rw [if_neg hji, Vector.getElem_set_ne]
        omega

@[simp] theorem readReg_setPc (s : State) (v : Word) (r : RegIdx) : readReg (setPc s v) r = readReg s r := rfl
@[simp] theorem readReg_advance (s : State) (r : RegIdx) : readReg (advance s) r = readReg s r := rfl
@[simp] theorem readReg_writeCsr (s : State) (a : CsrIdx) (v : Word) (r : RegIdx) :
    readReg (writeCsr s a v) r = readReg s r := rfl
@[simp] theorem readReg_afterDevRead (s : State) (dev : Nat) (off : Word) (r : RegIdx) :
    readReg (afterDevRead s dev off) r = readReg s r := rfl
@[simp] theorem readReg_devWrite (s : State) (dev : Nat) (off v : Word) (r : RegIdx) :
    readReg (devWrite s dev off v) r = readReg s r := rfl
@[simp] theorem readReg_mem (s : State) (m : Memory) (r : RegIdx) : readReg { s with mem := m } r = readReg s r := rfl
@[simp] theorem readReg_count (s : State) (n : Nat) (r : RegIdx) : readReg { s with count := n } r = readReg s r := rfl

/-! ## CSRs -/

/-- A read depends on the stored CSR file alone. -/
theorem readCsr_congr {s t : State} (h : t.csrs = s.csrs) (a : CsrIdx) : readCsr t a = readCsr s a := by
  simp [readCsr, h]

@[simp] theorem readCsr_setPc (s : State) (v : Word) (a : CsrIdx) : readCsr (setPc s v) a = readCsr s a := rfl
@[simp] theorem readCsr_advance (s : State) (a : CsrIdx) : readCsr (advance s) a = readCsr s a := rfl
@[simp] theorem readCsr_writeReg (s : State) (i : RegIdx) (v : Word) (a : CsrIdx) :
    readCsr (writeReg s i v) a = readCsr s a := readCsr_congr (writeReg_csrs s i v) a

theorem CsrFile.wf_iff (f : CsrFile) :
    CsrFile.wf f = true ↔ sparseWf 0#32 0 f = true ∧ ∀ e ∈ f, e.1 < 4096 := by
  simp [CsrFile.wf]

/-- A CSR write keeps the canonical form. -/
theorem CsrFile.wf_sparseSet {f : CsrFile} (h : CsrFile.wf f = true) (a : CsrIdx) (v : Word) :
    CsrFile.wf (sparseSet 0#32 a.toNat v f) = true := by
  rw [CsrFile.wf_iff] at h ⊢
  refine ⟨sparseWf_sparseSet _ (by omega) h.1, fun e he => ?_⟩
  rcases mem_sparseSet he with rfl | he
  · exact a.isLt
  · exact h.2 e he

/-- What is read after a CSR write (R15). -/
theorem readCsr_writeCsr {s : State} (h : CsrFile.wf s.csrs = true) (a c : CsrIdx) (v : Word) :
    readCsr (writeCsr s a v) c = if c = a then v else readCsr s c := by
  rw [readCsr, writeCsr_csrs, sparseGet_sparseSet ((CsrFile.wf_iff _).1 h).1]
  simp [readCsr, BitVec.toNat_inj]

/-! ## Memory bytes -/

/-- A read of a byte depends on the memory and on the configuration alone. -/
theorem readByte_congr {s t : State} (hm : t.mem = s.mem) (hc : t.cfg = s.cfg) (a : Nat) :
    readByte t a = readByte s a := by simp [readByte, hm, hc]

@[simp] theorem readByte_setPc (s : State) (v : Word) (a : Nat) : readByte (setPc s v) a = readByte s a := rfl
@[simp] theorem readByte_advance (s : State) (a : Nat) : readByte (advance s) a = readByte s a := rfl
@[simp] theorem readByte_writeCsr (s : State) (c : CsrIdx) (v : Word) (a : Nat) :
    readByte (writeCsr s c v) a = readByte s a := rfl
@[simp] theorem readByte_writeReg (s : State) (i : RegIdx) (v : Word) (a : Nat) :
    readByte (writeReg s i v) a = readByte s a := readByte_congr (writeReg_mem s i v) (writeReg_cfg s i v) a

theorem Memory.wf_iff (c : Config) (m : Memory) :
    Memory.wf c m = true ↔ sparseWf (fillByte c) 0 m = true ∧
      ∀ e ∈ m, e.1 < Config.addressSpace ∧ inBacking c e.1 1 = true := by
  simp [Memory.wf]

/-- A byte write at an existing address keeps the canonical form. -/
theorem Memory.wf_write {c : Config} {m : Memory} (h : Memory.wf c m = true) {a : Nat} (b : Byte)
    (ha : a < Config.addressSpace) (hb : inBacking c a 1 = true) : Memory.wf c (Memory.write c a b m) = true := by
  rw [Memory.wf_iff] at h ⊢
  refine ⟨sparseWf_sparseSet _ (by omega) h.1, fun e he => ?_⟩
  rcases mem_sparseSet he with rfl | he
  · exact ⟨ha, hb⟩
  · exact h.2 e he

/-- What a byte reads as after a byte write. -/
theorem sparseGet_memoryWrite {c : Config} {m : Memory} (h : Memory.wf c m = true) (a b : Nat) (v : Byte) :
    sparseGet (fillByte c) b (Memory.write c a v m) = if b = a then v else sparseGet (fillByte c) b m :=
  sparseGet_sparseSet ((Memory.wf_iff _ _).1 h).1

/-- Memories in canonical form that read the same are the same list. -/
theorem Memory.ext_of_wf {c : Config} {m n : Memory} (hm : Memory.wf c m = true) (hn : Memory.wf c n = true)
    (h : ∀ a, sparseGet (fillByte c) a m = sparseGet (fillByte c) a n) : m = n :=
  sparse_ext ((Memory.wf_iff _ _).1 hm).1 ((Memory.wf_iff _ _).1 hn).1 h

end Sys2Proof.Machine
end

