-- ==== Sys2Proof/Laws/Memory.lean ====
section
/-! SUPPORT. Multi-byte accesses of main memory: which succeed, what is read, what a write leaves, and that every
memory operation keeps the canonical form. -/

namespace Sys2Proof.Machine

/-! ## Which accesses main memory takes -/

theorem Width.size_pos (w : Width) : 0 < w.size := by cases w <;> decide

theorem inBacking_iff (c : Config) (a n : Nat) :
    inBacking c a n = true ↔
      ∀ size, c.memBacking = .dense size → 0x80000000 ≤ a ∧ a + n ≤ 0x80000000 + size := by
  unfold inBacking
  cases h : c.memBacking
  · simp
  · simp only [Bool.and_eq_true, decide_eq_true_eq]
    simp [Config.memBase]

/-- Each byte of an access inside the backing is inside the backing. -/
theorem inBacking_byte {c : Config} {a n : Nat} (h : inBacking c a n = true) {i : Nat} (hi : i < n) :
    inBacking c (a + i) 1 = true := by
  rw [inBacking_iff] at h ⊢
  intro size hs
  have := h size hs
  omega

theorem alignedFor_iff (c : Config) (addr : Word) (w : Width) :
    alignedFor c addr w = true ↔ (c.alignPolicy = .strict → w.size ∣ addr.toNat) := by
  unfold alignedFor
  cases h : c.alignPolicy <;> simp [Nat.dvd_iff_mod_eq_zero]

/-- The machine's checks are the three of the rules (R36, R37, R32). -/
theorem memAccessible_iff (c : Config) (addr : Word) (w : Width) :
    memAccessible c addr w = true ↔ Accessible c addr w.size := by
  simp only [memAccessible, Bool.and_eq_true, decide_eq_true_eq, alignedFor_iff, inBacking_iff, and_assoc]
  rfl

/-- MemRead succeeds exactly where the access is possible (R33). -/
theorem memRead_of_accessible {s : State} {addr : Word} {w : Width} (h : Accessible s.cfg addr w.size) :
    memRead s addr w = .ok (readLE s addr.toNat w.size) := if_pos ((memAccessible_iff _ _ _).2 h)

theorem memRead_of_not_accessible {s : State} {addr : Word} {w : Width} (h : ¬ Accessible s.cfg addr w.size) :
    memRead s addr w = .error .memoryAccessError := if_neg (fun e => h ((memAccessible_iff _ _ _).1 e))

/-- MemWrite succeeds exactly where the access is possible (R34). -/
theorem memWrite_of_accessible {s : State} {addr : Word} {w : Width} (v : Word) (h : Accessible s.cfg addr w.size) :
    memWrite s addr w v = .ok { s with mem := writeLE s.cfg addr.toNat w.size v s.mem } :=
  if_pos ((memAccessible_iff _ _ _).2 h)

theorem memWrite_of_not_accessible {s : State} {addr : Word} {w : Width} (v : Word)
    (h : ¬ Accessible s.cfg addr w.size) : memWrite s addr w v = .error .memoryAccessError :=
  if_neg (fun e => h ((memAccessible_iff _ _ _).1 e))

/-! ## What is read -/

/-- A multi-byte read depends on the memory and on the configuration alone. -/
theorem readLE_congr {s t : State} (hm : t.mem = s.mem) (hc : t.cfg = s.cfg) (a n : Nat) :
    readLE t a n = readLE s a n := by
  induction n generalizing a with
  | zero => rfl
  | succ n ih => simp only [readLE, ih, readByte_congr hm hc]

theorem littleEndian_lt (s : State) (a n : Nat) : littleEndian s a n < 2 ^ (8 * n) := by
  induction n generalizing a with
  | zero => simp [littleEndian]
  | succ n ih =>
    have h1 := ih (a + 1)
    have h2 := (readByte s a).isLt
    rw [littleEndian, Nat.mul_succ, Nat.pow_add]
    omega

/-- A read of up to four bytes is the number they spell (R33, R35). -/
theorem readLE_toNat (s : State) (a : Nat) {n : Nat} (hn : n ≤ 4) : (readLE s a n).toNat = littleEndian s a n := by
  induction n generalizing a with
  | zero => rfl
  | succ n ih =>
    have h1 := littleEndian_lt s (a + 1) n
    have h2 := (readByte s a).isLt
    have h3 : 2 ^ (8 * n) ≤ 2 ^ 24 := Nat.pow_le_pow_right (by omega) (by omega)
    rw [readLE, littleEndian, BitVec.toNat_or, BitVec.toNat_shiftLeft, ih _ (by omega), BitVec.toNat_setWidth,
      Nat.mod_eq_of_lt (by omega : (readByte s a).toNat < 2 ^ 32), Nat.shiftLeft_eq,
      Nat.mod_eq_of_lt (by omega), ← Nat.shiftLeft_eq, ← Nat.shiftLeft_add_eq_or_of_lt h2, Nat.shiftLeft_eq]
    omega

theorem readLE_eq_ofNat (s : State) (a : Nat) {n : Nat} (hn : n ≤ 4) :
    readLE s a n = BitVec.ofNat 32 (littleEndian s a n) := by
  have h1 := littleEndian_lt s a n
  have h3 : 2 ^ (8 * n) ≤ 2 ^ 32 := Nat.pow_le_pow_right (by omega) (by omega)
  apply BitVec.eq_of_toNat_eq
  rw [readLE_toNat s a hn, BitVec.toNat_ofNat, Nat.mod_eq_of_lt (by omega)]

theorem readLE_word (s : State) (a : Word) : readLE s a.toNat 4 = memWord s a := readLE_eq_ofNat s _ le_rfl

/-! ## What a write leaves -/

/-- A multi-byte write keeps the canonical form. -/
theorem Memory.wf_writeLE {c : Config} {m : Memory} (h : Memory.wf c m = true) {a n : Nat} (v : Word)
    (ha : a + n ≤ Config.addressSpace) (hb : inBacking c a n = true) : Memory.wf c (writeLE c a n v m) = true := by
  induction n generalizing a v m with
  | zero => exact h
  | succ n ih =>
    refine ih (Memory.wf_write h _ (by omega) (inBacking_byte hb (i := 0) (by omega))) _ (by omega) ?_
    rw [inBacking_iff] at hb ⊢
    intro size hs
    have := hb size hs
    omega

/-- What a byte reads as after a multi-byte write: byte `i` of the value at the `i`-th address written (R34, R35). -/
theorem sparseGet_writeLE {c : Config} {m : Memory} (h : Memory.wf c m = true) {a n : Nat} (v : Word) (b : Nat)
    (ha : a + n ≤ Config.addressSpace) (hb : inBacking c a n = true) :
    sparseGet (fillByte c) b (writeLE c a n v m) =
      if a ≤ b ∧ b < a + n then v.extractLsb' (8 * (b - a)) 8 else sparseGet (fillByte c) b m := by
  induction n generalizing a v m with
  | zero => rw [if_neg (by omega)]; rfl
  | succ n ih =>
    have hb1 : inBacking c a 1 = true := inBacking_byte hb (i := 0) (by omega)
    have hb2 : inBacking c (a + 1) n = true := by
      rw [inBacking_iff] at hb ⊢
      intro size hs
      have := hb size hs
      omega
    rw [writeLE, ih (Memory.wf_write h _ (by omega) hb1) _ (by omega) hb2, sparseGet_memoryWrite h]
    by_cases h0 : b = a
    · subst h0
      rw [if_neg (by omega), if_pos rfl, if_pos (by omega), Nat.sub_self, BitVec.setWidth_eq_extractLsb' (by omega)]
    · by_cases h1 : a + 1 ≤ b ∧ b < a + 1 + n
      · rw [if_pos h1, if_pos (by omega)]
        ext i hi
        simp only [BitVec.getElem_extractLsb', BitVec.getLsbD_ushiftRight]
        congr 1
        omega
      · rw [if_neg h1, if_neg h0, if_neg (by omega)]

/-- What MemWrite leaves (R34). -/
theorem writesBytes_memWrite {s : State} (h : Memory.wf s.cfg s.mem = true) {addr : Word} {w : Width} (v : Word)
    (ha : Accessible s.cfg addr w.size) :
    WritesBytes s { s with mem := writeLE s.cfg addr.toNat w.size v s.mem } addr w.size v :=
  fun b => sparseGet_writeLE h v b ha.2.1 ((inBacking_iff _ _ _).2 ha.2.2)

/-- MemWrite keeps the canonical form. -/
theorem Memory.wf_memWrite {s t : State} {addr v : Word} {w : Width} (h : Memory.wf s.cfg s.mem = true)
    (hw : memWrite s addr w v = .ok t) : Memory.wf t.cfg t.mem = true := by
  by_cases ha : Accessible s.cfg addr w.size
  · rw [memWrite_of_accessible v ha] at hw
    cases hw
    exact Memory.wf_writeLE h v ha.2.1 ((inBacking_iff _ _ _).2 ha.2.2)
  · rw [memWrite_of_not_accessible v ha] at hw
    cases hw

/-- The number that bytes just written spell: the low bits of the value written. -/
theorem littleEndian_of_writesBytes {s t : State} {a : Word} {n : Nat} {v : Word} (h : WritesBytes s t a n v)
    (k j : Nat) (hkj : k + j = n) (hn : n ≤ 4) :
    littleEndian t (a.toNat + k) j = v.toNat / 2 ^ (8 * k) % 2 ^ (8 * j) := by
  induction j generalizing k with
  | zero => simp [littleEndian, Nat.mod_one]
  | succ j ih =>
    have h1 := ih (k + 1) (by omega)
    rw [littleEndian, Nat.add_assoc, h1, h, if_pos (by omega), BitVec.extractLsb'_toNat, Nat.add_sub_cancel_left,
      Nat.shiftRight_eq_div_pow, Nat.mul_succ 8 j, Nat.pow_add, Nat.mul_comm (2 ^ (8 * j)), Nat.mod_mul,
      Nat.div_div_eq_div_mul, ← Nat.pow_add, Nat.mul_succ]

/-- A word just written reads back. -/
theorem memWord_of_writesBytes {s t : State} {a v : Word} (h : WritesBytes s t a 4 v) : memWord t a = v := by
  apply BitVec.eq_of_toNat_eq
  have := littleEndian_of_writesBytes h 0 4 rfl le_rfl
  rw [Nat.add_zero] at this
  rw [memWord, this, Nat.mul_zero, pow_zero, Nat.div_one, BitVec.toNat_ofNat, Nat.mod_mod, Nat.mod_eq_of_lt v.isLt]

end Sys2Proof.Machine
end

