-- ==== Sys2Proof/Laws/Bus.lean ====
section
/-! SUPPORT. The bus multiplexer: who owns an address, and everything an access can do. -/

namespace Sys2Proof.Machine

/-! ## Ownership (R40) -/

theorem owns_iff (p : Peripheral) (a : Word) : Peripheral.owns p a = true ↔ InRange p a := by
  simp only [Peripheral.owns, Bool.and_eq_true, decide_eq_true_eq, InRange]
  omega

theorem ownerFrom_none (k : Nat) (ps : List Peripheral) (a : Word) :
    ownerFrom k ps a = none ↔ ∀ p ∈ ps, ¬ InRange p a := by
  induction ps generalizing k with
  | nil => simp [ownerFrom]
  | cons p ps ih => by_cases h : InRange p a <;> simp [ownerFrom, owns_iff, h, ih]

theorem ownerFrom_some (k : Nat) (ps : List Peripheral) (a : Word) (j : Nat) (p : Peripheral) :
    ownerFrom k ps a = some (j, p) ↔
      ∃ i, j = k + i ∧ ps[i]? = some p ∧ InRange p a ∧ ∀ i' q, i' < i → ps[i']? = some q → ¬ InRange q a := by
  induction ps generalizing k with
  | nil => simp [ownerFrom]
  | cons q ps ih =>
    by_cases h : InRange q a
    · rw [ownerFrom, if_pos ((owns_iff _ _).2 h)]
      constructor
      · rintro e
        cases e
        exact ⟨0, rfl, rfl, h, by omega⟩
      · rintro ⟨i, rfl, h1, h2, h3⟩
        cases i with
        | zero => simp at h1; simp [h1]
        | succ i => exact absurd h (h3 0 q (by omega) rfl)
    · rw [ownerFrom, if_neg (fun e => h ((owns_iff _ _).1 e)), ih]
      constructor
      · rintro ⟨i, rfl, h1, h2, h3⟩
        refine ⟨i + 1, by omega, by simpa using h1, h2, fun i' q' hi hq => ?_⟩
        cases i' with
        | zero => simp at hq; rwa [← hq]
        | succ i' => exact h3 i' q' (by omega) (by simpa using hq)
      · rintro ⟨i, rfl, h1, h2, h3⟩
        cases i with
        | zero => simp at h1; rw [← h1] at h2; exact absurd h2 h
        | succ i =>
          exact ⟨i, by omega, by simpa using h1, h2, fun i' q' hi hq => h3 (i' + 1) q' (by omega) (by simpa using hq)⟩

theorem owner_none (c : Config) (a : Word) : owner c a = none ↔ Unowned c a := ownerFrom_none 0 _ a

theorem owner_some (c : Config) (a : Word) (k : Nat) (p : Peripheral) :
    owner c a = some (k, p) ↔ OwnedBy c a k p := by
  rw [owner, ownerFrom_some]
  simp [OwnedBy]

/-! ## Reads (R42) -/

theorem busRead_memory {s : State} {a : Word} {w : Width} (hu : Unowned s.cfg a) (ha : Accessible s.cfg a w.size) :
    busRead s a w = .ok (readLE s a.toNat w.size, s) := by
  rw [busRead, (owner_none _ _).2 hu]
  simp only [memRead_of_accessible ha]

theorem busRead_memory_fault {s : State} {a : Word} {w : Width} (hu : Unowned s.cfg a)
    (ha : ¬ Accessible s.cfg a w.size) : busRead s a w = .error .memoryAccessError := by
  rw [busRead, (owner_none _ _).2 hu]
  simp only [memRead_of_not_accessible ha]

theorem busRead_device {s : State} {a : Word} {k : Nat} {p : Peripheral} (h : OwnedBy s.cfg a k p) :
    busRead s a .word = .ok (deviceWord s k (a - p.base), afterDevRead s k (a - p.base)) := by
  rw [busRead, (owner_some _ _ _ _).2 h]

theorem busRead_device_narrow {s : State} {a : Word} {w : Width} {k : Nat} {p : Peripheral}
    (h : OwnedBy s.cfg a k p) (hw : w ≠ .word) : busRead s a w = .error .unsupportedInstruction := by
  rw [busRead, (owner_some _ _ _ _).2 h]
  cases w <;> first | rfl | exact absurd rfl hw

/-- Everything a read can do. -/
theorem busRead_cases (s : State) (a : Word) (w : Width) :
    (Unowned s.cfg a ∧ Accessible s.cfg a w.size ∧ busRead s a w = .ok (readLE s a.toNat w.size, s)) ∨
    (Unowned s.cfg a ∧ ¬ Accessible s.cfg a w.size ∧ busRead s a w = .error .memoryAccessError) ∨
    ∃ k p, OwnedBy s.cfg a k p ∧
      ((w = .word ∧ busRead s a w = .ok (deviceWord s k (a - p.base), afterDevRead s k (a - p.base))) ∨
       (w ≠ .word ∧ busRead s a w = .error .unsupportedInstruction)) := by
  rcases h : owner s.cfg a with _ | ⟨k, p⟩
  · have hu := (owner_none _ _).1 h
    by_cases ha : Accessible s.cfg a w.size
    · exact .inl ⟨hu, ha, busRead_memory hu ha⟩
    · exact .inr (.inl ⟨hu, ha, busRead_memory_fault hu ha⟩)
  · have ho := (owner_some _ _ _ _).1 h
    refine .inr (.inr ⟨k, p, ho, ?_⟩)
    by_cases hw : w = .word
    · subst hw; exact .inl ⟨rfl, busRead_device ho⟩
    · exact .inr ⟨hw, busRead_device_narrow ho hw⟩

/-- A read changes the peripheral port at most. -/
theorem busRead_frame {s t : State} {a v : Word} {w : Width} (h : busRead s a w = .ok (v, t)) :
    t.regs = s.regs ∧ t.pc = s.pc ∧ t.csrs = s.csrs ∧ t.mem = s.mem ∧ t.count = s.count ∧ t.cfg = s.cfg := by
  rcases busRead_cases s a w with ⟨-, -, e⟩ | ⟨-, -, e⟩ | ⟨k, p, -, ⟨-, e⟩ | ⟨-, e⟩⟩ <;> rw [e] at h <;> cases h <;>
    exact ⟨rfl, rfl, rfl, rfl, rfl, rfl⟩

/-! ## Writes (R43) -/

theorem busWrite_memory {s : State} {a : Word} {w : Width} (v : Word) (hu : Unowned s.cfg a)
    (ha : Accessible s.cfg a w.size) :
    busWrite s a w v = .ok { s with mem := writeLE s.cfg a.toNat w.size v s.mem } := by
  rw [busWrite, (owner_none _ _).2 hu]
  exact memWrite_of_accessible v ha

theorem busWrite_memory_fault {s : State} {a : Word} {w : Width} (v : Word) (hu : Unowned s.cfg a)
    (ha : ¬ Accessible s.cfg a w.size) : busWrite s a w v = .error .memoryAccessError := by
  rw [busWrite, (owner_none _ _).2 hu]
  exact memWrite_of_not_accessible v ha

theorem busWrite_device {s : State} {a : Word} (v : Word) {k : Nat} {p : Peripheral} (h : OwnedBy s.cfg a k p) :
    busWrite s a .word v = .ok (devWrite s k (a - p.base) v) := by
  rw [busWrite, (owner_some _ _ _ _).2 h]

theorem busWrite_device_narrow {s : State} {a : Word} {w : Width} (v : Word) {k : Nat} {p : Peripheral}
    (h : OwnedBy s.cfg a k p) (hw : w ≠ .word) : busWrite s a w v = .error .unsupportedInstruction := by
  rw [busWrite, (owner_some _ _ _ _).2 h]
  cases w <;> first | rfl | exact absurd rfl hw

/-- Everything a write can do. -/
theorem busWrite_cases (s : State) (a : Word) (w : Width) (v : Word) :
    (Unowned s.cfg a ∧ Accessible s.cfg a w.size ∧
      busWrite s a w v = .ok { s with mem := writeLE s.cfg a.toNat w.size v s.mem }) ∨
    (Unowned s.cfg a ∧ ¬ Accessible s.cfg a w.size ∧ busWrite s a w v = .error .memoryAccessError) ∨
    ∃ k p, OwnedBy s.cfg a k p ∧
      ((w = .word ∧ busWrite s a w v = .ok (devWrite s k (a - p.base) v)) ∨
       (w ≠ .word ∧ busWrite s a w v = .error .unsupportedInstruction)) := by
  rcases h : owner s.cfg a with _ | ⟨k, p⟩
  · have hu := (owner_none _ _).1 h
    by_cases ha : Accessible s.cfg a w.size
    · exact .inl ⟨hu, ha, busWrite_memory v hu ha⟩
    · exact .inr (.inl ⟨hu, ha, busWrite_memory_fault v hu ha⟩)
  · have ho := (owner_some _ _ _ _).1 h
    refine .inr (.inr ⟨k, p, ho, ?_⟩)
    by_cases hw : w = .word
    · subst hw; exact .inl ⟨rfl, busWrite_device v ho⟩
    · exact .inr ⟨hw, busWrite_device_narrow v ho hw⟩

/-- A write changes main memory or the peripheral port at most. -/
theorem busWrite_frame {s t : State} {a v : Word} {w : Width} (h : busWrite s a w v = .ok t) :
    t.regs = s.regs ∧ t.pc = s.pc ∧ t.csrs = s.csrs ∧ t.count = s.count ∧ t.cfg = s.cfg := by
  rcases busWrite_cases s a w v with ⟨-, -, e⟩ | ⟨-, -, e⟩ | ⟨k, p, -, ⟨-, e⟩ | ⟨-, e⟩⟩ <;> rw [e] at h <;> cases h <;>
    exact ⟨rfl, rfl, rfl, rfl, rfl⟩

/-- A write keeps main memory in canonical form. -/
theorem busWrite_wf {s t : State} {a v : Word} {w : Width} (hm : Memory.wf s.cfg s.mem = true)
    (h : busWrite s a w v = .ok t) : Memory.wf t.cfg t.mem = true := by
  rcases busWrite_cases s a w v with ⟨-, ha, e⟩ | ⟨-, -, e⟩ | ⟨k, p, -, ⟨-, e⟩ | ⟨-, e⟩⟩ <;> rw [e] at h <;> cases h
  · exact Memory.wf_memWrite hm (memWrite_of_accessible v ha)
  · exact hm

/-- The word of a device read is one the device may return: the next of the input list where there is one (R41). -/
theorem deviceMayReturn_deviceWord (s : State) (k : Nat) (off : Word) : DeviceMayReturn s (deviceWord s k off) := by
  intro u l h
  simp [deviceWord, h]

/-! ## The device-only port (R45) -/

/-- An owned word access is the port's: `busRead` and `busWrite` never ask the port for an unowned address. -/
theorem bus_word_is_port {s : State} {a : Word} {k : Nat} {p : Peripheral} (h : OwnedBy s.cfg a k p) (v : Word) :
    busRead s a .word = portRead s a ∧ busWrite s a .word v = .ok (portWrite s a v) := by
  rw [busRead, busWrite, portRead, portWrite, (owner_some _ _ _ _).2 h]
  exact ⟨rfl, rfl⟩

theorem port_unowned {s : State} {a : Word} (h : Unowned s.cfg a) (v : Word) :
    portRead s a = .error .unsupportedInstruction ∧ portWrite s a v = s := by
  rw [portRead, portWrite, (owner_none _ _).2 h]
  exact ⟨rfl, rfl⟩

end Sys2Proof.Machine
end

