-- ==== Sys2Proof/Laws/Exec.lean ====
section
/-! SUPPORT. The shared operations that end an instruction: for each, everything it can do, in the vocabulary of
Safety.lean. Proofs about instructions cite these and do not unfold the operations. -/

namespace Sys2Proof.Machine

/-! ## Ends of an instruction -/

theorem writesReg_advance (s : State) (rd : RegIdx) (v : Word) : WritesReg s (advance (writeReg s rd v)) rd v := by
  constructor
  · rw [readReg_advance, readReg_writeReg_cases, if_pos rfl]
  · intro r hr
    rw [readReg_advance, readReg_writeReg_cases, if_neg hr]

theorem finish_next {s t : State} (h : finish s = .next t) : t = advance s := by cases h; rfl

theorem trapReturn_next {s t : State} (h : trapReturn s = .next t) : t = advance s := by cases h; rfl

theorem finishReg_next {s t : State} {rd : RegIdx} {v : Word} (h : finishReg s rd v = .next t) :
    t = advance (writeReg s rd v) := by cases h; rfl

theorem branchOp_next {s t : State} {b : Bool} {o : BitVec 13} (h : branchOp b o s = .next t) :
    t = setPc s (if b then branchTarget s o else nextPc s) := by cases h; rfl

theorem jumpOp_next {s t : State} {rd : RegIdx} {target : Word} (h : jumpOp rd target s = .next t) :
    t = setPc (writeReg s rd (nextPc s)) target := by cases h; rfl

/-- A register result and the next instruction in sequence, and nothing else (R11, R62). -/
theorem finishReg_result (s : State) (rd : RegIdx) (v : Word) :
    ∃ t, finishReg s rd v = .next t ∧ RegResult s t rd v (s.pc + 4) := by
  refine ⟨_, rfl, ?_, writesReg_advance s rd v, fun c => by simp, fun a => by simp, by simp [SamePort],
    by simp [SameRest]⟩
  rw [advance_pc, writeReg_pc]; rfl

/-- Only `pc` (R62). -/
theorem finish_result (s : State) : ∃ t, finish s = .next t ∧ PcResult s t (s.pc + 4) :=
  ⟨_, rfl, rfl, fun _ => rfl, fun _ => rfl, fun _ => rfl, ⟨rfl, rfl⟩, rfl, rfl⟩

theorem trapReturn_result (s : State) : ∃ t, trapReturn s = .next t ∧ PcResult s t (s.pc + 4) := finish_result s

/-- Only `pc` (R180). -/
theorem branchOp_result (b : Bool) (o : BitVec 13) (s : State) :
    ∃ t, branchOp b o s = .next t ∧ PcResult s t (if b then branchTarget s o else s.pc + 4) :=
  ⟨_, rfl, rfl, fun _ => rfl, fun _ => rfl, fun _ => rfl, ⟨rfl, rfl⟩, rfl, rfl⟩

/-- The link and the target (R192, R193). -/
theorem jumpOp_result (rd : RegIdx) (target : Word) (s : State) :
    ∃ t, jumpOp rd target s = .next t ∧ RegResult s t rd (s.pc + 4) target :=
  ⟨_, rfl, rfl, writesReg_advance s rd _, fun c => by simp, fun a => by simp, by simp [SamePort],
    by simp [SameRest]⟩

/-! ## CSR operations -/

theorem csrWriteOp_next {s t : State} {rd : RegIdx} {c : CsrIdx} {v : Word} (h : csrWriteOp rd c v s = .next t) :
    t = advance (writeReg (writeCsr s c v) rd (readCsr s c)) := by cases h; rfl

/-- Writing a CSR to what it reads already changes nothing. -/
theorem writeCsr_self {s : State} (h : CsrFile.wf s.csrs = true) (c : CsrIdx) : writeCsr s c (readCsr s c) = s := by
  unfold writeCsr readCsr
  rw [sparseSet_self ((CsrFile.wf_iff _).1 h).1]

/-- With a zero mask, set is a write of the old value, which changes nothing (R210). -/
theorem csrSetOp_eq {s : State} (h : CsrFile.wf s.csrs = true) (rd : RegIdx) (c : CsrIdx) (m : Word) :
    csrSetOp rd c m s = csrWriteOp rd c (readCsr s c ||| m) s := by
  unfold csrSetOp csrWriteOp
  split
  · next hm => rw [hm, BitVec.or_zero, writeCsr_self h]
  · rfl

/-- With a zero mask, clear is a write of the old value, which changes nothing (R210). -/
theorem csrClearOp_eq {s : State} (h : CsrFile.wf s.csrs = true) (rd : RegIdx) (c : CsrIdx) (m : Word) :
    csrClearOp rd c m s = csrWriteOp rd c (readCsr s c &&& ~~~m) s := by
  unfold csrClearOp csrWriteOp
  split
  · next hm => rw [hm, show ~~~(0#32) = BitVec.allOnes 32 from rfl, BitVec.and_allOnes, writeCsr_self h]
  · rfl

/-- The old value into the register and the new one into the CSR (R203). -/
theorem csrWriteOp_result {s : State} (h : CsrFile.wf s.csrs = true) (rd : RegIdx) (c : CsrIdx) (v : Word) :
    ∃ t, csrWriteOp rd c v s = .next t ∧ CsrResult s t rd (readCsr s c) c v := by
  refine ⟨_, rfl, ?_, writesReg_advance (writeCsr s c v) rd _, ⟨?_, fun d hd => ?_⟩, fun a => by simp,
    by simp [SamePort], by simp [SameRest]⟩
  · rw [advance_pc, writeReg_pc]; rfl
  · rw [readCsr_advance, readCsr_writeReg, readCsr_writeCsr h, if_pos rfl]
  · rw [readCsr_advance, readCsr_writeReg, readCsr_writeCsr h, if_neg hd]

/-! ## Loads -/

/-- Everything a load can do. -/
theorem loadOp_cases (w : Width) (f : Word → Word) (rd : RegIdx) (a : Word) (s : State) :
    (Unowned s.cfg a ∧ Accessible s.cfg a w.size ∧
      loadOp w f rd a s = finishReg s rd (f (readLE s a.toNat w.size))) ∨
    (Unowned s.cfg a ∧ ¬ Accessible s.cfg a w.size ∧ loadOp w f rd a s = .fault .memoryAccessError) ∨
    ∃ k p, OwnedBy s.cfg a k p ∧
      ((w = .word ∧ loadOp w f rd a s =
          finishReg (afterDevRead s k (a - p.base)) rd (f (deviceWord s k (a - p.base)))) ∨
       (w ≠ .word ∧ loadOp w f rd a s = .fault .unsupportedInstruction)) := by
  rcases busRead_cases s a w with ⟨hu, ha, e⟩ | ⟨hu, ha, e⟩ | ⟨k, p, ho, ⟨hw, e⟩ | ⟨hw, e⟩⟩
  · exact .inl ⟨hu, ha, by rw [loadOp, e]⟩
  · exact .inr (.inl ⟨hu, ha, by rw [loadOp, e]; rfl⟩)
  · exact .inr (.inr ⟨k, p, ho, .inl ⟨hw, by rw [loadOp, e]⟩⟩)
  · exact .inr (.inr ⟨k, p, ho, .inr ⟨hw, by rw [loadOp, e]; rfl⟩⟩)

theorem loadOp_memory {s : State} {w : Width} {a : Word} (f : Word → Word) (rd : RegIdx) (hu : Unowned s.cfg a)
    (ha : Accessible s.cfg a w.size) :
    ∃ t, loadOp w f rd a s = .next t ∧ RegResult s t rd (f (readLE s a.toNat w.size)) (s.pc + 4) := by
  rw [loadOp, busRead_memory hu ha]
  exact finishReg_result s rd _

theorem loadOp_memory_fault {s : State} {w : Width} {a : Word} (f : Word → Word) (rd : RegIdx)
    (hu : Unowned s.cfg a) (ha : ¬ Accessible s.cfg a w.size) : loadOp w f rd a s = .fault .memoryAccessError := by
  rw [loadOp, busRead_memory_fault hu ha]; rfl

theorem loadOp_device_narrow {s : State} {w : Width} {a : Word} (f : Word → Word) (rd : RegIdx) {k : Nat}
    {p : Peripheral} (h : OwnedBy s.cfg a k p) (hw : w ≠ .word) :
    loadOp w f rd a s = .fault .unsupportedInstruction := by
  rw [loadOp, busRead_device_narrow h hw]; rfl

/-- The end of an instruction after one device read (R41, R164, R224). -/
theorem finishReg_afterDevRead (s : State) (k : Nat) (off : Word) (rd : RegIdx) (v : Word) :
    DeviceResult s (advance (writeReg (afterDevRead s k off) rd v)) rd v [.read k off (deviceWord s k off)] 1 := by
  refine ⟨?_, writesReg_advance (afterDevRead s k off) rd v, ?_, fun c => ?_, fun b => ?_, by simp [SameRest]⟩
  · rw [advance_pc, writeReg_pc]; rfl
  · simp [PortTook]
  · rw [readCsr_advance, readCsr_writeReg]; rfl
  · rw [readByte_advance, readByte_writeReg]; rfl

theorem loadOp_device {s : State} {a : Word} (f : Word → Word) (rd : RegIdx) {k : Nat} {p : Peripheral}
    (h : OwnedBy s.cfg a k p) :
    ∃ t, loadOp .word f rd a s = .next t ∧
      DeviceResult s t rd (f (deviceWord s k (a - p.base))) [.read k (a - p.base) (deviceWord s k (a - p.base))] 1 := by
  rw [loadOp, busRead_device h]
  exact ⟨_, rfl, finishReg_afterDevRead s k _ rd _⟩

/-! ## Stores -/

/-- Everything a store can do. -/
theorem storeOp_cases (w : Width) (a v : Word) (s : State) :
    (Unowned s.cfg a ∧ Accessible s.cfg a w.size ∧
      storeOp w a v s = finish { s with mem := writeLE s.cfg a.toNat w.size v s.mem }) ∨
    (Unowned s.cfg a ∧ ¬ Accessible s.cfg a w.size ∧ storeOp w a v s = .fault .memoryAccessError) ∨
    ∃ k p, OwnedBy s.cfg a k p ∧
      ((w = .word ∧ storeOp w a v s = finish (devWrite s k (a - p.base) v)) ∨
       (w ≠ .word ∧ storeOp w a v s = .fault .unsupportedInstruction)) := by
  rcases busWrite_cases s a w v with ⟨hu, ha, e⟩ | ⟨hu, ha, e⟩ | ⟨k, p, ho, ⟨hw, e⟩ | ⟨hw, e⟩⟩
  · exact .inl ⟨hu, ha, by rw [storeOp, e]⟩
  · exact .inr (.inl ⟨hu, ha, by rw [storeOp, e]; rfl⟩)
  · exact .inr (.inr ⟨k, p, ho, .inl ⟨hw, by rw [storeOp, e]⟩⟩)
  · exact .inr (.inr ⟨k, p, ho, .inr ⟨hw, by rw [storeOp, e]; rfl⟩⟩)

theorem storeOp_memory {s : State} {w : Width} {a : Word} (v : Word) (hm : Memory.wf s.cfg s.mem = true)
    (hu : Unowned s.cfg a) (ha : Accessible s.cfg a w.size) :
    ∃ t, storeOp w a v s = .next t ∧ StoreResult s t a w.size v := by
  rw [storeOp, busWrite_memory v hu ha]
  exact ⟨_, rfl, rfl, writesBytes_memWrite hm v ha, fun _ => rfl, fun _ => rfl, ⟨rfl, rfl⟩, rfl, rfl⟩

theorem storeOp_memory_fault {s : State} {w : Width} {a : Word} (v : Word) (hu : Unowned s.cfg a)
    (ha : ¬ Accessible s.cfg a w.size) : storeOp w a v s = .fault .memoryAccessError := by
  rw [storeOp, busWrite_memory_fault v hu ha]; rfl

theorem storeOp_device_narrow {s : State} {w : Width} {a : Word} (v : Word) {k : Nat} {p : Peripheral}
    (h : OwnedBy s.cfg a k p) (hw : w ≠ .word) : storeOp w a v s = .fault .unsupportedInstruction := by
  rw [storeOp, busWrite_device_narrow v h hw]; rfl

theorem storeOp_device {s : State} {a : Word} (v : Word) {k : Nat} {p : Peripheral} (h : OwnedBy s.cfg a k p) :
    ∃ t, storeOp .word a v s = .next t ∧ t.pc = s.pc + 4 ∧ PortTook s t [.write k (a - p.base) v] 0 ∧
      SameRegs s t ∧ SameCsrs s t ∧ SameBytes s t ∧ SameRest s t := by
  rw [storeOp, busWrite_device v h]
  exact ⟨_, rfl, rfl, ⟨rfl, rfl⟩, fun _ => rfl, fun _ => rfl, fun _ => rfl, rfl, rfl⟩

/-! ## Atomics -/

/-- Everything a read-modify-write can do. -/
theorem amoOp_cases (g : Word → Word → Word) (rd rs1 rs2 : RegIdx) (s : State) :
    (Unowned s.cfg (readReg s rs1) ∧ Accessible s.cfg (readReg s rs1) 4 ∧ amoOp g rd rs1 rs2 s =
      finishReg
        { s with mem := writeLE s.cfg (readReg s rs1).toNat 4 (g (memWord s (readReg s rs1)) (readReg s rs2)) s.mem }
        rd (memWord s (readReg s rs1))) ∨
    (Unowned s.cfg (readReg s rs1) ∧ ¬ Accessible s.cfg (readReg s rs1) 4 ∧
      amoOp g rd rs1 rs2 s = .fault .memoryAccessError) ∨
    ∃ k p v off, OwnedBy s.cfg (readReg s rs1) k p ∧ off = readReg s rs1 - p.base ∧ v = deviceWord s k off ∧
      amoOp g rd rs1 rs2 s = finishReg (devWrite (afterDevRead s k off) k off (g v (readReg s rs2))) rd v := by
  rcases busRead_cases s (readReg s rs1) .word with ⟨hu, ha, e⟩ | ⟨hu, ha, e⟩ | ⟨k, p, ho, ⟨hw, e⟩ | ⟨hw, e⟩⟩
  · refine .inl ⟨hu, ha, ?_⟩
    rw [show Width.word.size = 4 from rfl, readLE_word] at e
    rw [amoOp, atomicAddr, e]
    simp only [busWrite_memory (w := .word) _ hu ha]
    rfl
  · exact .inr (.inl ⟨hu, ha, by rw [amoOp, atomicAddr, e]; rfl⟩)
  · refine .inr (.inr ⟨k, p, _, _, ho, rfl, rfl, ?_⟩)
    rw [amoOp, atomicAddr, e]
    simp only [busWrite_device (s := afterDevRead s k (readReg s rs1 - p.base)) _ ho]
  · exact absurd rfl hw

theorem amoOp_memory {s : State} {rs1 : RegIdx} (g : Word → Word → Word) (rd rs2 : RegIdx)
    (hm : Memory.wf s.cfg s.mem = true) (hu : Unowned s.cfg (readReg s rs1)) (ha : Accessible s.cfg (readReg s rs1) 4) :
    ∃ t, amoOp g rd rs1 rs2 s = .next t ∧ AtomicResult s t rd (memWord s (readReg s rs1)) (readReg s rs1)
      (g (memWord s (readReg s rs1)) (readReg s rs2)) := by
  rcases amoOp_cases g rd rs1 rs2 s with ⟨-, -, e⟩ | ⟨-, h, -⟩ | ⟨k, p, v, off, ho, -⟩
  · rw [e]
    refine ⟨_, rfl, ?_, writesReg_advance { s with mem := _ } rd _, fun b => ?_, fun c => ?_, by simp [SamePort],
      by simp [SameRest]⟩
    · rw [advance_pc, writeReg_pc]; rfl
    · rw [readByte_advance, readByte_writeReg]
      exact writesBytes_memWrite (w := .word) hm _ ha b
    · rw [readCsr_advance, readCsr_writeReg]; rfl
  · exact absurd ha h
  · exact absurd ((owner_some _ _ _ _).2 ho) (by rw [(owner_none _ _).2 hu]; simp)

theorem amoOp_memory_fault {s : State} {rs1 : RegIdx} (g : Word → Word → Word) (rd rs2 : RegIdx)
    (hu : Unowned s.cfg (readReg s rs1)) (ha : ¬ Accessible s.cfg (readReg s rs1) 4) :
    amoOp g rd rs1 rs2 s = .fault .memoryAccessError := by
  rw [amoOp, atomicAddr, busRead_memory_fault (w := .word) hu ha]; rfl

theorem amoOp_device {s : State} {rs1 : RegIdx} (g : Word → Word → Word) (rd rs2 : RegIdx) {k : Nat} {p : Peripheral}
    (ho : OwnedBy s.cfg (readReg s rs1) k p) :
    ∃ v t, amoOp g rd rs1 rs2 s = .next t ∧ DeviceMayReturn s v ∧
      DeviceResult s t rd v [.read k (readReg s rs1 - p.base) v,
        .write k (readReg s rs1 - p.base) (g v (readReg s rs2))] 1 := by
  refine ⟨deviceWord s k (readReg s rs1 - p.base), ?_⟩
  rw [amoOp, atomicAddr, busRead_device ho]
  simp only [busWrite_device (s := afterDevRead s k (readReg s rs1 - p.base)) _ ho]
  refine ⟨_, rfl, deviceMayReturn_deviceWord s k _, ?_,
    writesReg_advance (devWrite (afterDevRead s k _) k _ _) rd _, ?_, fun c => ?_, fun b => ?_, by simp [SameRest]⟩
  · rw [advance_pc, writeReg_pc]; rfl
  · simp [PortTook]
  · rw [readCsr_advance, readCsr_writeReg]; rfl
  · rw [readByte_advance, readByte_writeReg]; rfl

/-- Everything SC.W can do: a word store, with 0 into the register (R225). -/
theorem execScW_cases (rd rs1 rs2 : RegIdx) (aq rl : BitVec 1) (s : State) :
    (Unowned s.cfg (readReg s rs1) ∧ Accessible s.cfg (readReg s rs1) 4 ∧ execScW rd rs1 rs2 aq rl s =
      finishReg { s with mem := writeLE s.cfg (readReg s rs1).toNat 4 (readReg s rs2) s.mem } rd 0#32) ∨
    (Unowned s.cfg (readReg s rs1) ∧ ¬ Accessible s.cfg (readReg s rs1) 4 ∧
      execScW rd rs1 rs2 aq rl s = .fault .memoryAccessError) ∨
    ∃ k p, OwnedBy s.cfg (readReg s rs1) k p ∧
      execScW rd rs1 rs2 aq rl s = finishReg (devWrite s k (readReg s rs1 - p.base) (readReg s rs2)) rd 0#32 := by
  rcases busWrite_cases s (readReg s rs1) .word (readReg s rs2) with
    ⟨hu, ha, e⟩ | ⟨hu, ha, e⟩ | ⟨k, p, ho, ⟨hw, e⟩ | ⟨hw, e⟩⟩
  · exact .inl ⟨hu, ha, by rw [execScW, atomicAddr, e]; rfl⟩
  · exact .inr (.inl ⟨hu, ha, by rw [execScW, atomicAddr, e]; rfl⟩)
  · exact .inr (.inr ⟨k, p, ho, by rw [execScW, atomicAddr, e]⟩)
  · exact absurd rfl hw

/-! ## What an access has done when the instruction continued, and how it can stop -/

/-- A load that continued: a read that changed the peripheral port at most, then the register. -/
theorem loadOp_next {w : Width} {f : Word → Word} {rd : RegIdx} {a : Word} {s t : State}
    (h : loadOp w f rd a s = .next t) :
    ∃ s1 v, t = advance (writeReg s1 rd v) ∧ s1.regs = s.regs ∧ s1.pc = s.pc ∧ s1.csrs = s.csrs ∧ s1.mem = s.mem ∧
      s1.count = s.count ∧ s1.cfg = s.cfg := by
  unfold loadOp at h
  rcases e : busRead s a w with f | ⟨v, s1⟩ <;> rw [e] at h <;> cases h
  exact ⟨s1, _, rfl, busRead_frame e⟩

/-- How a load can stop. -/
theorem loadOp_fault {w : Width} {f : Word → Word} {rd : RegIdx} {a : Word} {s : State} {e : Fault}
    (h : loadOp w f rd a s = .fault e) : (w ≠ .word ∧ e = .unsupportedInstruction) ∨ e = .memoryAccessError := by
  rcases loadOp_cases w f rd a s with ⟨-, -, e⟩ | ⟨-, -, e⟩ | ⟨k, p, -, ⟨-, e⟩ | ⟨hw, e⟩⟩ <;> rw [e] at h <;> cases h
  · exact .inr rfl
  · exact .inl ⟨hw, rfl⟩

theorem loadOp_not_refused (w : Width) (f : Word → Word) (rd : RegIdx) (a : Word) (s : State) (r : Refusal) :
    loadOp w f rd a s ≠ .refused r := by
  rcases loadOp_cases w f rd a s with ⟨-, -, e⟩ | ⟨-, -, e⟩ | ⟨k, p, -, ⟨-, e⟩ | ⟨-, e⟩⟩ <;> rw [e] <;>
    exact fun h => by cases h

/-- A store that continued: a write of main memory or of the peripheral port, memory still canonical. -/
theorem storeOp_next {w : Width} {a v : Word} {s t : State} (h : storeOp w a v s = .next t) :
    ∃ s1, t = advance s1 ∧ s1.regs = s.regs ∧ s1.pc = s.pc ∧ s1.csrs = s.csrs ∧ s1.count = s.count ∧
      s1.cfg = s.cfg ∧ (Memory.wf s.cfg s.mem = true → Memory.wf s1.cfg s1.mem = true) := by
  unfold storeOp at h
  rcases e : busWrite s a w v with f | s1 <;> rw [e] at h <;> cases h
  obtain ⟨h1, h2, h3, h4, h5⟩ := busWrite_frame e
  exact ⟨s1, rfl, h1, h2, h3, h4, h5, fun hm => busWrite_wf hm e⟩

/-- How a store can stop. -/
theorem storeOp_fault {w : Width} {a v : Word} {s : State} {e : Fault} (h : storeOp w a v s = .fault e) :
    (w ≠ .word ∧ e = .unsupportedInstruction) ∨ e = .memoryAccessError := by
  rcases storeOp_cases w a v s with ⟨-, -, e⟩ | ⟨-, -, e⟩ | ⟨k, p, -, ⟨-, e⟩ | ⟨hw, e⟩⟩ <;> rw [e] at h <;> cases h
  · exact .inr rfl
  · exact .inl ⟨hw, rfl⟩

theorem storeOp_not_refused (w : Width) (a v : Word) (s : State) (r : Refusal) : storeOp w a v s ≠ .refused r := by
  rcases storeOp_cases w a v s with ⟨-, -, e⟩ | ⟨-, -, e⟩ | ⟨k, p, -, ⟨-, e⟩ | ⟨-, e⟩⟩ <;> rw [e] <;>
    exact fun h => by cases h

/-- A read-modify-write that continued. -/
theorem amoOp_next {g : Word → Word → Word} {rd rs1 rs2 : RegIdx} {s t : State}
    (h : amoOp g rd rs1 rs2 s = .next t) :
    ∃ s1 v, t = advance (writeReg s1 rd v) ∧ s1.regs = s.regs ∧ s1.pc = s.pc ∧ s1.csrs = s.csrs ∧
      s1.count = s.count ∧ s1.cfg = s.cfg ∧ (Memory.wf s.cfg s.mem = true → Memory.wf s1.cfg s1.mem = true) := by
  rcases amoOp_cases g rd rs1 rs2 s with ⟨-, ha, e⟩ | ⟨-, -, e⟩ | ⟨k, p, v, off, -, -, -, e⟩ <;> rw [e] at h <;> cases h
  · exact ⟨_, _, rfl, rfl, rfl, rfl, rfl, rfl,
      fun hm => Memory.wf_memWrite hm (memWrite_of_accessible (w := .word) _ ha)⟩
  · exact ⟨_, _, rfl, rfl, rfl, rfl, rfl, rfl, id⟩

/-- How a read-modify-write can stop. -/
theorem amoOp_fault {g : Word → Word → Word} {rd rs1 rs2 : RegIdx} {s : State} {e : Fault}
    (h : amoOp g rd rs1 rs2 s = .fault e) : e = .memoryAccessError := by
  rcases amoOp_cases g rd rs1 rs2 s with ⟨-, -, e⟩ | ⟨-, -, e⟩ | ⟨k, p, v, off, -, -, -, e⟩ <;> rw [e] at h <;> cases h
  rfl

theorem amoOp_not_refused (g : Word → Word → Word) (rd rs1 rs2 : RegIdx) (s : State) (r : Refusal) :
    amoOp g rd rs1 rs2 s ≠ .refused r := by
  rcases amoOp_cases g rd rs1 rs2 s with ⟨-, -, e⟩ | ⟨-, -, e⟩ | ⟨k, p, v, off, -, -, -, e⟩ <;> rw [e] <;>
    exact fun h => by cases h

/-- An SC.W that continued. -/
theorem execScW_next {rd rs1 rs2 : RegIdx} {aq rl : BitVec 1} {s t : State}
    (h : execScW rd rs1 rs2 aq rl s = .next t) :
    ∃ s1, t = advance (writeReg s1 rd 0#32) ∧ s1.regs = s.regs ∧ s1.pc = s.pc ∧ s1.csrs = s.csrs ∧
      s1.count = s.count ∧ s1.cfg = s.cfg ∧ (Memory.wf s.cfg s.mem = true → Memory.wf s1.cfg s1.mem = true) := by
  rcases execScW_cases rd rs1 rs2 aq rl s with ⟨-, ha, e⟩ | ⟨-, -, e⟩ | ⟨k, p, -, e⟩ <;> rw [e] at h <;> cases h
  · exact ⟨_, rfl, rfl, rfl, rfl, rfl, rfl,
      fun hm => Memory.wf_memWrite hm (memWrite_of_accessible (w := .word) _ ha)⟩
  · exact ⟨_, rfl, rfl, rfl, rfl, rfl, rfl, id⟩

/-- How SC.W can stop. -/
theorem execScW_fault {rd rs1 rs2 : RegIdx} {aq rl : BitVec 1} {s : State} {e : Fault}
    (h : execScW rd rs1 rs2 aq rl s = .fault e) : e = .memoryAccessError := by
  rcases execScW_cases rd rs1 rs2 aq rl s with ⟨-, -, e⟩ | ⟨-, -, e⟩ | ⟨k, p, -, e⟩ <;> rw [e] at h <;> cases h
  rfl

theorem execScW_not_refused (rd rs1 rs2 : RegIdx) (aq rl : BitVec 1) (s : State) (r : Refusal) :
    execScW rd rs1 rs2 aq rl s ≠ .refused r := by
  rcases execScW_cases rd rs1 rs2 aq rl s with ⟨-, -, e⟩ | ⟨-, -, e⟩ | ⟨k, p, -, e⟩ <;> rw [e] <;>
    exact fun h => by cases h

end Sys2Proof.Machine
end

