-- ==== Sys2Proof/Laws/Dispatch.lean ====
section
/-! SUPPORT. Each instruction as one call of its shared operation, so that a proof about `exec` cites these equations and
the lemmas of Laws/Exec.lean and unfolds no meaning. -/

namespace Sys2Proof.Machine

variable (s : State)

theorem exec_addi (rd rs1 : RegIdx) (imm : BitVec 12) :
    exec (.addi rd rs1 imm) s = finishReg s rd (readReg s rs1 + immI imm) := rfl

theorem exec_slti (rd rs1 : RegIdx) (imm : BitVec 12) :
    exec (.slti rd rs1 imm) s = finishReg s rd (boolWord (ltSigned (readReg s rs1) (immI imm))) := rfl

theorem exec_sltiu (rd rs1 : RegIdx) (imm : BitVec 12) :
    exec (.sltiu rd rs1 imm) s = finishReg s rd (boolWord (ltUnsigned (readReg s rs1) (immI imm))) := rfl

theorem exec_xori (rd rs1 : RegIdx) (imm : BitVec 12) :
    exec (.xori rd rs1 imm) s = finishReg s rd (readReg s rs1 ^^^ immI imm) := rfl

theorem exec_ori (rd rs1 : RegIdx) (imm : BitVec 12) :
    exec (.ori rd rs1 imm) s = finishReg s rd (readReg s rs1 ||| immI imm) := rfl

theorem exec_andi (rd rs1 : RegIdx) (imm : BitVec 12) :
    exec (.andi rd rs1 imm) s = finishReg s rd (readReg s rs1 &&& immI imm) := rfl

theorem exec_slli (rd rs1 : RegIdx) (shamt : BitVec 5) :
    exec (.slli rd rs1 shamt) s = finishReg s rd (readReg s rs1 <<< shamt.toNat) := rfl

theorem exec_srli (rd rs1 : RegIdx) (shamt : BitVec 5) :
    exec (.srli rd rs1 shamt) s = finishReg s rd (readReg s rs1 >>> shamt.toNat) := rfl

theorem exec_srai (rd rs1 : RegIdx) (shamt : BitVec 5) (unchecked : BitVec 6) :
    exec (.srai rd rs1 shamt unchecked) s = finishReg s rd ((readReg s rs1).sshiftRight shamt.toNat) := rfl

theorem exec_add (rd rs1 rs2 : RegIdx) :
    exec (.add rd rs1 rs2) s = finishReg s rd (readReg s rs1 + readReg s rs2) := rfl

theorem exec_sub (rd rs1 rs2 : RegIdx) :
    exec (.sub rd rs1 rs2) s = finishReg s rd (readReg s rs1 - readReg s rs2) := rfl

theorem exec_sll (rd rs1 rs2 : RegIdx) :
    exec (.sll rd rs1 rs2) s = finishReg s rd (readReg s rs1 <<< (shiftAmount (readReg s rs2)).toNat) := rfl

theorem exec_slt (rd rs1 rs2 : RegIdx) :
    exec (.slt rd rs1 rs2) s = finishReg s rd (boolWord (ltSigned (readReg s rs1) (readReg s rs2))) := rfl

theorem exec_sltu (rd rs1 rs2 : RegIdx) :
    exec (.sltu rd rs1 rs2) s = finishReg s rd (boolWord (ltUnsigned (readReg s rs1) (readReg s rs2))) := rfl

theorem exec_xor (rd rs1 rs2 : RegIdx) :
    exec (.xor rd rs1 rs2) s = finishReg s rd (readReg s rs1 ^^^ readReg s rs2) := rfl

theorem exec_srl (rd rs1 rs2 : RegIdx) :
    exec (.srl rd rs1 rs2) s = finishReg s rd (readReg s rs1 >>> (shiftAmount (readReg s rs2)).toNat) := rfl

theorem exec_sra (rd rs1 rs2 : RegIdx) :
    exec (.sra rd rs1 rs2) s = finishReg s rd ((readReg s rs1).sshiftRight (shiftAmount (readReg s rs2)).toNat) := rfl

theorem exec_or (rd rs1 rs2 : RegIdx) :
    exec (.or rd rs1 rs2) s = finishReg s rd (readReg s rs1 ||| readReg s rs2) := rfl

theorem exec_and (rd rs1 rs2 : RegIdx) :
    exec (.and rd rs1 rs2) s = finishReg s rd (readReg s rs1 &&& readReg s rs2) := rfl

theorem exec_mul (rd rs1 rs2 : RegIdx) :
    exec (.mul rd rs1 rs2) s = finishReg s rd (BitVec.ofNat 32 ((readReg s rs1).toNat * (readReg s rs2).toNat)) := rfl

theorem exec_mulh (rd rs1 rs2 : RegIdx) :
    exec (.mulh rd rs1 rs2) s = finishReg s rd (highWord ((readReg s rs1).toInt * (readReg s rs2).toInt)) := rfl

theorem exec_mulhsu (rd rs1 rs2 : RegIdx) :
    exec (.mulhsu rd rs1 rs2) s = finishReg s rd (highWord ((readReg s rs1).toInt * ((readReg s rs2).toNat : Int))) := rfl

theorem exec_mulhu (rd rs1 rs2 : RegIdx) :
    exec (.mulhu rd rs1 rs2) s = finishReg s rd (highWord (((readReg s rs1).toNat : Int) * ((readReg s rs2).toNat : Int))) := rfl

theorem exec_div (rd rs1 rs2 : RegIdx) :
    exec (.div rd rs1 rs2) s = finishReg s rd (divSigned (readReg s rs1) (readReg s rs2)) := rfl

theorem exec_divu (rd rs1 rs2 : RegIdx) :
    exec (.divu rd rs1 rs2) s = finishReg s rd (divUnsigned (readReg s rs1) (readReg s rs2)) := rfl

theorem exec_rem (rd rs1 rs2 : RegIdx) :
    exec (.rem rd rs1 rs2) s = finishReg s rd (remSigned (readReg s rs1) (readReg s rs2)) := rfl

theorem exec_remu (rd rs1 rs2 : RegIdx) :
    exec (.remu rd rs1 rs2) s = finishReg s rd (remUnsigned (readReg s rs1) (readReg s rs2)) := rfl

theorem exec_lb (rd rs1 : RegIdx) (imm : BitVec 12) :
    exec (.lb rd rs1 imm) s = loadOp .byte sext8 rd (loadAddr s rs1 imm) s := rfl

theorem exec_lh (rd rs1 : RegIdx) (imm : BitVec 12) :
    exec (.lh rd rs1 imm) s = loadOp .half sext16 rd (loadAddr s rs1 imm) s := rfl

theorem exec_lw (rd rs1 : RegIdx) (imm : BitVec 12) :
    exec (.lw rd rs1 imm) s = loadOp .word id rd (loadAddr s rs1 imm) s := rfl

theorem exec_lbu (rd rs1 : RegIdx) (imm : BitVec 12) :
    exec (.lbu rd rs1 imm) s = loadOp .byte zext8 rd (loadAddr s rs1 imm) s := rfl

theorem exec_lhu (rd rs1 : RegIdx) (imm : BitVec 12) :
    exec (.lhu rd rs1 imm) s = loadOp .half zext16 rd (loadAddr s rs1 imm) s := rfl

theorem exec_sb (rs1 rs2 : RegIdx) (imm : BitVec 12) :
    exec (.sb rs1 rs2 imm) s = storeOp .byte (storeAddr s rs1 imm) (readReg s rs2) s := rfl

theorem exec_sh (rs1 rs2 : RegIdx) (imm : BitVec 12) :
    exec (.sh rs1 rs2 imm) s = storeOp .half (storeAddr s rs1 imm) (readReg s rs2) s := rfl

theorem exec_sw (rs1 rs2 : RegIdx) (imm : BitVec 12) :
    exec (.sw rs1 rs2 imm) s = storeOp .word (storeAddr s rs1 imm) (readReg s rs2) s := rfl

theorem exec_beq (rs1 rs2 : RegIdx) (offset : BitVec 13) :
    exec (.beq rs1 rs2 offset) s = branchOp (decide (readReg s rs1 = readReg s rs2)) offset s := rfl

theorem exec_bne (rs1 rs2 : RegIdx) (offset : BitVec 13) :
    exec (.bne rs1 rs2 offset) s = branchOp (decide (readReg s rs1 ≠ readReg s rs2)) offset s := rfl

theorem exec_blt (rs1 rs2 : RegIdx) (offset : BitVec 13) :
    exec (.blt rs1 rs2 offset) s = branchOp (ltSigned (readReg s rs1) (readReg s rs2)) offset s := rfl

theorem exec_bge (rs1 rs2 : RegIdx) (offset : BitVec 13) :
    exec (.bge rs1 rs2 offset) s = branchOp (geSigned (readReg s rs1) (readReg s rs2)) offset s := rfl

theorem exec_bltu (rs1 rs2 : RegIdx) (offset : BitVec 13) :
    exec (.bltu rs1 rs2 offset) s = branchOp (ltUnsigned (readReg s rs1) (readReg s rs2)) offset s := rfl

theorem exec_bgeu (rs1 rs2 : RegIdx) (offset : BitVec 13) :
    exec (.bgeu rs1 rs2 offset) s = branchOp (geUnsigned (readReg s rs1) (readReg s rs2)) offset s := rfl

theorem exec_lui (rd : RegIdx) (imm : BitVec 20) :
    exec (.lui rd imm) s = finishReg s rd (immU imm) := rfl

theorem exec_auipc (rd : RegIdx) (imm : BitVec 20) :
    exec (.auipc rd imm) s = finishReg s rd (s.pc + immU imm) := rfl

theorem exec_jal (rd : RegIdx) (offset : BitVec 21) :
    exec (.jal rd offset) s = jumpOp rd (jalTarget s offset) s := rfl

theorem exec_jalr (rd rs1 : RegIdx) (imm : BitVec 12) :
    exec (.jalr rd rs1 imm) s = jumpOp rd (jalrTarget s rs1 imm) s := rfl

theorem exec_ecall (rd rs1 : RegIdx) :
    exec (.ecall rd rs1) s = raise .ecallTermination := rfl

theorem exec_ebreak (rd rs1 : RegIdx) :
    exec (.ebreak rd rs1) s = raise .unsupportedInstruction := rfl

theorem exec_mret (rd rs1 : RegIdx) :
    exec (.mret rd rs1) s = trapReturn s := rfl

theorem exec_csrrw (rd rs1 : RegIdx) (csr : CsrIdx) :
    exec (.csrrw rd rs1 csr) s = csrWriteOp rd csr (readReg s rs1) s := rfl

theorem exec_csrrs (rd rs1 : RegIdx) (csr : CsrIdx) :
    exec (.csrrs rd rs1 csr) s = csrSetOp rd csr (readReg s rs1) s := rfl

theorem exec_csrrc (rd rs1 : RegIdx) (csr : CsrIdx) :
    exec (.csrrc rd rs1 csr) s = csrClearOp rd csr (readReg s rs1) s := rfl

theorem exec_csrrwi (rd : RegIdx) (uimm : BitVec 5) (csr : CsrIdx) :
    exec (.csrrwi rd uimm csr) s = csrWriteOp rd csr (uimm5 uimm) s := rfl

theorem exec_csrrsi (rd : RegIdx) (uimm : BitVec 5) (csr : CsrIdx) :
    exec (.csrrsi rd uimm csr) s = csrSetOp rd csr (uimm5 uimm) s := rfl

theorem exec_csrrci (rd : RegIdx) (uimm : BitVec 5) (csr : CsrIdx) :
    exec (.csrrci rd uimm csr) s = csrClearOp rd csr (uimm5 uimm) s := rfl

theorem exec_lrW (rd rs1 rs2 : RegIdx) (aq rl : BitVec 1) :
    exec (.lrW rd rs1 rs2 aq rl) s = loadOp .word id rd (atomicAddr s rs1) s := rfl

theorem exec_scW (rd rs1 rs2 : RegIdx) (aq rl : BitVec 1) :
    exec (.scW rd rs1 rs2 aq rl) s = execScW rd rs1 rs2 aq rl s := rfl

theorem exec_amoswapW (rd rs1 rs2 : RegIdx) (aq rl : BitVec 1) :
    exec (.amoswapW rd rs1 rs2 aq rl) s = amoOp (fun _ v => v) rd rs1 rs2 s := rfl

theorem exec_amoaddW (rd rs1 rs2 : RegIdx) (aq rl : BitVec 1) :
    exec (.amoaddW rd rs1 rs2 aq rl) s = amoOp (fun old v => old + v) rd rs1 rs2 s := rfl

theorem exec_amoxorW (rd rs1 rs2 : RegIdx) (aq rl : BitVec 1) :
    exec (.amoxorW rd rs1 rs2 aq rl) s = amoOp (fun old v => old ^^^ v) rd rs1 rs2 s := rfl

theorem exec_amoandW (rd rs1 rs2 : RegIdx) (aq rl : BitVec 1) :
    exec (.amoandW rd rs1 rs2 aq rl) s = amoOp (fun old v => old &&& v) rd rs1 rs2 s := rfl

theorem exec_amoorW (rd rs1 rs2 : RegIdx) (aq rl : BitVec 1) :
    exec (.amoorW rd rs1 rs2 aq rl) s = amoOp (fun old v => old ||| v) rd rs1 rs2 s := rfl

theorem exec_amominW (rd rs1 rs2 : RegIdx) (aq rl : BitVec 1) :
    exec (.amominW rd rs1 rs2 aq rl) s = amoOp minSignedWord rd rs1 rs2 s := rfl

theorem exec_amomaxW (rd rs1 rs2 : RegIdx) (aq rl : BitVec 1) :
    exec (.amomaxW rd rs1 rs2 aq rl) s = amoOp maxSignedWord rd rs1 rs2 s := rfl

theorem exec_amominuW (rd rs1 rs2 : RegIdx) (aq rl : BitVec 1) :
    exec (.amominuW rd rs1 rs2 aq rl) s = amoOp minUnsignedWord rd rs1 rs2 s := rfl

theorem exec_amomaxuW (rd rs1 rs2 : RegIdx) (aq rl : BitVec 1) :
    exec (.amomaxuW rd rs1 rs2 aq rl) s = amoOp maxUnsignedWord rd rs1 rs2 s := rfl

theorem exec_fence (rd rs1 : RegIdx) (fm pred succ : BitVec 4) :
    exec (.fence rd rs1 fm pred succ) s = finish s := rfl

theorem exec_fenceI (rd rs1 : RegIdx) (imm : BitVec 12) :
    exec (.fenceI rd rs1 imm) s = finish s := rfl

end Sys2Proof.Machine
end

