-- ==== Sys2Proof/Laws/Encoding.lean ====
section
/-! SUPPORT. Where each field of an encoded instruction sits, and that the fields of a word make up the word. -/

namespace Sys2Proof

/-- Bit `j` of a placed field. -/
theorem getLsbD_put {n : Nat} (lo : Nat) (v : BitVec n) (j : Nat) :
    (put lo v).getLsbD j = (decide (j < 32) && decide (lo ≤ j) && v.getLsbD (j - lo)) := by
  unfold put
  simp only [BitVec.getLsbD_shiftLeft, BitVec.getLsbD_setWidth]
  by_cases h : j < 32
  · by_cases h2 : lo ≤ j
    · have h3 : j - lo < 32 := by omega
      have h4 : ¬ j < lo := by omega
      simp [h, h2, h3, h4]
    · have h4 : j < lo := by omega
      simp [h2, h4]
  · simp [h]

/-- Bit `i` of a field. -/
theorem getLsbD_bits (w : Word) (lo len i : Nat) :
    (bits w lo len).getLsbD i = (decide (i < len) && w.getLsbD (lo + i)) := by
  simp [bits]

theorem bits_or (u w : Word) (lo len : Nat) : bits (u ||| w) lo len = bits u lo len ||| bits w lo len := by
  apply BitVec.eq_of_getLsbD_eq
  intro i hi
  simp only [BitVec.getLsbD_or, getLsbD_bits]
  simp [hi]

/-- A placed field is read back where it was placed. -/
theorem bits_put_self {n lo : Nat} (h : lo + n ≤ 32) (v : BitVec n) : bits (put lo v) lo n = v := by
  apply BitVec.eq_of_getLsbD_eq
  intro i hi
  have h1 : lo + i < 32 := by omega
  rw [getLsbD_bits, getLsbD_put]
  simp [hi, h1]

/-- A placed field reads as 0 where it was not placed. -/
theorem bits_put_other {n lo lo' len : Nat} (h : lo' + n ≤ lo ∨ lo + len ≤ lo') (v : BitVec n) :
    bits (put lo' v) lo len = 0#len := by
  apply BitVec.eq_of_getLsbD_eq
  intro i hi
  simp only [getLsbD_bits, getLsbD_put, BitVec.getLsbD_zero]
  by_cases h1 : lo' ≤ lo + i
  · have : v.getLsbD (lo + i - lo') = false := BitVec.getLsbD_of_ge _ _ (by omega)
    simp [this]
  · simp [h1]

/-- Two words agree on their lowest `lo` bits. -/
def Agree (u w : Word) (lo : Nat) : Prop := ∀ i < lo, u.getLsbD i = w.getLsbD i

theorem agree_zero (u w : Word) : Agree u w 0 := fun _ h => absurd h (Nat.not_lt_zero _)

/-- Words that agree up to a field, and on the field, agree past it. -/
theorem Agree.step {u w : Word} {lo : Nat} (h : Agree u w lo) (n : Nat) (hb : bits u lo n = bits w lo n) :
    Agree u w (lo + n) := by
  intro i hi
  by_cases hl : i < lo
  · exact h i hl
  · have h1 : i - lo < n := by omega
    have h2 := congrArg (fun b => b.getLsbD (i - lo)) hb
    simp only [getLsbD_bits, h1, decide_true, Bool.true_and] at h2
    rwa [show lo + (i - lo) = i by omega] at h2

/-- Words that agree on all 32 bits are equal. -/
theorem Agree.eq {u w : Word} (h : Agree u w 32) : u = w := BitVec.eq_of_getLsbD_eq fun i hi => h i hi

theorem put_and {n : Nat} (lo : Nat) (v : BitVec n) (m : Word) : put lo v &&& m = put lo (v &&& bits m lo n) := by
  apply BitVec.eq_of_getLsbD_eq
  intro i hi
  simp only [BitVec.getLsbD_and, getLsbD_put, getLsbD_bits]
  by_cases h1 : lo ≤ i
  · by_cases h2 : i - lo < n
    · simp [h2, show lo + (i - lo) = i by omega, Bool.and_assoc]
    · have : v.getLsbD (i - lo) = false := BitVec.getLsbD_of_ge _ _ (by omega)
      simp [this]
  · simp [h1]

theorem put_zero (n lo : Nat) : put lo (0#n) = 0#32 := by simp [put]

/-- The pieces that an immediate is cut into, put together again. -/
theorem immS_append (imm : BitVec 12) : imm.extractLsb' 5 7 ++ imm.extractLsb' 0 5 = imm := by
  apply BitVec.eq_of_getLsbD_eq
  intro i hi
  simp only [BitVec.getLsbD_append, BitVec.getLsbD_extractLsb']
  interval_cases i <;> simp

theorem unchecked_append (u : BitVec 6) : u.extractLsb' 5 1 ++ u.extractLsb' 0 5 = u := by
  apply BitVec.eq_of_getLsbD_eq
  intro i hi
  simp only [BitVec.getLsbD_append, BitVec.getLsbD_extractLsb']
  interval_cases i <;> simp

theorem immB_append (imm : BitVec 13) (h : imm.getLsbD 0 = false) :
    imm.extractLsb' 12 1 ++ imm.extractLsb' 11 1 ++ imm.extractLsb' 5 6 ++ imm.extractLsb' 1 4 ++ 0#1 = imm := by
  apply BitVec.eq_of_getLsbD_eq
  intro i hi
  simp only [BitVec.getLsbD_append, BitVec.getLsbD_extractLsb']
  interval_cases i
  · simpa using h
  all_goals simp

theorem immJ_append (imm : BitVec 21) (h : imm.getLsbD 0 = false) :
    imm.extractLsb' 20 1 ++ imm.extractLsb' 12 8 ++ imm.extractLsb' 11 1 ++ imm.extractLsb' 1 10 ++ 0#1 = imm := by
  apply BitVec.eq_of_getLsbD_eq
  intro i hi
  simp only [BitVec.getLsbD_append, BitVec.getLsbD_extractLsb']
  interval_cases i
  · simpa using h
  all_goals simp

/-! ## Format R -/

@[simp] theorem funct7_encodeR (f7 : BitVec 7) (rs2 rs1 : RegIdx) (f3 : BitVec 3) (rd : RegIdx) (op : BitVec 7) :
    funct7 (encodeR f7 rs2 rs1 f3 rd op) = f7 := by
  simp [encodeR, funct7, bits_or, bits_put_self, bits_put_other]

@[simp] theorem fieldRs2_encodeR (f7 : BitVec 7) (rs2 rs1 : RegIdx) (f3 : BitVec 3) (rd : RegIdx) (op : BitVec 7) :
    fieldRs2 (encodeR f7 rs2 rs1 f3 rd op) = rs2 := by
  simp [encodeR, fieldRs2, bits_or, bits_put_self, bits_put_other]

@[simp] theorem fieldRs1_encodeR (f7 : BitVec 7) (rs2 rs1 : RegIdx) (f3 : BitVec 3) (rd : RegIdx) (op : BitVec 7) :
    fieldRs1 (encodeR f7 rs2 rs1 f3 rd op) = rs1 := by
  simp [encodeR, fieldRs1, bits_or, bits_put_self, bits_put_other]

@[simp] theorem funct3_encodeR (f7 : BitVec 7) (rs2 rs1 : RegIdx) (f3 : BitVec 3) (rd : RegIdx) (op : BitVec 7) :
    funct3 (encodeR f7 rs2 rs1 f3 rd op) = f3 := by
  simp [encodeR, funct3, bits_or, bits_put_self, bits_put_other]

@[simp] theorem fieldRd_encodeR (f7 : BitVec 7) (rs2 rs1 : RegIdx) (f3 : BitVec 3) (rd : RegIdx) (op : BitVec 7) :
    fieldRd (encodeR f7 rs2 rs1 f3 rd op) = rd := by
  simp [encodeR, fieldRd, bits_or, bits_put_self, bits_put_other]

@[simp] theorem opcode_encodeR (f7 : BitVec 7) (rs2 rs1 : RegIdx) (f3 : BitVec 3) (rd : RegIdx) (op : BitVec 7) :
    opcode (encodeR f7 rs2 rs1 f3 rd op) = op := by
  simp [encodeR, opcode, bits_or, bits_put_self, bits_put_other]

/-! ## Format I -/

@[simp] theorem funct12_encodeI (imm : BitVec 12) (rs1 : RegIdx) (f3 : BitVec 3) (rd : RegIdx) (op : BitVec 7) :
    funct12 (encodeI imm rs1 f3 rd op) = imm := by
  simp [encodeI, funct12, bits_or, bits_put_self, bits_put_other]

@[simp] theorem fieldRs1_encodeI (imm : BitVec 12) (rs1 : RegIdx) (f3 : BitVec 3) (rd : RegIdx) (op : BitVec 7) :
    fieldRs1 (encodeI imm rs1 f3 rd op) = rs1 := by
  simp [encodeI, fieldRs1, bits_or, bits_put_self, bits_put_other]

@[simp] theorem funct3_encodeI (imm : BitVec 12) (rs1 : RegIdx) (f3 : BitVec 3) (rd : RegIdx) (op : BitVec 7) :
    funct3 (encodeI imm rs1 f3 rd op) = f3 := by
  simp [encodeI, funct3, bits_or, bits_put_self, bits_put_other]

@[simp] theorem fieldRd_encodeI (imm : BitVec 12) (rs1 : RegIdx) (f3 : BitVec 3) (rd : RegIdx) (op : BitVec 7) :
    fieldRd (encodeI imm rs1 f3 rd op) = rd := by
  simp [encodeI, fieldRd, bits_or, bits_put_self, bits_put_other]

@[simp] theorem opcode_encodeI (imm : BitVec 12) (rs1 : RegIdx) (f3 : BitVec 3) (rd : RegIdx) (op : BitVec 7) :
    opcode (encodeI imm rs1 f3 rd op) = op := by
  simp [encodeI, opcode, bits_or, bits_put_self, bits_put_other]

/-! ## Format S -/

@[simp] theorem fieldImmS_encodeS (imm : BitVec 12) (rs2 rs1 : RegIdx) (f3 : BitVec 3) (op : BitVec 7) :
    fieldImmS (encodeS imm rs2 rs1 f3 op) = imm := by
  simp [encodeS, fieldImmS, immS_append, bits_or, bits_put_self, bits_put_other]

@[simp] theorem fieldRs2_encodeS (imm : BitVec 12) (rs2 rs1 : RegIdx) (f3 : BitVec 3) (op : BitVec 7) :
    fieldRs2 (encodeS imm rs2 rs1 f3 op) = rs2 := by
  simp [encodeS, fieldRs2, bits_or, bits_put_self, bits_put_other]

@[simp] theorem fieldRs1_encodeS (imm : BitVec 12) (rs2 rs1 : RegIdx) (f3 : BitVec 3) (op : BitVec 7) :
    fieldRs1 (encodeS imm rs2 rs1 f3 op) = rs1 := by
  simp [encodeS, fieldRs1, bits_or, bits_put_self, bits_put_other]

@[simp] theorem funct3_encodeS (imm : BitVec 12) (rs2 rs1 : RegIdx) (f3 : BitVec 3) (op : BitVec 7) :
    funct3 (encodeS imm rs2 rs1 f3 op) = f3 := by
  simp [encodeS, funct3, bits_or, bits_put_self, bits_put_other]

@[simp] theorem opcode_encodeS (imm : BitVec 12) (rs2 rs1 : RegIdx) (f3 : BitVec 3) (op : BitVec 7) :
    opcode (encodeS imm rs2 rs1 f3 op) = op := by
  simp [encodeS, opcode, bits_or, bits_put_self, bits_put_other]

/-! ## Format B -/

theorem fieldImmB_encodeB (imm : BitVec 13) (rs2 rs1 : RegIdx) (f3 : BitVec 3) (op : BitVec 7)
    (h : imm.getLsbD 0 = false) : fieldImmB (encodeB imm rs2 rs1 f3 op) = imm := by
  simp [fieldImmB, encodeB, bits_or, bits_put_self, bits_put_other, immB_append imm h]

@[simp] theorem fieldRs2_encodeB (imm : BitVec 13) (rs2 rs1 : RegIdx) (f3 : BitVec 3) (op : BitVec 7) :
    fieldRs2 (encodeB imm rs2 rs1 f3 op) = rs2 := by
  simp [encodeB, fieldRs2, bits_or, bits_put_self, bits_put_other]

@[simp] theorem fieldRs1_encodeB (imm : BitVec 13) (rs2 rs1 : RegIdx) (f3 : BitVec 3) (op : BitVec 7) :
    fieldRs1 (encodeB imm rs2 rs1 f3 op) = rs1 := by
  simp [encodeB, fieldRs1, bits_or, bits_put_self, bits_put_other]

@[simp] theorem funct3_encodeB (imm : BitVec 13) (rs2 rs1 : RegIdx) (f3 : BitVec 3) (op : BitVec 7) :
    funct3 (encodeB imm rs2 rs1 f3 op) = f3 := by
  simp [encodeB, funct3, bits_or, bits_put_self, bits_put_other]

@[simp] theorem opcode_encodeB (imm : BitVec 13) (rs2 rs1 : RegIdx) (f3 : BitVec 3) (op : BitVec 7) :
    opcode (encodeB imm rs2 rs1 f3 op) = op := by
  simp [encodeB, opcode, bits_or, bits_put_self, bits_put_other]

/-! ## Format U -/

@[simp] theorem fieldImmU_encodeU (imm : BitVec 20) (rd : RegIdx) (op : BitVec 7) :
    fieldImmU (encodeU imm rd op) = imm := by
  simp [encodeU, fieldImmU, bits_or, bits_put_self, bits_put_other]

@[simp] theorem fieldRd_encodeU (imm : BitVec 20) (rd : RegIdx) (op : BitVec 7) :
    fieldRd (encodeU imm rd op) = rd := by
  simp [encodeU, fieldRd, bits_or, bits_put_self, bits_put_other]

@[simp] theorem opcode_encodeU (imm : BitVec 20) (rd : RegIdx) (op : BitVec 7) :
    opcode (encodeU imm rd op) = op := by
  simp [encodeU, opcode, bits_or, bits_put_self, bits_put_other]

/-! ## Format J -/

theorem fieldImmJ_encodeJ (imm : BitVec 21) (rd : RegIdx) (op : BitVec 7)
    (h : imm.getLsbD 0 = false) : fieldImmJ (encodeJ imm rd op) = imm := by
  simp [fieldImmJ, encodeJ, bits_or, bits_put_self, bits_put_other, immJ_append imm h]

@[simp] theorem fieldRd_encodeJ (imm : BitVec 21) (rd : RegIdx) (op : BitVec 7) :
    fieldRd (encodeJ imm rd op) = rd := by
  simp [encodeJ, fieldRd, bits_or, bits_put_self, bits_put_other]

@[simp] theorem opcode_encodeJ (imm : BitVec 21) (rd : RegIdx) (op : BitVec 7) :
    opcode (encodeJ imm rd op) = op := by
  simp [encodeJ, opcode, bits_or, bits_put_self, bits_put_other]

/-! ## Format A -/

@[simp] theorem funct5_encodeA (f5 : BitVec 5) (aq rl : BitVec 1) (rs2 rs1 rd : RegIdx) :
    funct5 (encodeA f5 aq rl rs2 rs1 rd) = f5 := by
  simp [encodeA, funct5, bits_or, bits_put_self, bits_put_other]

@[simp] theorem fieldAq_encodeA (f5 : BitVec 5) (aq rl : BitVec 1) (rs2 rs1 rd : RegIdx) :
    fieldAq (encodeA f5 aq rl rs2 rs1 rd) = aq := by
  simp [encodeA, fieldAq, bits_or, bits_put_self, bits_put_other]

@[simp] theorem fieldRl_encodeA (f5 : BitVec 5) (aq rl : BitVec 1) (rs2 rs1 rd : RegIdx) :
    fieldRl (encodeA f5 aq rl rs2 rs1 rd) = rl := by
  simp [encodeA, fieldRl, bits_or, bits_put_self, bits_put_other]

@[simp] theorem fieldRs2_encodeA (f5 : BitVec 5) (aq rl : BitVec 1) (rs2 rs1 rd : RegIdx) :
    fieldRs2 (encodeA f5 aq rl rs2 rs1 rd) = rs2 := by
  simp [encodeA, fieldRs2, bits_or, bits_put_self, bits_put_other]

@[simp] theorem fieldRs1_encodeA (f5 : BitVec 5) (aq rl : BitVec 1) (rs2 rs1 rd : RegIdx) :
    fieldRs1 (encodeA f5 aq rl rs2 rs1 rd) = rs1 := by
  simp [encodeA, fieldRs1, bits_or, bits_put_self, bits_put_other]

@[simp] theorem funct3_encodeA (f5 : BitVec 5) (aq rl : BitVec 1) (rs2 rs1 rd : RegIdx) :
    funct3 (encodeA f5 aq rl rs2 rs1 rd) = 2#3 := by
  simp [encodeA, funct3, bits_or, bits_put_self, bits_put_other]

@[simp] theorem fieldRd_encodeA (f5 : BitVec 5) (aq rl : BitVec 1) (rs2 rs1 rd : RegIdx) :
    fieldRd (encodeA f5 aq rl rs2 rs1 rd) = rd := by
  simp [encodeA, fieldRd, bits_or, bits_put_self, bits_put_other]

@[simp] theorem opcode_encodeA (f5 : BitVec 5) (aq rl : BitVec 1) (rs2 rs1 rd : RegIdx) :
    opcode (encodeA f5 aq rl rs2 rs1 rd) = 0x2F#7 := by
  simp [encodeA, opcode, bits_or, bits_put_self, bits_put_other]

/-! ## Format Srai -/

@[simp] theorem fieldUnchecked_encodeSrai (u : BitVec 6) (shamt : BitVec 5) (rs1 rd : RegIdx) :
    fieldUnchecked (encodeSrai u shamt rs1 rd) = u := by
  simp [encodeSrai, fieldUnchecked, unchecked_append, bits_or, bits_put_self, bits_put_other]

@[simp] theorem fieldRs2_encodeSrai (u : BitVec 6) (shamt : BitVec 5) (rs1 rd : RegIdx) :
    fieldRs2 (encodeSrai u shamt rs1 rd) = shamt := by
  simp [encodeSrai, fieldRs2, bits_or, bits_put_self, bits_put_other]

@[simp] theorem fieldRs1_encodeSrai (u : BitVec 6) (shamt : BitVec 5) (rs1 rd : RegIdx) :
    fieldRs1 (encodeSrai u shamt rs1 rd) = rs1 := by
  simp [encodeSrai, fieldRs1, bits_or, bits_put_self, bits_put_other]

@[simp] theorem funct3_encodeSrai (u : BitVec 6) (shamt : BitVec 5) (rs1 rd : RegIdx) :
    funct3 (encodeSrai u shamt rs1 rd) = 5#3 := by
  simp [encodeSrai, funct3, bits_or, bits_put_self, bits_put_other]

@[simp] theorem fieldRd_encodeSrai (u : BitVec 6) (shamt : BitVec 5) (rs1 rd : RegIdx) :
    fieldRd (encodeSrai u shamt rs1 rd) = rd := by
  simp [encodeSrai, fieldRd, bits_or, bits_put_self, bits_put_other]

@[simp] theorem opcode_encodeSrai (u : BitVec 6) (shamt : BitVec 5) (rs1 rd : RegIdx) :
    opcode (encodeSrai u shamt rs1 rd) = 0x13#7 := by
  simp [encodeSrai, opcode, bits_or, bits_put_self, bits_put_other]

@[simp] theorem bits30_encodeSrai (u : BitVec 6) (shamt : BitVec 5) (rs1 rd : RegIdx) :
    bits (encodeSrai u shamt rs1 rd) 30 1 = 1#1 := by
  simp [encodeSrai, bits_or, bits_put_self, bits_put_other]

/-! ## Format Fence -/

@[simp] theorem bits28_encodeFence (fm pred succ : BitVec 4) (rs1 rd : RegIdx) :
    bits (encodeFence fm pred succ rs1 rd) 28 4 = fm := by
  simp [encodeFence, bits_or, bits_put_self, bits_put_other]

@[simp] theorem bits24_encodeFence (fm pred succ : BitVec 4) (rs1 rd : RegIdx) :
    bits (encodeFence fm pred succ rs1 rd) 24 4 = pred := by
  simp [encodeFence, bits_or, bits_put_self, bits_put_other]

@[simp] theorem bits20_encodeFence (fm pred succ : BitVec 4) (rs1 rd : RegIdx) :
    bits (encodeFence fm pred succ rs1 rd) 20 4 = succ := by
  simp [encodeFence, bits_or, bits_put_self, bits_put_other]

@[simp] theorem fieldRs1_encodeFence (fm pred succ : BitVec 4) (rs1 rd : RegIdx) :
    fieldRs1 (encodeFence fm pred succ rs1 rd) = rs1 := by
  simp [encodeFence, fieldRs1, bits_or, bits_put_self, bits_put_other]

@[simp] theorem funct3_encodeFence (fm pred succ : BitVec 4) (rs1 rd : RegIdx) :
    funct3 (encodeFence fm pred succ rs1 rd) = 0#3 := by
  simp [encodeFence, funct3, bits_or, bits_put_self, bits_put_other]

@[simp] theorem fieldRd_encodeFence (fm pred succ : BitVec 4) (rs1 rd : RegIdx) :
    fieldRd (encodeFence fm pred succ rs1 rd) = rd := by
  simp [encodeFence, fieldRd, bits_or, bits_put_self, bits_put_other]

@[simp] theorem opcode_encodeFence (fm pred succ : BitVec 4) (rs1 rd : RegIdx) :
    opcode (encodeFence fm pred succ rs1 rd) = 0x0F#7 := by
  simp [encodeFence, opcode, bits_or, bits_put_self, bits_put_other]

/-! ## A word is made of its fields -/

/-- A part of a placed field. -/
theorem bits_put_part {n lo lo' len : Nat} (h : lo' ≤ lo ∧ lo + len ≤ lo' + n ∧ lo' + n ≤ 32) (v : BitVec n) :
    bits (put lo' v) lo len = v.extractLsb' (lo - lo') len := by
  apply BitVec.eq_of_getLsbD_eq
  intro i hi
  simp only [getLsbD_bits, getLsbD_put, BitVec.getLsbD_extractLsb']
  have h1 : lo + i < 32 := by omega
  have h2 : lo' ≤ lo + i := by omega
  simp [hi, h1, h2, show lo + i - lo' = lo - lo' + i by omega]

/-- A part of a field. -/
theorem bits_bits (w : Word) (lo n i len : Nat) (h : i + len ≤ n) :
    (bits w lo n).extractLsb' i len = bits w (lo + i) len := by
  apply BitVec.eq_of_getLsbD_eq
  intro j hj
  simp only [getLsbD_bits, BitVec.getLsbD_extractLsb']
  have h1 : i + j < n := by omega
  simp [hj, h1, Nat.add_assoc]

theorem fieldImmS_pieces (w : Word) :
    (fieldImmS w).extractLsb' 5 7 = bits w 25 7 ∧ (fieldImmS w).extractLsb' 0 5 = bits w 7 5 := by
  constructor <;> apply BitVec.eq_of_getLsbD_eq <;> intro i hi <;>
    simp only [fieldImmS, BitVec.getLsbD_append, BitVec.getLsbD_extractLsb', getLsbD_bits] <;>
    interval_cases i <;> simp

theorem fieldUnchecked_pieces (w : Word) :
    (fieldUnchecked w).extractLsb' 5 1 = bits w 31 1 ∧ (fieldUnchecked w).extractLsb' 0 5 = bits w 25 5 := by
  constructor <;> apply BitVec.eq_of_getLsbD_eq <;> intro i hi <;>
    simp only [fieldUnchecked, BitVec.getLsbD_append, BitVec.getLsbD_extractLsb', getLsbD_bits] <;>
    interval_cases i <;> simp

theorem fieldImmB_pieces (w : Word) :
    (fieldImmB w).extractLsb' 12 1 = bits w 31 1 ∧ (fieldImmB w).extractLsb' 11 1 = bits w 7 1 ∧
      (fieldImmB w).extractLsb' 5 6 = bits w 25 6 ∧ (fieldImmB w).extractLsb' 1 4 = bits w 8 4 := by
  refine ⟨?_, ?_, ?_, ?_⟩ <;> apply BitVec.eq_of_getLsbD_eq <;> intro i hi <;>
    simp only [fieldImmB, BitVec.getLsbD_append, BitVec.getLsbD_extractLsb', getLsbD_bits] <;>
    interval_cases i <;> simp

theorem fieldImmJ_pieces (w : Word) :
    (fieldImmJ w).extractLsb' 20 1 = bits w 31 1 ∧ (fieldImmJ w).extractLsb' 12 8 = bits w 12 8 ∧
      (fieldImmJ w).extractLsb' 11 1 = bits w 20 1 ∧ (fieldImmJ w).extractLsb' 1 10 = bits w 21 10 := by
  refine ⟨?_, ?_, ?_, ?_⟩ <;> apply BitVec.eq_of_getLsbD_eq <;> intro i hi <;>
    simp only [fieldImmJ, BitVec.getLsbD_append, BitVec.getLsbD_extractLsb', getLsbD_bits] <;>
    interval_cases i <;> simp

theorem encodeR_fields (w : Word) :
    encodeR (funct7 w) (fieldRs2 w) (fieldRs1 w) (funct3 w) (fieldRd w) (opcode w) = w := by
  refine Agree.eq (Agree.step (Agree.step (Agree.step (Agree.step (Agree.step (Agree.step (agree_zero _ _) 7 ?_) 5 ?_) 3 ?_) 5 ?_) 5 ?_) 7 ?_) <;>
    simp [encodeR, funct7, fieldRs2, fieldRs1, funct3, fieldRd, opcode, bits_or, bits_put_self, bits_put_other]

theorem encodeI_fields (w : Word) :
    encodeI (funct12 w) (fieldRs1 w) (funct3 w) (fieldRd w) (opcode w) = w := by
  refine Agree.eq (Agree.step (Agree.step (Agree.step (Agree.step (Agree.step (agree_zero _ _) 7 ?_) 5 ?_) 3 ?_) 5 ?_) 12 ?_) <;>
    simp [encodeI, funct12, fieldRs1, funct3, fieldRd, opcode, bits_or, bits_put_self, bits_put_other]

theorem encodeS_fields (w : Word) :
    encodeS (fieldImmS w) (fieldRs2 w) (fieldRs1 w) (funct3 w) (opcode w) = w := by
  refine Agree.eq (Agree.step (Agree.step (Agree.step (Agree.step (Agree.step (Agree.step (agree_zero _ _) 7 ?_) 5 ?_) 3 ?_) 5 ?_) 5 ?_) 7 ?_) <;>
    simp [encodeS, (fieldImmS_pieces w).1, (fieldImmS_pieces w).2, fieldRs2, fieldRs1, funct3, opcode, bits_or, bits_put_self, bits_put_other]

theorem encodeB_fields (w : Word) :
    encodeB (fieldImmB w) (fieldRs2 w) (fieldRs1 w) (funct3 w) (opcode w) = w := by
  refine Agree.eq (Agree.step (Agree.step (Agree.step (Agree.step (Agree.step (Agree.step (Agree.step (Agree.step (agree_zero _ _) 7 ?_) 1 ?_) 4 ?_) 3 ?_) 5 ?_) 5 ?_) 6 ?_) 1 ?_) <;>
    simp [encodeB, (fieldImmB_pieces w).1, (fieldImmB_pieces w).2.1, (fieldImmB_pieces w).2.2.1,
      (fieldImmB_pieces w).2.2.2, fieldRs2, fieldRs1, funct3, opcode, bits_or, bits_put_self, bits_put_other]

theorem encodeU_fields (w : Word) :
    encodeU (fieldImmU w) (fieldRd w) (opcode w) = w := by
  refine Agree.eq (Agree.step (Agree.step (Agree.step (agree_zero _ _) 7 ?_) 5 ?_) 20 ?_) <;>
    simp [encodeU, fieldImmU, fieldRd, opcode, bits_or, bits_put_self, bits_put_other]

theorem encodeJ_fields (w : Word) :
    encodeJ (fieldImmJ w) (fieldRd w) (opcode w) = w := by
  refine Agree.eq (Agree.step (Agree.step (Agree.step (Agree.step (Agree.step (Agree.step (agree_zero _ _) 7 ?_) 5 ?_) 8 ?_) 1 ?_) 10 ?_) 1 ?_) <;>
    simp [encodeJ, (fieldImmJ_pieces w).1, (fieldImmJ_pieces w).2.1, (fieldImmJ_pieces w).2.2.1,
      (fieldImmJ_pieces w).2.2.2, fieldRd, opcode, bits_or, bits_put_self, bits_put_other]

theorem encodeA_fields (w : Word) :
    encodeA (funct5 w) (fieldAq w) (fieldRl w) (fieldRs2 w) (fieldRs1 w) (fieldRd w) = 
      encodeR (funct7 w) (fieldRs2 w) (fieldRs1 w) 2#3 (fieldRd w) 0x2F#7 := by
  refine Agree.eq (Agree.step (Agree.step (Agree.step (Agree.step (Agree.step (Agree.step (Agree.step (Agree.step (agree_zero _ _) 7 ?_) 5 ?_) 3 ?_) 5 ?_) 5 ?_) 1 ?_) 1 ?_) 5 ?_) <;>
    simp [encodeA, encodeR, funct5, fieldAq, fieldRl, funct7, bits_put_part, bits_bits, bits_or, bits_put_other]

theorem encodeFence_fields (w : Word) (rs1 rd : RegIdx) :
    encodeFence (bits w 28 4) (bits w 24 4) (bits w 20 4) rs1 rd = encodeI (funct12 w) rs1 0#3 rd 0x0F#7 := by
  refine Agree.eq (Agree.step (Agree.step (Agree.step (Agree.step (Agree.step (Agree.step (Agree.step (agree_zero _ _) 7 ?_) 5 ?_) 3 ?_) 5 ?_) 4 ?_) 4 ?_) 4 ?_) <;>
    simp [encodeFence, encodeI, funct12, bits_put_part, bits_bits, bits_or, bits_put_other]

theorem encodeSrai_fields (w : Word) (h : bits w 30 1 = 1#1) (shamt rs1 rd : RegIdx) :
    encodeSrai (fieldUnchecked w) shamt rs1 rd = encodeR (funct7 w) shamt rs1 5#3 rd 0x13#7 := by
  refine Agree.eq (Agree.step (Agree.step (Agree.step (Agree.step (Agree.step (Agree.step (Agree.step (Agree.step (agree_zero _ _) 7 ?_) 5 ?_) 3 ?_) 5 ?_) 5 ?_) 5 ?_) 1 ?_) 1 ?_) <;>
    simp [encodeSrai, encodeR, (fieldUnchecked_pieces w).1, (fieldUnchecked_pieces w).2, funct7, bits_put_part,
      bits_bits, h, bits_or, bits_put_other]

/-! ## The fixed bits of an encoded instruction -/

theorem and_ones3 (x : BitVec 3) : x &&& 7#3 = x := BitVec.and_allOnes

theorem and_ones5 (x : BitVec 5) : x &&& 31#5 = x := BitVec.and_allOnes

theorem and_ones7 (x : BitVec 7) : x &&& 127#7 = x := BitVec.and_allOnes

theorem and_ones12 (x : BitVec 12) : x &&& 4095#12 = x := BitVec.and_allOnes

theorem encodeR_mask (f7 : BitVec 7) (rs2 rs1 : RegIdx) (f3 : BitVec 3) (rd : RegIdx) (op : BitVec 7) :
    encodeR f7 rs2 rs1 f3 rd op &&& 0xFE00707F#32 = put 25 f7 ||| put 12 f3 ||| put 0 op := by
  simp [encodeR, BitVec.and_or_distrib_right, put_and, put_zero, bits, and_ones3, and_ones7]

theorem encodeI_mask (imm : BitVec 12) (rs1 : RegIdx) (f3 : BitVec 3) (rd : RegIdx) (op : BitVec 7) :
    encodeI imm rs1 f3 rd op &&& 0x707F#32 = put 12 f3 ||| put 0 op := by
  simp [encodeI, BitVec.and_or_distrib_right, put_and, put_zero, bits, and_ones3, and_ones7]

theorem encodeS_mask (imm : BitVec 12) (rs2 rs1 : RegIdx) (f3 : BitVec 3) (op : BitVec 7) :
    encodeS imm rs2 rs1 f3 op &&& 0x707F#32 = put 12 f3 ||| put 0 op := by
  simp [encodeS, BitVec.and_or_distrib_right, put_and, put_zero, bits, and_ones3, and_ones7]

theorem encodeB_mask (imm : BitVec 13) (rs2 rs1 : RegIdx) (f3 : BitVec 3) (op : BitVec 7) :
    encodeB imm rs2 rs1 f3 op &&& 0x707F#32 = put 12 f3 ||| put 0 op := by
  simp [encodeB, BitVec.and_or_distrib_right, put_and, put_zero, bits, and_ones3, and_ones7]

theorem encodeU_mask (imm : BitVec 20) (rd : RegIdx) (op : BitVec 7) :
    encodeU imm rd op &&& 0x7F#32 = put 0 op := by
  simp [encodeU, BitVec.and_or_distrib_right, put_and, put_zero, bits, and_ones7]

theorem encodeJ_mask (imm : BitVec 21) (rd : RegIdx) (op : BitVec 7) :
    encodeJ imm rd op &&& 0x7F#32 = put 0 op := by
  simp [encodeJ, BitVec.and_or_distrib_right, put_and, put_zero, bits, and_ones7]

theorem encodeA_mask (f5 : BitVec 5) (aq rl : BitVec 1) (rs2 rs1 rd : RegIdx) :
    encodeA f5 aq rl rs2 rs1 rd &&& 0xF800707F#32 = put 27 f5 ||| 0x202F#32 := by
  simp only [encodeA, BitVec.and_or_distrib_right, put_and]
  simp [put_zero, bits, and_ones5, BitVec.or_assoc]
  rfl

theorem encodeSrai_mask (u : BitVec 6) (shamt : BitVec 5) (rs1 rd : RegIdx) :
    encodeSrai u shamt rs1 rd &&& 0x4000707F#32 = 0x40005013#32 := by
  simp only [encodeSrai, BitVec.and_or_distrib_right, put_and]
  simp [put_zero, bits]
  rfl

theorem encodeFence_mask (fm pred succ : BitVec 4) (rs1 rd : RegIdx) :
    encodeFence fm pred succ rs1 rd &&& 0x707F#32 = 0x0F#32 := by
  simp only [encodeFence, BitVec.and_or_distrib_right, put_and]
  simp [put_zero, bits]
  rfl

theorem encodeI_mask12 (imm : BitVec 12) (rs1 : RegIdx) (f3 : BitVec 3) (rd : RegIdx) (op : BitVec 7) :
    encodeI imm rs1 f3 rd op &&& 0xFFF0707F#32 = put 20 imm ||| put 12 f3 ||| put 0 op := by
  simp [encodeI, BitVec.and_or_distrib_right, put_and, put_zero, bits, and_ones3, and_ones7, and_ones12]

end Sys2Proof
end

