-- ==== Sys2Proof/Laws/Loader.lean ====
section
/-! SUPPORT. The loader: which segments it accepts, what it leaves in memory, and which parameters `boot` accepts. -/

namespace Sys2Proof.Machine

theorem Memory.wf_nil (c : Config) : Memory.wf c [] = true := rfl

/-- Everything the byte loader can do (R39, R282): it accepts the bytes exactly when each is inside the backing, keeps
the canonical form, and leaves the bytes where they belong. -/
theorem loadBytes_spec {c : Config} (bs : List Byte) (a : Nat) (m : Memory) (hm : Memory.wf c m = true)
    (ha : a + bs.length ≤ Config.addressSpace) :
    ((∃ m', loadBytes c a bs m = .ok m') ↔ ∀ k < bs.length, inBacking c (a + k) 1 = true) ∧
    (∀ m', loadBytes c a bs m = .ok m' → Memory.wf c m' = true ∧
      ∀ b, sparseGet (fillByte c) b m' =
        if h : a ≤ b ∧ b < a + bs.length then bs[b - a]'(by omega) else sparseGet (fillByte c) b m) := by
  induction bs generalizing a m with
  | nil =>
    refine ⟨by simp [loadBytes], fun m' h => ?_⟩
    cases h
    exact ⟨hm, fun b => by rw [dif_neg (by simp)]⟩
  | cons x bs ih =>
    simp only [List.length_cons] at ha ⊢
    by_cases hb : inBacking c a 1 = true
    · have := ih (a + 1) _ (Memory.wf_write hm x (by omega) hb) (by omega)
      rw [loadBytes, if_pos hb]
      refine ⟨?_, fun m' h => ?_⟩
      · rw [this.1]
        constructor
        · intro h k hk
          cases k with
          | zero => exact hb
          | succ k => rw [show a + (k + 1) = a + 1 + k by omega]; exact h k (by omega)
        · intro h k hk
          rw [show a + 1 + k = a + (k + 1) by omega]
          exact h (k + 1) (by omega)
      · obtain ⟨h1, h2⟩ := this.2 m' h
        refine ⟨h1, fun b => ?_⟩
        rw [h2 b, sparseGet_memoryWrite hm]
        by_cases h0 : b = a
        · subst h0
          rw [dif_neg (by omega), if_pos rfl, dif_pos (by omega)]
          simp
        · by_cases h3 : a + 1 ≤ b ∧ b < a + 1 + bs.length
          · rw [dif_pos h3, dif_pos (by omega)]
            have : b - a = (b - (a + 1)) + 1 := by omega
            simp [this]
          · rw [dif_neg h3, if_neg h0, dif_neg (by omega)]
    · rw [loadBytes, if_neg hb]
      exact ⟨⟨by simp, fun h => absurd (h 0 (by omega)) hb⟩, by simp⟩

/-- Everything the loader can do with a list of segments (R282): it accepts them exactly when each ends inside the
address space and the backing, keeps the canonical form, and the last segment that covers a byte gives it. -/
theorem loadSegments_spec {c : Config} (segs : List Segment) (m : Memory) (hm : Memory.wf c m = true) :
    ((∃ m', loadSegments c segs m = .ok m') ↔ ∀ q ∈ segs, q.1.toNat + q.2.length ≤ Config.addressSpace ∧
      ∀ k < q.2.length, inBacking c (q.1.toNat + k) 1 = true) ∧
    (∀ m', loadSegments c segs m = .ok m' → Memory.wf c m' = true ∧
      (∀ (pre post : List Segment) (seg : Segment) (k : Nat), segs = pre ++ seg :: post →
        ∀ hk : k < seg.2.length,
          (∀ q ∈ post, ¬ (q.1.toNat ≤ seg.1.toNat + k ∧ seg.1.toNat + k < q.1.toNat + q.2.length)) →
            sparseGet (fillByte c) (seg.1.toNat + k) m' = seg.2[k]) ∧
      (∀ a, (∀ q ∈ segs, ¬ (q.1.toNat ≤ a ∧ a < q.1.toNat + q.2.length)) →
        sparseGet (fillByte c) a m' = sparseGet (fillByte c) a m)) := by
  induction segs generalizing m with
  | nil =>
    refine ⟨by simp [loadSegments], fun m' h => ?_⟩
    cases h
    exact ⟨hm, by simp, fun _ _ => rfl⟩
  | cons s segs ih =>
    by_cases hl : s.1.toNat + s.2.length ≤ Config.addressSpace
    · have h1 := loadBytes_spec s.2 s.1.toNat m hm hl
      rcases e : loadBytes c s.1.toNat s.2 m with er | m1
      · have : loadSegments c (s :: segs) m = .error er := by simp [loadSegments, loadSegment, if_pos hl, e]
        rw [this]
        refine ⟨⟨by simp, fun h => ?_⟩, by simp⟩
        have := h1.1.2 (h s (by simp)).2
        rw [e] at this; simp at this
      · have h2 : loadSegments c (s :: segs) m = loadSegments c segs m1 := by
          simp [loadSegments, loadSegment, if_pos hl, e]
        obtain ⟨w1, g1⟩ := h1.2 m1 e
        obtain ⟨i1, i2⟩ := ih m1 w1
        rw [h2]
        refine ⟨?_, fun m' h => ?_⟩
        · rw [i1]
          have := h1.1.1 ⟨m1, e⟩
          simp [hl]; intro _; exact this
        · obtain ⟨j1, j2, j3⟩ := i2 m' h
          refine ⟨j1, ?_, ?_⟩
          · intro pre post seg k hs hk hp
            cases pre with
            | nil =>
              simp at hs
              obtain ⟨rfl, rfl⟩ := hs
              rw [j3 _ hp, g1, dif_pos (by omega)]
              simp
            | cons x pre =>
              simp at hs
              exact j2 pre post seg k hs.2 hk hp
          · intro a ha
            rw [j3 a (fun q hq => ha q (by simp [hq])), g1, dif_neg (ha s (by simp))]
    · have : loadSegments c (s :: segs) m = .error .segmentPastTop := by simp [loadSegments, loadSegment, if_neg hl]
      rw [this]
      refine ⟨⟨by simp, fun h => absurd (h s (by simp)).1 hl⟩, by simp⟩

/-- Everything `boot` can answer (R280, R285). -/
theorem boot_ok {c : Config} {entry : Word} {segs : List Segment} {inputs : List Word} {s : State}
    (h : boot c entry segs inputs = .ok s) :
    Config.wf c = true ∧ ∃ m, loadSegments c segs [] = .ok m ∧
      s = { regs := Vector.replicate 31 0#32, pc := entry, csrs := [], mem := m, count := 0, cfg := c,
            devIn := inputs, devLog := [] } := by
  unfold boot at h
  split at h
  · next hw =>
    rcases e : loadSegments c segs [] with er | m <;> rw [e] at h <;> cases h
    exact ⟨hw, m, rfl, rfl⟩
  · cases h

/-- Which parameters are legal (R32, R40, U17). -/
theorem configWf_iff (c : Config) :
    Config.wf c = true ↔ (∀ size, c.memBacking = .dense size → 0x80000000 + size ≤ 0x100000000) ∧
      (∀ p ∈ c.peripherals, p.base.toNat + p.size ≤ 0x100000000) := by
  unfold Config.wf
  simp only [Bool.and_eq_true, List.all_eq_true, decide_eq_true_eq]
  refine and_congr ?_ Iff.rfl
  cases c.memBacking
  · simp
  · simp only [decide_eq_true_eq]; simp [Config.memBase, Config.addressSpace]

end Sys2Proof.Machine
end

