-- ==== Sys2Proof/Laws/PerInstr.lean ====
section
/-! SUPPORT. The per-instruction family EncodesItsRow: the word of every instruction fits the row of
spec/opcode_table.json that carries its mnemonic, whatever its operands. -/

namespace Sys2Proof.Laws.EncodesItsRow

/-- The instruction's word has the fixed bits of its row of the table. -/
def Statement (i : Instr) : Prop := ∃ row ∈ opcodeTable, row.mnemonic = i.mnemonic ∧ row.fits false (encode i)

theorem mem_of_opcodeRowsImm {r : TableRow} (h : r ∈ opcodeRowsImm) : r ∈ opcodeTable := by
  simp only [opcodeTable, List.mem_append]
  tauto

theorem mem_of_opcodeRowsReg {r : TableRow} (h : r ∈ opcodeRowsReg) : r ∈ opcodeTable := by
  simp only [opcodeTable, List.mem_append]
  tauto

theorem mem_of_opcodeRowsMem {r : TableRow} (h : r ∈ opcodeRowsMem) : r ∈ opcodeTable := by
  simp only [opcodeTable, List.mem_append]
  tauto

theorem mem_of_opcodeRowsFlow {r : TableRow} (h : r ∈ opcodeRowsFlow) : r ∈ opcodeTable := by
  simp only [opcodeTable, List.mem_append]
  tauto

theorem mem_of_opcodeRowsSystem {r : TableRow} (h : r ∈ opcodeRowsSystem) : r ∈ opcodeTable := by
  simp only [opcodeTable, List.mem_append]
  tauto

theorem mem_of_opcodeRowsAtomic {r : TableRow} (h : r ∈ opcodeRowsAtomic) : r ∈ opcodeTable := by
  simp only [opcodeTable, List.mem_append]
  tauto

theorem addi (rd rs1 : RegIdx) (imm : BitVec 12) : Statement (.addi rd rs1 imm) :=
  ⟨⟨"ADDI", 0x00000013#32, 0x0000707F#32, 0x0000707F#32⟩, mem_of_opcodeRowsImm (by decide), rfl, encodeI_mask ..⟩

theorem slti (rd rs1 : RegIdx) (imm : BitVec 12) : Statement (.slti rd rs1 imm) :=
  ⟨⟨"SLTI", 0x00002013#32, 0x0000707F#32, 0x0000707F#32⟩, mem_of_opcodeRowsImm (by decide), rfl, encodeI_mask ..⟩

theorem sltiu (rd rs1 : RegIdx) (imm : BitVec 12) : Statement (.sltiu rd rs1 imm) :=
  ⟨⟨"SLTIU", 0x00003013#32, 0x0000707F#32, 0x0000707F#32⟩, mem_of_opcodeRowsImm (by decide), rfl, encodeI_mask ..⟩

theorem xori (rd rs1 : RegIdx) (imm : BitVec 12) : Statement (.xori rd rs1 imm) :=
  ⟨⟨"XORI", 0x00004013#32, 0x0000707F#32, 0x0000707F#32⟩, mem_of_opcodeRowsImm (by decide), rfl, encodeI_mask ..⟩

theorem ori (rd rs1 : RegIdx) (imm : BitVec 12) : Statement (.ori rd rs1 imm) :=
  ⟨⟨"ORI", 0x00006013#32, 0x0000707F#32, 0x0000707F#32⟩, mem_of_opcodeRowsImm (by decide), rfl, encodeI_mask ..⟩

theorem andi (rd rs1 : RegIdx) (imm : BitVec 12) : Statement (.andi rd rs1 imm) :=
  ⟨⟨"ANDI", 0x00007013#32, 0x0000707F#32, 0x0000707F#32⟩, mem_of_opcodeRowsImm (by decide), rfl, encodeI_mask ..⟩

theorem slli (rd rs1 : RegIdx) (shamt : BitVec 5) : Statement (.slli rd rs1 shamt) :=
  ⟨⟨"SLLI", 0x00001013#32, 0xFE00707F#32, 0xFE00707F#32⟩, mem_of_opcodeRowsImm (by decide), rfl, encodeR_mask ..⟩

theorem srli (rd rs1 : RegIdx) (shamt : BitVec 5) : Statement (.srli rd rs1 shamt) :=
  ⟨⟨"SRLI", 0x00005013#32, 0xFE00707F#32, 0xFE00707F#32⟩, mem_of_opcodeRowsImm (by decide), rfl, encodeR_mask ..⟩

theorem srai (rd rs1 : RegIdx) (shamt : BitVec 5) (unchecked : BitVec 6) : Statement (.srai rd rs1 shamt unchecked) :=
  ⟨⟨"SRAI", 0x40005013#32, 0x4000707F#32, 0xFE00707F#32⟩, mem_of_opcodeRowsImm (by decide), rfl, encodeSrai_mask ..⟩

theorem add (rd rs1 rs2 : RegIdx) : Statement (.add rd rs1 rs2) :=
  ⟨⟨"ADD", 0x00000033#32, 0xFE00707F#32, 0xFE00707F#32⟩, mem_of_opcodeRowsReg (by decide), rfl, encodeR_mask ..⟩

theorem sub (rd rs1 rs2 : RegIdx) : Statement (.sub rd rs1 rs2) :=
  ⟨⟨"SUB", 0x40000033#32, 0xFE00707F#32, 0xFE00707F#32⟩, mem_of_opcodeRowsReg (by decide), rfl, encodeR_mask ..⟩

theorem sll (rd rs1 rs2 : RegIdx) : Statement (.sll rd rs1 rs2) :=
  ⟨⟨"SLL", 0x00001033#32, 0xFE00707F#32, 0xFE00707F#32⟩, mem_of_opcodeRowsReg (by decide), rfl, encodeR_mask ..⟩

theorem slt (rd rs1 rs2 : RegIdx) : Statement (.slt rd rs1 rs2) :=
  ⟨⟨"SLT", 0x00002033#32, 0xFE00707F#32, 0xFE00707F#32⟩, mem_of_opcodeRowsReg (by decide), rfl, encodeR_mask ..⟩

theorem sltu (rd rs1 rs2 : RegIdx) : Statement (.sltu rd rs1 rs2) :=
  ⟨⟨"SLTU", 0x00003033#32, 0xFE00707F#32, 0xFE00707F#32⟩, mem_of_opcodeRowsReg (by decide), rfl, encodeR_mask ..⟩

theorem xor (rd rs1 rs2 : RegIdx) : Statement (.xor rd rs1 rs2) :=
  ⟨⟨"XOR", 0x00004033#32, 0xFE00707F#32, 0xFE00707F#32⟩, mem_of_opcodeRowsReg (by decide), rfl, encodeR_mask ..⟩

theorem srl (rd rs1 rs2 : RegIdx) : Statement (.srl rd rs1 rs2) :=
  ⟨⟨"SRL", 0x00005033#32, 0xFE00707F#32, 0xFE00707F#32⟩, mem_of_opcodeRowsReg (by decide), rfl, encodeR_mask ..⟩

theorem sra (rd rs1 rs2 : RegIdx) : Statement (.sra rd rs1 rs2) :=
  ⟨⟨"SRA", 0x40005033#32, 0xFE00707F#32, 0xFE00707F#32⟩, mem_of_opcodeRowsReg (by decide), rfl, encodeR_mask ..⟩

theorem or (rd rs1 rs2 : RegIdx) : Statement (.or rd rs1 rs2) :=
  ⟨⟨"OR", 0x00006033#32, 0xFE00707F#32, 0xFE00707F#32⟩, mem_of_opcodeRowsReg (by decide), rfl, encodeR_mask ..⟩

theorem and (rd rs1 rs2 : RegIdx) : Statement (.and rd rs1 rs2) :=
  ⟨⟨"AND", 0x00007033#32, 0xFE00707F#32, 0xFE00707F#32⟩, mem_of_opcodeRowsReg (by decide), rfl, encodeR_mask ..⟩

theorem mul (rd rs1 rs2 : RegIdx) : Statement (.mul rd rs1 rs2) :=
  ⟨⟨"MUL", 0x02000033#32, 0xFE00707F#32, 0xFE00707F#32⟩, mem_of_opcodeRowsReg (by decide), rfl, encodeR_mask ..⟩

theorem mulh (rd rs1 rs2 : RegIdx) : Statement (.mulh rd rs1 rs2) :=
  ⟨⟨"MULH", 0x02001033#32, 0xFE00707F#32, 0xFE00707F#32⟩, mem_of_opcodeRowsReg (by decide), rfl, encodeR_mask ..⟩

theorem mulhsu (rd rs1 rs2 : RegIdx) : Statement (.mulhsu rd rs1 rs2) :=
  ⟨⟨"MULHSU", 0x02002033#32, 0xFE00707F#32, 0xFE00707F#32⟩, mem_of_opcodeRowsReg (by decide), rfl, encodeR_mask ..⟩

theorem mulhu (rd rs1 rs2 : RegIdx) : Statement (.mulhu rd rs1 rs2) :=
  ⟨⟨"MULHU", 0x02003033#32, 0xFE00707F#32, 0xFE00707F#32⟩, mem_of_opcodeRowsReg (by decide), rfl, encodeR_mask ..⟩

theorem div (rd rs1 rs2 : RegIdx) : Statement (.div rd rs1 rs2) :=
  ⟨⟨"DIV", 0x02004033#32, 0xFE00707F#32, 0xFE00707F#32⟩, mem_of_opcodeRowsReg (by decide), rfl, encodeR_mask ..⟩

theorem divu (rd rs1 rs2 : RegIdx) : Statement (.divu rd rs1 rs2) :=
  ⟨⟨"DIVU", 0x02005033#32, 0xFE00707F#32, 0xFE00707F#32⟩, mem_of_opcodeRowsReg (by decide), rfl, encodeR_mask ..⟩

theorem rem (rd rs1 rs2 : RegIdx) : Statement (.rem rd rs1 rs2) :=
  ⟨⟨"REM", 0x02006033#32, 0xFE00707F#32, 0xFE00707F#32⟩, mem_of_opcodeRowsReg (by decide), rfl, encodeR_mask ..⟩

theorem remu (rd rs1 rs2 : RegIdx) : Statement (.remu rd rs1 rs2) :=
  ⟨⟨"REMU", 0x02007033#32, 0xFE00707F#32, 0xFE00707F#32⟩, mem_of_opcodeRowsReg (by decide), rfl, encodeR_mask ..⟩

theorem lb (rd rs1 : RegIdx) (imm : BitVec 12) : Statement (.lb rd rs1 imm) :=
  ⟨⟨"LB", 0x00000003#32, 0x0000707F#32, 0x0000707F#32⟩, mem_of_opcodeRowsMem (by decide), rfl, encodeI_mask ..⟩

theorem lh (rd rs1 : RegIdx) (imm : BitVec 12) : Statement (.lh rd rs1 imm) :=
  ⟨⟨"LH", 0x00001003#32, 0x0000707F#32, 0x0000707F#32⟩, mem_of_opcodeRowsMem (by decide), rfl, encodeI_mask ..⟩

theorem lw (rd rs1 : RegIdx) (imm : BitVec 12) : Statement (.lw rd rs1 imm) :=
  ⟨⟨"LW", 0x00002003#32, 0x0000707F#32, 0x0000707F#32⟩, mem_of_opcodeRowsMem (by decide), rfl, encodeI_mask ..⟩

theorem lbu (rd rs1 : RegIdx) (imm : BitVec 12) : Statement (.lbu rd rs1 imm) :=
  ⟨⟨"LBU", 0x00004003#32, 0x0000707F#32, 0x0000707F#32⟩, mem_of_opcodeRowsMem (by decide), rfl, encodeI_mask ..⟩

theorem lhu (rd rs1 : RegIdx) (imm : BitVec 12) : Statement (.lhu rd rs1 imm) :=
  ⟨⟨"LHU", 0x00005003#32, 0x0000707F#32, 0x0000707F#32⟩, mem_of_opcodeRowsMem (by decide), rfl, encodeI_mask ..⟩

theorem sb (rs1 rs2 : RegIdx) (imm : BitVec 12) : Statement (.sb rs1 rs2 imm) :=
  ⟨⟨"SB", 0x00000023#32, 0x0000707F#32, 0x0000707F#32⟩, mem_of_opcodeRowsMem (by decide), rfl, encodeS_mask ..⟩

theorem sh (rs1 rs2 : RegIdx) (imm : BitVec 12) : Statement (.sh rs1 rs2 imm) :=
  ⟨⟨"SH", 0x00001023#32, 0x0000707F#32, 0x0000707F#32⟩, mem_of_opcodeRowsMem (by decide), rfl, encodeS_mask ..⟩

theorem sw (rs1 rs2 : RegIdx) (imm : BitVec 12) : Statement (.sw rs1 rs2 imm) :=
  ⟨⟨"SW", 0x00002023#32, 0x0000707F#32, 0x0000707F#32⟩, mem_of_opcodeRowsMem (by decide), rfl, encodeS_mask ..⟩

theorem beq (rs1 rs2 : RegIdx) (offset : BitVec 13) : Statement (.beq rs1 rs2 offset) :=
  ⟨⟨"BEQ", 0x00000063#32, 0x0000707F#32, 0x0000707F#32⟩, mem_of_opcodeRowsFlow (by decide), rfl, encodeB_mask ..⟩

theorem bne (rs1 rs2 : RegIdx) (offset : BitVec 13) : Statement (.bne rs1 rs2 offset) :=
  ⟨⟨"BNE", 0x00001063#32, 0x0000707F#32, 0x0000707F#32⟩, mem_of_opcodeRowsFlow (by decide), rfl, encodeB_mask ..⟩

theorem blt (rs1 rs2 : RegIdx) (offset : BitVec 13) : Statement (.blt rs1 rs2 offset) :=
  ⟨⟨"BLT", 0x00004063#32, 0x0000707F#32, 0x0000707F#32⟩, mem_of_opcodeRowsFlow (by decide), rfl, encodeB_mask ..⟩

theorem bge (rs1 rs2 : RegIdx) (offset : BitVec 13) : Statement (.bge rs1 rs2 offset) :=
  ⟨⟨"BGE", 0x00005063#32, 0x0000707F#32, 0x0000707F#32⟩, mem_of_opcodeRowsFlow (by decide), rfl, encodeB_mask ..⟩

theorem bltu (rs1 rs2 : RegIdx) (offset : BitVec 13) : Statement (.bltu rs1 rs2 offset) :=
  ⟨⟨"BLTU", 0x00006063#32, 0x0000707F#32, 0x0000707F#32⟩, mem_of_opcodeRowsFlow (by decide), rfl, encodeB_mask ..⟩

theorem bgeu (rs1 rs2 : RegIdx) (offset : BitVec 13) : Statement (.bgeu rs1 rs2 offset) :=
  ⟨⟨"BGEU", 0x00007063#32, 0x0000707F#32, 0x0000707F#32⟩, mem_of_opcodeRowsFlow (by decide), rfl, encodeB_mask ..⟩

theorem lui (rd : RegIdx) (imm : BitVec 20) : Statement (.lui rd imm) :=
  ⟨⟨"LUI", 0x00000037#32, 0x0000007F#32, 0x0000007F#32⟩, mem_of_opcodeRowsFlow (by decide), rfl, encodeU_mask ..⟩

theorem auipc (rd : RegIdx) (imm : BitVec 20) : Statement (.auipc rd imm) :=
  ⟨⟨"AUIPC", 0x00000017#32, 0x0000007F#32, 0x0000007F#32⟩, mem_of_opcodeRowsFlow (by decide), rfl, encodeU_mask ..⟩

theorem jal (rd : RegIdx) (offset : BitVec 21) : Statement (.jal rd offset) :=
  ⟨⟨"JAL", 0x0000006F#32, 0x0000007F#32, 0x0000007F#32⟩, mem_of_opcodeRowsFlow (by decide), rfl, encodeJ_mask ..⟩

theorem jalr (rd rs1 : RegIdx) (imm : BitVec 12) : Statement (.jalr rd rs1 imm) :=
  ⟨⟨"JALR", 0x00000067#32, 0x0000707F#32, 0x0000707F#32⟩, mem_of_opcodeRowsFlow (by decide), rfl, encodeI_mask ..⟩

theorem ecall (rd rs1 : RegIdx) : Statement (.ecall rd rs1) :=
  ⟨⟨"ECALL", 0x00000073#32, 0xFFF0707F#32, 0xFFFFFFFF#32⟩, mem_of_opcodeRowsSystem (by decide), rfl, encodeI_mask12 ..⟩

theorem ebreak (rd rs1 : RegIdx) : Statement (.ebreak rd rs1) :=
  ⟨⟨"EBREAK", 0x00100073#32, 0xFFF0707F#32, 0xFFFFFFFF#32⟩, mem_of_opcodeRowsSystem (by decide), rfl, encodeI_mask12 ..⟩

theorem mret (rd rs1 : RegIdx) : Statement (.mret rd rs1) :=
  ⟨⟨"MRET", 0x30200073#32, 0xFFF0707F#32, 0xFFFFFFFF#32⟩, mem_of_opcodeRowsSystem (by decide), rfl, encodeI_mask12 ..⟩

theorem csrrw (rd rs1 : RegIdx) (csr : CsrIdx) : Statement (.csrrw rd rs1 csr) :=
  ⟨⟨"CSRRW", 0x00001073#32, 0x0000707F#32, 0x0000707F#32⟩, mem_of_opcodeRowsSystem (by decide), rfl, encodeI_mask ..⟩

theorem csrrs (rd rs1 : RegIdx) (csr : CsrIdx) : Statement (.csrrs rd rs1 csr) :=
  ⟨⟨"CSRRS", 0x00002073#32, 0x0000707F#32, 0x0000707F#32⟩, mem_of_opcodeRowsSystem (by decide), rfl, encodeI_mask ..⟩

theorem csrrc (rd rs1 : RegIdx) (csr : CsrIdx) : Statement (.csrrc rd rs1 csr) :=
  ⟨⟨"CSRRC", 0x00003073#32, 0x0000707F#32, 0x0000707F#32⟩, mem_of_opcodeRowsSystem (by decide), rfl, encodeI_mask ..⟩

theorem csrrwi (rd : RegIdx) (uimm : BitVec 5) (csr : CsrIdx) : Statement (.csrrwi rd uimm csr) :=
  ⟨⟨"CSRRWI", 0x00005073#32, 0x0000707F#32, 0x0000707F#32⟩, mem_of_opcodeRowsSystem (by decide), rfl, encodeI_mask ..⟩

theorem csrrsi (rd : RegIdx) (uimm : BitVec 5) (csr : CsrIdx) : Statement (.csrrsi rd uimm csr) :=
  ⟨⟨"CSRRSI", 0x00006073#32, 0x0000707F#32, 0x0000707F#32⟩, mem_of_opcodeRowsSystem (by decide), rfl, encodeI_mask ..⟩

theorem csrrci (rd : RegIdx) (uimm : BitVec 5) (csr : CsrIdx) : Statement (.csrrci rd uimm csr) :=
  ⟨⟨"CSRRCI", 0x00007073#32, 0x0000707F#32, 0x0000707F#32⟩, mem_of_opcodeRowsSystem (by decide), rfl, encodeI_mask ..⟩

theorem lrW (rd rs1 rs2 : RegIdx) (aq rl : BitVec 1) : Statement (.lrW rd rs1 rs2 aq rl) :=
  ⟨⟨"LR.W", 0x1000202F#32, 0xF800707F#32, 0xF9F0707F#32⟩, mem_of_opcodeRowsAtomic (by decide), rfl, encodeA_mask ..⟩

theorem scW (rd rs1 rs2 : RegIdx) (aq rl : BitVec 1) : Statement (.scW rd rs1 rs2 aq rl) :=
  ⟨⟨"SC.W", 0x1800202F#32, 0xF800707F#32, 0xF800707F#32⟩, mem_of_opcodeRowsAtomic (by decide), rfl, encodeA_mask ..⟩

theorem amoswapW (rd rs1 rs2 : RegIdx) (aq rl : BitVec 1) : Statement (.amoswapW rd rs1 rs2 aq rl) :=
  ⟨⟨"AMOSWAP.W", 0x0800202F#32, 0xF800707F#32, 0xF800707F#32⟩, mem_of_opcodeRowsAtomic (by decide), rfl, encodeA_mask ..⟩

theorem amoaddW (rd rs1 rs2 : RegIdx) (aq rl : BitVec 1) : Statement (.amoaddW rd rs1 rs2 aq rl) :=
  ⟨⟨"AMOADD.W", 0x0000202F#32, 0xF800707F#32, 0xF800707F#32⟩, mem_of_opcodeRowsAtomic (by decide), rfl, encodeA_mask ..⟩

theorem amoxorW (rd rs1 rs2 : RegIdx) (aq rl : BitVec 1) : Statement (.amoxorW rd rs1 rs2 aq rl) :=
  ⟨⟨"AMOXOR.W", 0x2000202F#32, 0xF800707F#32, 0xF800707F#32⟩, mem_of_opcodeRowsAtomic (by decide), rfl, encodeA_mask ..⟩

theorem amoandW (rd rs1 rs2 : RegIdx) (aq rl : BitVec 1) : Statement (.amoandW rd rs1 rs2 aq rl) :=
  ⟨⟨"AMOAND.W", 0x6000202F#32, 0xF800707F#32, 0xF800707F#32⟩, mem_of_opcodeRowsAtomic (by decide), rfl, encodeA_mask ..⟩

theorem amoorW (rd rs1 rs2 : RegIdx) (aq rl : BitVec 1) : Statement (.amoorW rd rs1 rs2 aq rl) :=
  ⟨⟨"AMOOR.W", 0x4000202F#32, 0xF800707F#32, 0xF800707F#32⟩, mem_of_opcodeRowsAtomic (by decide), rfl, encodeA_mask ..⟩

theorem amominW (rd rs1 rs2 : RegIdx) (aq rl : BitVec 1) : Statement (.amominW rd rs1 rs2 aq rl) :=
  ⟨⟨"AMOMIN.W", 0x8000202F#32, 0xF800707F#32, 0xF800707F#32⟩, mem_of_opcodeRowsAtomic (by decide), rfl, encodeA_mask ..⟩

theorem amomaxW (rd rs1 rs2 : RegIdx) (aq rl : BitVec 1) : Statement (.amomaxW rd rs1 rs2 aq rl) :=
  ⟨⟨"AMOMAX.W", 0xA000202F#32, 0xF800707F#32, 0xF800707F#32⟩, mem_of_opcodeRowsAtomic (by decide), rfl, encodeA_mask ..⟩

theorem amominuW (rd rs1 rs2 : RegIdx) (aq rl : BitVec 1) : Statement (.amominuW rd rs1 rs2 aq rl) :=
  ⟨⟨"AMOMINU.W", 0xC000202F#32, 0xF800707F#32, 0xF800707F#32⟩, mem_of_opcodeRowsAtomic (by decide), rfl, encodeA_mask ..⟩

theorem amomaxuW (rd rs1 rs2 : RegIdx) (aq rl : BitVec 1) : Statement (.amomaxuW rd rs1 rs2 aq rl) :=
  ⟨⟨"AMOMAXU.W", 0xE000202F#32, 0xF800707F#32, 0xF800707F#32⟩, mem_of_opcodeRowsAtomic (by decide), rfl, encodeA_mask ..⟩

theorem fence (rd rs1 : RegIdx) (fm pred succ : BitVec 4) : Statement (.fence rd rs1 fm pred succ) :=
  ⟨⟨"FENCE", 0x0000000F#32, 0x0000707F#32, 0x0000707F#32⟩, mem_of_opcodeRowsAtomic (by decide), rfl, encodeFence_mask ..⟩

theorem fenceI (rd rs1 : RegIdx) (imm : BitVec 12) : Statement (.fenceI rd rs1 imm) :=
  ⟨⟨"FENCE.I", 0x0000100F#32, 0x0000707F#32, 0x0000707F#32⟩, mem_of_opcodeRowsAtomic (by decide), rfl, encodeI_mask ..⟩

end Sys2Proof.Laws.EncodesItsRow
end

