-- ==== Sys2Proof/Laws/Pseudo.lean ====
section
/-! SUPPORT. The two parts a pseudo-instruction cuts a constant into make up the constant. -/

namespace Sys2Proof.Machine

theorem lowerPart_msb (v : Word) : (lowerPart v).msb = decide (2048 ≤ v.toNat % 4096) := by
  unfold lowerPart
  rw [BitVec.msb_eq_decide]
  simp

/-- LUI's part plus ADDI's sign-extended part. -/
theorem immU_upperPart_add (v : Word) : immU (upperPart v) + immI (lowerPart v) = v := by
  have h := v.isLt
  have hm := lowerPart_msb v
  apply BitVec.eq_of_toNat_eq
  simp only [lowerPart] at hm
  simp only [immU, immI, upperPart, lowerPart, BitVec.toNat_add, BitVec.toNat_append, BitVec.toNat_signExtend, hm,
    BitVec.extractLsb'_toNat, BitVec.toNat_setWidth, BitVec.toNat_ofNat, Nat.shiftLeft_eq, Nat.shiftRight_eq_div_pow,
    Nat.zero_mod, Nat.or_zero]
  by_cases hx : 2048 ≤ v.toNat % 4096 <;> simp [hx] <;> omega

/-- A constant that fits ADDI's immediate. -/
theorem immI_lowerPart {v : Word} (h : fitsImm12 v = true) : immI (lowerPart v) = v := by
  have hv := v.isLt
  have hm := lowerPart_msb v
  simp only [fitsImm12, BitVec.toInt_eq_toNat_cond, Bool.and_eq_true, decide_eq_true_eq] at h
  apply BitVec.eq_of_toNat_eq
  simp only [lowerPart] at hm
  simp only [immI, lowerPart, BitVec.toNat_signExtend, hm, BitVec.extractLsb'_toNat, BitVec.toNat_setWidth,
    Nat.shiftRight_eq_div_pow]
  by_cases hx : 2048 ≤ v.toNat % 4096 <;> simp [hx] <;> split at h <;> omega

/-- A constant whose low 12 bits are zero needs LUI alone. -/
theorem immU_upperPart {v : Word} (h : lowerPart v = 0#12) : immU (upperPart v) = v := by
  have := immU_upperPart_add v
  rw [h] at this
  simpa [immI] using this

end Sys2Proof.Machine
end

