-- ==== Sys2Proof/Laws/Step.lean ====
section
/-! SUPPORT. Fetch, step and run: what each can do, in the vocabulary of Safety.lean. -/

namespace Sys2Proof.Machine

/-! ## The fetch (R60) -/

theorem fetchAligned_iff (s : State) : fetchAligned s = true ↔ s.pc.toNat % 4 = 0 := by simp [fetchAligned]

theorem fetch_misaligned {s : State} (h : s.pc.toNat % 4 ≠ 0) : fetch s = .error .memoryAccessError :=
  if_neg (fun e => h ((fetchAligned_iff s).1 e))

theorem fetch_memory {s : State} (h : s.pc.toNat % 4 = 0) (hu : Unowned s.cfg s.pc) (ha : Accessible s.cfg s.pc 4) :
    fetch s = .ok (memWord s s.pc, s) := by
  rw [fetch, if_pos ((fetchAligned_iff s).2 h), busRead_memory (w := .word) hu ha]
  exact congrArg (fun v => Except.ok (v, s)) (readLE_word s s.pc)

theorem fetch_memory_fault {s : State} (h : s.pc.toNat % 4 = 0) (hu : Unowned s.cfg s.pc)
    (ha : ¬ Accessible s.cfg s.pc 4) : fetch s = .error .memoryAccessError := by
  rw [fetch, if_pos ((fetchAligned_iff s).2 h), busRead_memory_fault (w := .word) hu ha]

theorem fetch_device {s : State} (h : s.pc.toNat % 4 = 0) {k : Nat} {p : Peripheral} (ho : OwnedBy s.cfg s.pc k p) :
    fetch s = .ok (deviceWord s k (s.pc - p.base), afterDevRead s k (s.pc - p.base)) := by
  rw [fetch, if_pos ((fetchAligned_iff s).2 h), busRead_device ho]

/-- A fetch changes the peripheral port at most. -/
theorem fetch_frame {s t : State} {w : Word} (h : fetch s = .ok (w, t)) :
    t.regs = s.regs ∧ t.pc = s.pc ∧ t.csrs = s.csrs ∧ t.mem = s.mem ∧ t.count = s.count ∧ t.cfg = s.cfg := by
  unfold fetch at h
  split at h
  · exact busRead_frame h
  · cases h

/-- The four bytes at an address, put together, are the word there (R33). -/
theorem wordOfBytes_eq (b0 b1 b2 b3 : Byte) :
    wordOfBytes b0 b1 b2 b3 = BitVec.ofNat 32
      (b0.toNat + 256 * (b1.toNat + 256 * (b2.toNat + 256 * (b3.toNat + 256 * 0)))) := by
  have h : wordOfBytes b0 b1 b2 b3 = b3 ++ b2 ++ b1 ++ b0 := by
    apply BitVec.eq_of_getLsbD_eq
    intro i hi
    simp only [wordOfBytes, BitVec.getLsbD_append, BitVec.getLsbD_or, getLsbD_put]
    interval_cases i <;> simp
  rw [h]
  apply BitVec.eq_of_toNat_eq
  have e : ∀ {n m : Nat} (x : BitVec n) (y : BitVec m), (x ++ y).toNat = x.toNat * 2 ^ m + y.toNat := by
    intro n m x y
    rw [BitVec.toNat_append, ← Nat.shiftLeft_add_eq_or_of_lt y.isLt, Nat.shiftLeft_eq]
  simp only [e, BitVec.toNat_ofNat]
  omega

theorem wordOfBytes_memWord (s : State) (a : Word) :
    wordOfBytes (readByte s a.toNat) (readByte s (a.toNat + 1)) (readByte s (a.toNat + 2)) (readByte s (a.toNat + 3)) =
      memWord s a := wordOfBytes_eq _ _ _ _

/-! ## The step -/

theorem decodeFetched_cfg {s t : State} (h : t.cfg = s.cfg) (w : Word) : decodeFetched t w = decodeFetched s w := by
  simp [decodeFetched, h]

/-- The engine's step is what the machine does with the word it fetched. -/
theorem engineStep_of_fetch {s t : State} {w : Word} (h : fetch s = .ok (w, t)) : engineStep s = execWord w t := by
  rw [engineStep, h]
  simp only [execWord]
  cases decodeFetched t w <;> rfl

theorem engineStep_of_fetch_error {s : State} {f : Fault} (h : fetch s = .error f) : engineStep s = .fault f := by
  rw [engineStep, h]; rfl

theorem step_of_engineStep_next {s t : State} (h : engineStep s = .next t) :
    step s = .next { t with count := t.count + 1 } := by rw [step, h]; rfl

theorem step_of_engineStep_fault {s : State} {f : Fault} (h : engineStep s = .fault f) : step s = .fault f := by
  rw [step, h]; rfl

/-- Everything a step that continues has done. -/
theorem step_next_cases {s t : State} (h : step s = .next t) :
    ∃ w s1 i u, fetch s = .ok (w, s1) ∧ decodeFetched s1 w = .ok i ∧ exec i s1 = .next u ∧
      t = { u with count := u.count + 1 } := by
  unfold step engineStep at h
  rcases hf : fetch s with f | ⟨w, s1⟩ <;> rw [hf] at h
  · cases h
  · rcases hd : decodeFetched s1 w with f | i <;> simp only [hd] at h
    · cases h
    · rcases hx : exec i s1 with u | f | r <;> rw [hx] at h <;> cases h
      exact ⟨w, s1, i, u, rfl, hd, hx, rfl⟩

/-- The decoder's verdict, as the machine uses it. -/
theorem decodeFetched_ok {s : State} {w : Word} {i : Instr} :
    decodeFetched s w = .ok i ↔ decode s.cfg.strictReservedFields w = .ok i := by
  unfold decodeFetched
  split <;> simp_all

theorem decodeFetched_error {s : State} {w : Word} {r : DecodeReject}
    (h : decode s.cfg.strictReservedFields w = .error r) : decodeFetched s w = .error .unsupportedInstruction := by
  rw [decodeFetched, h]

theorem execWord_of_decode {s : State} {w : Word} {i : Instr} (h : decode s.cfg.strictReservedFields w = .ok i) :
    execWord w s = exec i s := by rw [execWord, decodeFetched_ok.2 h]

theorem execWord_of_reject {s : State} {w : Word} {r : DecodeReject}
    (h : decode s.cfg.strictReservedFields w = .error r) : execWord w s = .fault .unsupportedInstruction := by
  rw [execWord, decodeFetched_error h]; rfl

/-! ## Stops and runs (R250, R263) -/

/-- A stop leaves everything but the peripheral port as it was. -/
theorem stoppedState_frame (s : State) :
    (stoppedState s).regs = s.regs ∧ (stoppedState s).pc = s.pc ∧ (stoppedState s).csrs = s.csrs ∧
      (stoppedState s).mem = s.mem ∧ (stoppedState s).count = s.count ∧ (stoppedState s).cfg = s.cfg := by
  unfold stoppedState
  split
  · next h => exact fetch_frame h
  · exact ⟨rfl, rfl, rfl, rfl, rfl, rfl⟩

theorem runLoop_next {s t : State} (n : Nat) (h : step s = .next t) : runLoop (n + 1) s = runLoop n t := by
  rw [runLoop, h]

theorem runLoop_fault {s : State} {f : Fault} (n : Nat) (h : step s = .fault f) : runLoop (n + 1) s = stopOn f s := by
  rw [runLoop, h]

theorem unlimitedLoop_next {s t : State} (n : Nat) (h : step s = .next t) :
    unlimitedLoop (n + 1) s = unlimitedLoop n t := by rw [unlimitedLoop, h]

theorem unlimitedLoop_fault {s : State} {f : Fault} (n : Nat) (h : step s = .fault f) :
    unlimitedLoop (n + 1) s = some (stopOn f s) := by rw [unlimitedLoop, h]

/-- The host's run, one step at a time. -/
theorem coreRun_next {M : Host.Core} {s t : M.State} (k : Nat) (h : M.step s = .next t) : M.run (k + 1) s = M.run k t := by
  rw [Host.Core.run, h]

/-- The host's run of this machine, one step at a time. -/
theorem core_run_next {s t : State} (k : Nat) (h : step s = .next t) :
    Host.Core.run core (k + 1) s = Host.Core.run core k t := coreRun_next (M := core) k h

/-- No event stops a run with the limit's reason. -/
theorem stopOn_ne_limit (f : Fault) (s : State) : (stopOn f s).stop ≠ .stopLimit := by cases f <;> simp [stopOn]

end Sys2Proof.Machine
end

