-- ==== Sys2Proof/Tests/Slice0.lean ====
section
/-! SUPPORT. Tests of the model: expected results are those of spec/95_test_vectors.md and of the rules cited; and the
witnesses that the hypotheses of the obligations can be met. -/

namespace Sys2Proof.Machine

/-! ## Decoding: words written out from the encodings of spec/30_encoding.md -/

/-! ### Bit by bit: the fields of the formats of R61, one word per family -/

theorem test_decode_bits_addi :
    decode false (0b111111111111#12 ++ 0b00110#5 ++ 0b000#3 ++ 0b00101#5 ++ 0b0010011#7) = .ok (.addi 5 6 (-1)) := by decide

theorem test_decode_bits_sub :
    decode false (0b0100000#7 ++ 0b00111#5 ++ 0b00110#5 ++ 0b000#3 ++ 0b00101#5 ++ 0b0110011#7) = .ok (.sub 5 6 7) := by
  decide

theorem test_decode_bits_div :
    decode false (0b0000001#7 ++ 0b00111#5 ++ 0b00110#5 ++ 0b100#3 ++ 0b00101#5 ++ 0b0110011#7) = .ok (.div 5 6 7) := by
  decide

theorem test_decode_bits_lhu :
    decode false (0b000000000010#12 ++ 0b00110#5 ++ 0b101#3 ++ 0b00101#5 ++ 0b0000011#7) = .ok (.lhu 5 6 2) := by decide

theorem test_decode_bits_sw :
    decode false (0b1111111#7 ++ 0b00111#5 ++ 0b00110#5 ++ 0b010#3 ++ 0b11100#5 ++ 0b0100011#7) = .ok (.sw 6 7 (-4)) := by
  decide

/-- The B fields of E9: imm[12] = 0, imm[10:5] = 63, imm[4:1] = 15, imm[11] = 1. -/
theorem test_decode_bits_beq :
    decode false (0b0#1 ++ 0b111111#6 ++ 0b00000#5 ++ 0b00000#5 ++ 0b000#3 ++ 0b1111#4 ++ 0b1#1 ++ 0b1100011#7) =
      .ok (.beq 0 0 4094) := by decide

theorem test_decode_bits_lui :
    decode false (0b00010010001101000101#20 ++ 0b00101#5 ++ 0b0110111#7) = .ok (.lui 5 0x12345) := by decide

/-- The J fields of E14: imm[20] = 1, imm[10:1] = 1111111100, imm[11] = 1, imm[19:12] all ones. -/
theorem test_decode_bits_jal :
    decode false (0b1#1 ++ 0b1111111100#10 ++ 0b1#1 ++ 0b11111111#8 ++ 0b00000#5 ++ 0b1101111#7) = .ok (.jal 0 (-8)) := by
  decide

theorem test_decode_bits_csrrwi :
    decode false (0b001101000000#12 ++ 0b11111#5 ++ 0b101#3 ++ 0b00101#5 ++ 0b1110011#7) = .ok (.csrrwi 5 31 0x340) := by
  decide

theorem test_decode_bits_amoadd :
    decode false (0b00000#5 ++ 0b1#1 ++ 0b1#1 ++ 0b00111#5 ++ 0b00110#5 ++ 0b010#3 ++ 0b00101#5 ++ 0b0101111#7) =
      .ok (.amoaddW 5 6 7 1 1) := by decide

theorem test_decode_bits_fence :
    decode false (0b1000#4 ++ 0b0011#4 ++ 0b0011#4 ++ 0b00000#5 ++ 0b000#3 ++ 0b00000#5 ++ 0b0001111#7) =
      .ok (.fence 0 0 8 3 3) := by decide

/-! ### Every constructor, by a word of spec/95_test_vectors.md (sections 2.1 to 2.10) -/

theorem test_decode_op_imm :
    decode false 0xFFF30293#32 = .ok (.addi 5 6 (-1)) ∧ decode false 0xFFF32293#32 = .ok (.slti 5 6 (-1)) ∧
    decode false 0x00133293#32 = .ok (.sltiu 5 6 1) ∧ decode false 0xFFF34293#32 = .ok (.xori 5 6 (-1)) ∧
    decode false 0x0F036293#32 = .ok (.ori 5 6 0x0F0) ∧ decode false 0xFF037293#32 = .ok (.andi 5 6 (-16)) ∧
    decode false 0x01F31293#32 = .ok (.slli 5 6 31) ∧ decode false 0x00435293#32 = .ok (.srli 5 6 4) ∧
    decode false 0x41F35293#32 = .ok (.srai 5 6 31 0) ∧ decode false 0xC2435293#32 = .ok (.srai 5 6 4 0b100001) := by
  decide

theorem test_decode_op :
    decode false 0x007302B3#32 = .ok (.add 5 6 7) ∧ decode false 0x407302B3#32 = .ok (.sub 5 6 7) ∧
    decode false 0x007312B3#32 = .ok (.sll 5 6 7) ∧ decode false 0x007322B3#32 = .ok (.slt 5 6 7) ∧
    decode false 0x007332B3#32 = .ok (.sltu 5 6 7) ∧ decode false 0x007342B3#32 = .ok (.xor 5 6 7) ∧
    decode false 0x007352B3#32 = .ok (.srl 5 6 7) ∧ decode false 0x407352B3#32 = .ok (.sra 5 6 7) ∧
    decode false 0x007362B3#32 = .ok (.or 5 6 7) ∧ decode false 0x007372B3#32 = .ok (.and 5 6 7) := by decide

theorem test_decode_muldiv :
    decode false 0x027302B3#32 = .ok (.mul 5 6 7) ∧ decode false 0x027312B3#32 = .ok (.mulh 5 6 7) ∧
    decode false 0x027322B3#32 = .ok (.mulhsu 5 6 7) ∧ decode false 0x027332B3#32 = .ok (.mulhu 5 6 7) ∧
    decode false 0x027342B3#32 = .ok (.div 5 6 7) ∧ decode false 0x027352B3#32 = .ok (.divu 5 6 7) ∧
    decode false 0x027362B3#32 = .ok (.rem 5 6 7) ∧ decode false 0x027372B3#32 = .ok (.remu 5 6 7) := by decide

theorem test_decode_load_store :
    decode false 0xFFC30283#32 = .ok (.lb 5 6 (-4)) ∧ decode false 0x00231283#32 = .ok (.lh 5 6 2) ∧
    decode false 0x00832283#32 = .ok (.lw 5 6 8) ∧ decode false 0x00034283#32 = .ok (.lbu 5 6 0) ∧
    decode false 0x00235283#32 = .ok (.lhu 5 6 2) ∧ decode false 0x00730023#32 = .ok (.sb 6 7 0) ∧
    decode false 0x007311A3#32 = .ok (.sh 6 7 3) ∧ decode false 0xFE732E23#32 = .ok (.sw 6 7 (-4)) := by decide

theorem test_decode_branch :
    decode false 0x80000063#32 = .ok (.beq 0 0 (-4096)) ∧ decode false 0xFE731EE3#32 = .ok (.bne 6 7 (-4)) ∧
    decode false 0x00734463#32 = .ok (.blt 6 7 8) ∧ decode false 0x00735463#32 = .ok (.bge 6 7 8) ∧
    decode false 0x00736463#32 = .ok (.bltu 6 7 8) ∧ decode false 0x00737463#32 = .ok (.bgeu 6 7 8) ∧
    decode false 0x00000163#32 = .ok (.beq 0 0 2) := by decide

theorem test_decode_upper_jump :
    decode false 0x123452B7#32 = .ok (.lui 5 0x12345) ∧ decode false 0xFFFFF297#32 = .ok (.auipc 5 0xFFFFF) ∧
    decode false 0x800000EF#32 = .ok (.jal 1 (-1048576)) ∧ decode false 0x7FFFF0EF#32 = .ok (.jal 1 1048574) ∧
    decode false 0xFFF282E7#32 = .ok (.jalr 5 5 (-1)) := by decide

theorem test_decode_system :
    decode false 0x00000073#32 = .ok (.ecall 0 0) ∧ decode false 0x000302F3#32 = .ok (.ecall 5 6) ∧
    decode false 0x00100073#32 = .ok (.ebreak 0 0) ∧ decode false 0x30200073#32 = .ok (.mret 0 0) ∧
    decode false 0xF14312F3#32 = .ok (.csrrw 5 6 0xF14) ∧ decode false 0x300322F3#32 = .ok (.csrrs 5 6 0x300) ∧
    decode false 0x300332F3#32 = .ok (.csrrc 5 6 0x300) ∧ decode false 0x340FD2F3#32 = .ok (.csrrwi 5 31 0x340) ∧
    decode false 0x300462F3#32 = .ok (.csrrsi 5 8 0x300) ∧ decode false 0x300472F3#32 = .ok (.csrrci 5 8 0x300) := by
  decide

theorem test_decode_atomic :
    decode false 0x107322AF#32 = .ok (.lrW 5 6 7 0 0) ∧ decode false 0x187322AF#32 = .ok (.scW 5 6 7 0 0) ∧
    decode false 0x087322AF#32 = .ok (.amoswapW 5 6 7 0 0) ∧ decode false 0x007322AF#32 = .ok (.amoaddW 5 6 7 0 0) ∧
    decode false 0x207322AF#32 = .ok (.amoxorW 5 6 7 0 0) ∧ decode false 0x607322AF#32 = .ok (.amoandW 5 6 7 0 0) ∧
    decode false 0x407322AF#32 = .ok (.amoorW 5 6 7 0 0) ∧ decode false 0x807322AF#32 = .ok (.amominW 5 6 7 0 0) ∧
    decode false 0xA07322AF#32 = .ok (.amomaxW 5 6 7 0 0) ∧ decode false 0xC07322AF#32 = .ok (.amominuW 5 6 7 0 0) ∧
    decode false 0xE07322AF#32 = .ok (.amomaxuW 5 6 7 0 0) := by decide

theorem test_decode_misc_mem :
    decode false 0x0FF3028F#32 = .ok (.fence 5 6 0 15 15) ∧ decode false 0x0000100F#32 = .ok (.fenceI 0 0 0) := by decide

/-! ### Refused words (R66), item by item -/

theorem test_reject_unknown_opcode :
    decode false 0x0000007F#32 = .error .unknownOpcode ∧ decode false 0xFFFFFFFF#32 = .error .unknownOpcode ∧
    decode false 0x00000000#32 = .error .unknownOpcode ∧ decode false 0x00000001#32 = .error .unknownOpcode ∧
    decode false 0x00032287#32 = .error .unknownOpcode ∧ decode false 0x0013029B#32 = .error .unknownOpcode := by decide

theorem test_reject_alu :
    decode false 0x02031293#32 = .error .shiftImmediate ∧ decode false 0x80435293#32 = .error .shiftImmediate ∧
    decode false 0x407312B3#32 = .error .opFunct ∧ decode false 0x047302B3#32 = .error .opFunct ∧
    decode false 0x427302B3#32 = .error .opFunct := by decide

theorem test_reject_memory_and_jumps :
    decode false 0x00033283#32 = .error .loadFunct3 ∧ decode false 0x00036283#32 = .error .loadFunct3 ∧
    decode false 0x00733023#32 = .error .storeFunct3 ∧ decode false 0x00732463#32 = .error .branchFunct3 ∧
    decode false 0x00733463#32 = .error .branchFunct3 ∧ decode false 0x004310E7#32 = .error .jalrFunct3 := by decide

theorem test_reject_system :
    decode false 0x10500073#32 = .error .systemFunct ∧ decode false 0x10200073#32 = .error .systemFunct ∧
    decode false 0x12000073#32 = .error .systemFunct ∧ decode false 0x34034073#32 = .error .systemFunct := by decide

theorem test_reject_atomic_and_fence :
    decode false 0x007332AF#32 = .error .atomicFunct ∧ decode false 0x287322AF#32 = .error .atomicFunct ∧
    decode false 0x0000200F#32 = .error .miscMemFunct3 := by decide

/-- Vector W14: refused when the reserved fields must be zero, accepted by default. -/
theorem test_reject_reserved_fields :
    decode true 0xC2435293#32 = .error .reservedField ∧ decode true 0x000302F3#32 = .error .reservedField ∧
    decode true 0x107322AF#32 = .error .reservedField ∧ decode true 0x302000F3#32 = .error .reservedField ∧
    decode true 0x00130073#32 = .error .reservedField ∧ decode false 0x302000F3#32 = .ok (.mret 1 0) ∧
    decode true 0x40435293#32 = .ok (.srai 5 6 4 0) ∧ decode true 0x067322AF#32 = .ok (.amoaddW 5 6 7 1 1) := by decide

/-- The byte at the lowest address is bits 7:0 (R35); the rest of the bytes is handed back. -/
theorem test_decode_bytes :
    decodeBytes false [0x93, 0x02, 0xF3, 0xFF, 0x11] = .ok (.addi 5 6 (-1), [0x11]) ∧
    decodeBytes false [0x93, 0x02, 0xF3] = .error .truncated ∧ encodeBytes (.addi 5 6 (-1)) = [0x93, 0x02, 0xF3, 0xFF] := by
  decide

theorem test_decode_table_word :
    decodeTableWord 32 0xFFF30293 = some (.addi 5 6 (-1)) ∧ decodeTableWord 32 0x7F = none ∧
    decodeTableWord 8 0x13 = some (.addi 0 0 0) := by decide

/-! ## The opcode table (spec/opcode_table.json; R63: "pairwise disjoint") -/

theorem test_table_has_67_rows : opcodeTable.length = 67 ∧ (opcodeTable.map (·.mnemonic)).Nodup := by decide

/-- Two rows share no word: on some bit that both fix, they differ. -/
theorem test_table_rows_disjoint :
    opcodeTable.Pairwise (fun a b => a.pattern &&& (a.mask &&& b.mask) ≠ b.pattern &&& (a.mask &&& b.mask)) := by decide

/-! ## Well-formedness: each check refuses an ill-formed term -/

theorem test_wf_refuses_odd_branch_offset :
    (Instr.beq 1 2 3).wellFormed false = false ∧ (Instr.bgeu 1 2 (-1)).wellFormed true = false ∧
    (Instr.bne 1 2 (-2)).wellFormed true = true := by decide

theorem test_wf_refuses_odd_jal_offset :
    (Instr.jal 1 1).wellFormed false = false ∧ (Instr.jal 1 1048574).wellFormed true = true := by decide

theorem test_wf_refuses_srai_unchecked_bits :
    (Instr.srai 5 6 4 1).wellFormed true = false ∧ (Instr.srai 5 6 4 1).wellFormed false = true ∧
    (Instr.srai 5 6 4 0).wellFormed true = true := by decide

theorem test_wf_refuses_system_fields :
    (Instr.ecall 5 0).wellFormed true = false ∧ (Instr.ecall 0 6).wellFormed true = false ∧
    (Instr.ebreak 0 6).wellFormed true = false ∧ (Instr.ebreak 1 0).wellFormed true = false ∧
    (Instr.mret 1 0).wellFormed true = false ∧ (Instr.mret 0 1).wellFormed true = false ∧
    (Instr.ecall 5 6).wellFormed false = true ∧ (Instr.mret 0 0).wellFormed true = true := by decide

theorem test_wf_refuses_lr_rs2 :
    (Instr.lrW 5 6 7 0 0).wellFormed true = false ∧ (Instr.lrW 5 6 7 0 0).wellFormed false = true ∧
    (Instr.lrW 5 6 0 1 1).wellFormed true = true := by decide

/-! ## One step, whole state: the spec's vectors -/

def setRegs (s : State) : List (RegIdx × Word) → State
  | [] => s
  | (r, v) :: l => setRegs (writeReg s r v) l

def setCsrs (s : State) : List (CsrIdx × Word) → State
  | [] => s
  | (c, v) :: l => setCsrs (writeCsr s c v) l

def setBytes (s : State) : List (Nat × Byte) → State
  | [] => s
  | (a, b) :: l => setBytes { s with mem := Memory.write s.cfg a b s.mem } l

/-- `s` with the listed registers, CSRs and bytes set, at `pc`. -/
def setAll (s : State) (pc : Word) (regs : List (RegIdx × Word)) (csrs : List (CsrIdx × Word))
    (bytes : List (Nat × Byte)) : State :=
  setBytes (setCsrs (setRegs (setPc s pc) regs) csrs) bytes

/-- The state a vector starts from: reset under `cfg`, then what the vector lists. -/
def vec (cfg : Config) (devIn : List Word) (pc : Word) (regs : List (RegIdx × Word)) (csrs : List (CsrIdx × Word))
    (bytes : List (Nat × Byte)) : State :=
  setAll { State.reset with cfg := cfg, devIn := devIn } pc regs csrs bytes

/-- What a vector says of the step: it continues at `pc` with the listed changes and port transactions (each read of the
port uses up the whole input list of these vectors), or it stops. -/
inductive Expect where
  | goes (pc : Word) (regs : List (RegIdx × Word)) (csrs : List (CsrIdx × Word)) (bytes : List (Nat × Byte))
      (log : List DevAccess)
  | stops (f : Fault)

def DevAccess.isRead : DevAccess → Bool
  | .read .. => true
  | .write .. => false

/-- One step with `w` at `pc` gives exactly the listed changes, `count` one higher, and nothing else. -/
def stepGives (w : Nat) (s : State) (e : Expect) : Bool :=
  match step (s.withFetchWord 32 w), e with
  | .next u, .goes pc regs csrs bytes log =>
    let t := setAll (s.withFetchWord 32 w) pc regs csrs bytes
    decide (u = { t with count := s.count + 1, devLog := log, devIn := if log.any DevAccess.isRead then [] else s.devIn })
  | .fault f, .stops g => decide (f = g)
  | _, _ => false

/-- The one device of the vectors of section 2.12. -/
def uart : Peripheral := ⟨0x10000000, 0x100⟩

def uartCfg : Config := { Config.default with peripherals := [uart] }


/-! ### Register-immediate: spec/95_test_vectors.md section 2.2 -/

theorem test_addi_V1 :
    stepGives 0xFFF30293 (vec .default [] 0x80000000 [(6, 0)] [] [])
      (.goes 0x80000004 [(5, 0xFFFFFFFF)] [] [] []) := by decide

theorem test_addi_V4 :
    stepGives 0x80028293 (vec .default [] 0x80000000 [(5, 0x800)] [] [])
      (.goes 0x80000004 [(5, 0)] [] [] []) := by decide

theorem test_slti_V5 :
    stepGives 0xFFF32293 (vec .default [] 0x80000000 [(6, 0x80000000)] [] [])
      (.goes 0x80000004 [(5, 1)] [] [] []) := by decide

theorem test_slti_V6 :
    stepGives 0xFFF32293 (vec .default [] 0x80000000 [(5, 9), (6, 0xFFFFFFFF)] [] [])
      (.goes 0x80000004 [(5, 0)] [] [] []) := by decide

theorem test_sltiu_V7 :
    stepGives 0xFFF33293 (vec .default [] 0x80000000 [(6, 0xFFFFFFFE)] [] [])
      (.goes 0x80000004 [(5, 1)] [] [] []) := by decide

theorem test_sltiu_V8 :
    stepGives 0x00133293 (vec .default [] 0x80000000 [(6, 0)] [] [])
      (.goes 0x80000004 [(5, 1)] [] [] []) := by decide

theorem test_xori_V10 :
    stepGives 0xFFF34293 (vec .default [] 0x80000000 [(6, 0x12345678)] [] [])
      (.goes 0x80000004 [(5, 0xEDCBA987)] [] [] []) := by decide

theorem test_ori_V11 :
    stepGives 0x0F036293 (vec .default [] 0x80000000 [(6, 0x12345608)] [] [])
      (.goes 0x80000004 [(5, 0x123456F8)] [] [] []) := by decide

theorem test_andi_V13 :
    stepGives 0xFF037293 (vec .default [] 0x80000000 [(6, 0x123456FF)] [] [])
      (.goes 0x80000004 [(5, 0x123456F0)] [] [] []) := by decide

theorem test_slli_V14 :
    stepGives 0x01F31293 (vec .default [] 0x80000000 [(6, 3)] [] [])
      (.goes 0x80000004 [(5, 0x80000000)] [] [] []) := by decide

theorem test_srli_V16 :
    stepGives 0x00435293 (vec .default [] 0x80000000 [(6, 0x80000010)] [] [])
      (.goes 0x80000004 [(5, 0x8000001)] [] [] []) := by decide

theorem test_srai_V18 :
    stepGives 0x40435293 (vec .default [] 0x80000000 [(6, 0x80000010)] [] [])
      (.goes 0x80000004 [(5, 0xF8000001)] [] [] []) := by decide

theorem test_srai_V23 :
    stepGives 0xC2435293 (vec .default [] 0x80000000 [(6, 0x80000010)] [] [])
      (.goes 0x80000004 [(5, 0xF8000001)] [] [] []) := by decide

/-! ### Register-register: spec/95_test_vectors.md section 2.3 -/

theorem test_add_V30 :
    stepGives 0x007302B3 (vec .default [] 0x80000000 [(5, 9), (6, 0xFFFFFFFF), (7, 1)] [] [])
      (.goes 0x80000004 [(5, 0)] [] [] []) := by decide

theorem test_add_V32 :
    stepGives 0x005282B3 (vec .default [] 0x80000000 [(5, 0x80000001)] [] [])
      (.goes 0x80000004 [(5, 2)] [] [] []) := by decide

theorem test_sub_V33 :
    stepGives 0x407302B3 (vec .default [] 0x80000000 [(6, 0), (7, 1)] [] [])
      (.goes 0x80000004 [(5, 0xFFFFFFFF)] [] [] []) := by decide

theorem test_sll_V35 :
    stepGives 0x007312B3 (vec .default [] 0x80000000 [(6, 1), (7, 0x21)] [] [])
      (.goes 0x80000004 [(5, 2)] [] [] []) := by decide

theorem test_slt_V37 :
    stepGives 0x007322B3 (vec .default [] 0x80000000 [(6, 0x80000000), (7, 0x7FFFFFFF)] [] [])
      (.goes 0x80000004 [(5, 1)] [] [] []) := by decide

theorem test_sltu_V38 :
    stepGives 0x007332B3 (vec .default [] 0x80000000 [(5, 9), (6, 0x80000000), (7, 0x7FFFFFFF)] [] [])
      (.goes 0x80000004 [(5, 0)] [] [] []) := by decide

theorem test_xor_V40 :
    stepGives 0x007342B3 (vec .default [] 0x80000000 [(6, 0xFF00FF00), (7, 0xFF00FF0)] [] [])
      (.goes 0x80000004 [(5, 0xF0F0F0F0)] [] [] []) := by decide

theorem test_srl_V41 :
    stepGives 0x007352B3 (vec .default [] 0x80000000 [(6, 0x80000000), (7, 0xFFFFFFFF)] [] [])
      (.goes 0x80000004 [(5, 1)] [] [] []) := by decide

theorem test_sra_V42 :
    stepGives 0x407352B3 (vec .default [] 0x80000000 [(6, 0x80000000), (7, 0xFFFFFFE4)] [] [])
      (.goes 0x80000004 [(5, 0xF8000000)] [] [] []) := by decide

theorem test_or_V43 :
    stepGives 0x007362B3 (vec .default [] 0x80000000 [(6, 0xFF00FF00), (7, 0xFF00FF0)] [] [])
      (.goes 0x80000004 [(5, 0xFFF0FFF0)] [] [] []) := by decide

theorem test_and_V44 :
    stepGives 0x007372B3 (vec .default [] 0x80000000 [(6, 0xFF00FF00), (7, 0xFF00FF0)] [] [])
      (.goes 0x80000004 [(5, 0xF000F00)] [] [] []) := by decide

/-! ### Multiply and divide: spec/95_test_vectors.md section 2.4 -/

theorem test_mul_V53 :
    stepGives 0x027302B3 (vec .default [] 0x80000000 [(6, 0x12345678), (7, 0x9ABCDEF0)] [] [])
      (.goes 0x80000004 [(5, 0x242D2080)] [] [] []) := by decide

theorem test_mulh_V55 :
    stepGives 0x027312B3 (vec .default [] 0x80000000 [(6, 0x80000000), (7, 0x80000000)] [] [])
      (.goes 0x80000004 [(5, 0x40000000)] [] [] []) := by decide

theorem test_mulh_V56 :
    stepGives 0x027312B3 (vec .default [] 0x80000000 [(6, 0x80000000), (7, 0x7FFFFFFF)] [] [])
      (.goes 0x80000004 [(5, 0xC0000000)] [] [] []) := by decide

theorem test_mulhsu_V58 :
    stepGives 0x027322B3 (vec .default [] 0x80000000 [(6, 0xFFFFFFFF), (7, 0xFFFFFFFF)] [] [])
      (.goes 0x80000004 [(5, 0xFFFFFFFF)] [] [] []) := by decide

theorem test_mulhsu_V60 :
    stepGives 0x027322B3 (vec .default [] 0x80000000 [(6, 0x7FFFFFFF), (7, 0xFFFFFFFF)] [] [])
      (.goes 0x80000004 [(5, 0x7FFFFFFE)] [] [] []) := by decide

theorem test_mulhu_V62 :
    stepGives 0x027332B3 (vec .default [] 0x80000000 [(6, 0xFFFFFFFF), (7, 0xFFFFFFFF)] [] [])
      (.goes 0x80000004 [(5, 0xFFFFFFFE)] [] [] []) := by decide

theorem test_div_V66 :
    stepGives 0x027342B3 (vec .default [] 0x80000000 [(6, 0xFFFFFFF9), (7, 2)] [] [])
      (.goes 0x80000004 [(5, 0xFFFFFFFD)] [] [] []) := by decide

theorem test_div_V71 :
    stepGives 0x027342B3 (vec .default [] 0x80000000 [(6, 0x80000000), (7, 0xFFFFFFFF)] [] [])
      (.goes 0x80000004 [(5, 0x80000000)] [] [] []) := by decide

theorem test_divu_V74 :
    stepGives 0x027352B3 (vec .default [] 0x80000000 [(6, 0xFFFFFFF9), (7, 2)] [] [])
      (.goes 0x80000004 [(5, 0x7FFFFFFC)] [] [] []) := by decide

theorem test_divu_V75 :
    stepGives 0x027352B3 (vec .default [] 0x80000000 [(6, 7), (7, 0)] [] [])
      (.goes 0x80000004 [(5, 0xFFFFFFFF)] [] [] []) := by decide

theorem test_rem_V78 :
    stepGives 0x027362B3 (vec .default [] 0x80000000 [(6, 0xFFFFFFF9), (7, 2)] [] [])
      (.goes 0x80000004 [(5, 0xFFFFFFFF)] [] [] []) := by decide

theorem test_rem_V83 :
    stepGives 0x027362B3 (vec .default [] 0x80000000 [(6, 0x80000000), (7, 0xFFFFFFFF)] [] [])
      (.goes 0x80000004 [(5, 0)] [] [] []) := by decide

theorem test_remu_V85 :
    stepGives 0x027372B3 (vec .default [] 0x80000000 [(6, 0xFFFFFFF9), (7, 2)] [] [])
      (.goes 0x80000004 [(5, 1)] [] [] []) := by decide

theorem test_remu_V86 :
    stepGives 0x027372B3 (vec .default [] 0x80000000 [(6, 7), (7, 0)] [] [])
      (.goes 0x80000004 [(5, 7)] [] [] []) := by decide

/-! ### Loads and stores: spec/95_test_vectors.md section 2.5 and 2.12 -/

theorem test_lb_V90 :
    stepGives 0xFFC30283 (vec .default [] 0x80000000 [(6, 0x80001004)] [] [(0x80001000, 0xEF)])
      (.goes 0x80000004 [(5, 0xFFFFFFEF)] [] [] []) := by decide

theorem test_lb_device_V262 :
    stepGives 0x00030403 (vec uartCfg [] 0x80000000 [(6, 0x10000000)] [] [])
      (.stops .unsupportedInstruction) := by decide

theorem test_lh_V93 :
    stepGives 0x00231283 (vec .default [] 0x80000000 [(6, 0x80001000)] [] [(0x80001002, 0x34), (0x80001003, 0x92)])
      (.goes 0x80000004 [(5, 0xFFFF9234)] [] [] []) := by decide

theorem test_lh_past_top_V103 :
    stepGives 0x00031283 (vec .default [] 0x80000000 [(6, 0xFFFFFFFF)] [] [])
      (.stops .memoryAccessError) := by decide

theorem test_lw_V96 :
    stepGives 0x00132283 (vec .default [] 0x80000000 [(6, 0x80001000)] [] [(0x80001000, 0x78), (0x80001001, 0x56), (0x80001002, 0x34), (0x80001003, 0x12), (0x80001004, 0xDD), (0x80001005, 0xCC), (0x80001006, 0xBB), (0x80001007, 0xAA)])
      (.goes 0x80000004 [(5, 0xDD123456)] [] [(0x80001000, 0x78), (0x80001001, 0x56), (0x80001002, 0x34), (0x80001003, 0x12), (0x80001004, 0xDD), (0x80001005, 0xCC), (0x80001006, 0xBB), (0x80001007, 0xAA)] []) := by decide

theorem test_lw_device_V260 :
    stepGives 0x00432403 (vec uartCfg [0xCAFE0004] 0x80000000 [(6, 0x10000000)] [] [])
      (.goes 0x80000004 [(8, 0xCAFE0004)] [] [] [.read 0 4 0xCAFE0004]) := by decide

theorem test_lbu_V98 :
    stepGives 0x00034283 (vec .default [] 0x80000000 [(6, 0x90000000)] [] [])
      (.goes 0x80000004 [(5, 0xFF)] [] [] []) := by decide

theorem test_lhu_V94 :
    stepGives 0x00235283 (vec .default [] 0x80000000 [(6, 0x80001000)] [] [(0x80001002, 0x34), (0x80001003, 0x92)])
      (.goes 0x80000004 [(5, 0x9234)] [] [] []) := by decide

theorem test_sb_V105 :
    stepGives 0x00730023 (vec .default [] 0x80000000 [(6, 0x80001000), (7, 0xFFFFFFEF)] [] [(0x80001000, 0x44), (0x80001001, 0x33), (0x80001002, 0x22), (0x80001003, 0x11)])
      (.goes 0x80000004 [] [] [(0x80001000, 0xEF), (0x80001001, 0x33), (0x80001002, 0x22), (0x80001003, 0x11)] []) := by decide

theorem test_sh_V109 :
    stepGives 0x007311A3 (vec .default [] 0x80000000 [(6, 0x80001000), (7, 0xBEEF)] [] [(0x80001000, 0x44), (0x80001001, 0x33), (0x80001002, 0x22), (0x80001003, 0x11), (0x80001004, 0x88), (0x80001005, 0x77), (0x80001006, 0x66), (0x80001007, 0x55)])
      (.goes 0x80000004 [] [] [(0x80001000, 0x44), (0x80001001, 0x33), (0x80001002, 0x22), (0x80001003, 0xEF), (0x80001004, 0xBE), (0x80001005, 0x77), (0x80001006, 0x66), (0x80001007, 0x55)] []) := by decide

theorem test_sh_device_V263 :
    stepGives 0x00731023 (vec uartCfg [] 0x80000000 [(6, 0x10000000), (7, 0x41)] [] [])
      (.stops .unsupportedInstruction) := by decide

theorem test_sw_V108 :
    stepGives 0x007320A3 (vec .default [] 0x80000000 [(6, 0x80001000), (7, 0xDEADBEEF)] [] [(0x80001000, 0x44), (0x80001001, 0x33), (0x80001002, 0x22), (0x80001003, 0x11), (0x80001004, 0x88), (0x80001005, 0x77), (0x80001006, 0x66), (0x80001007, 0x55)])
      (.goes 0x80000004 [] [] [(0x80001000, 0x44), (0x80001001, 0xEF), (0x80001002, 0xBE), (0x80001003, 0xAD), (0x80001004, 0xDE), (0x80001005, 0x77), (0x80001006, 0x66), (0x80001007, 0x55)] []) := by decide

theorem test_sw_device_V261 :
    stepGives 0x00732023 (vec uartCfg [] 0x80000000 [(6, 0x10000000), (7, 0x41)] [] [])
      (.goes 0x80000004 [] [] [] [.write 0 0 0x41]) := by decide

/-! ### Branches: spec/95_test_vectors.md section 2.6 -/

theorem test_beq_V121 :
    stepGives 0x00730463 (vec .default [] 0x80000100 [(6, 5), (7, 6)] [] [])
      (.goes 0x80000104 [] [] [] []) := by decide

theorem test_beq_V136 :
    stepGives 0x80000063 (vec .default [] 0x80001000 [] [] [])
      (.goes 0x80000000 [] [] [] []) := by decide

theorem test_bne_V138 :
    stepGives 0xFE731EE3 (vec .default [] 0x80000100 [(6, 1), (7, 2)] [] [])
      (.goes 0x800000FC [] [] [] []) := by decide

theorem test_blt_V125 :
    stepGives 0x00734463 (vec .default [] 0x80000100 [(6, 1), (7, 0xFFFFFFFF)] [] [])
      (.goes 0x80000104 [] [] [] []) := by decide

theorem test_bge_V127 :
    stepGives 0x00735463 (vec .default [] 0x80000100 [(6, 0xFFFFFFFF), (7, 1)] [] [])
      (.goes 0x80000104 [] [] [] []) := by decide

theorem test_bge_V128 :
    stepGives 0x00735463 (vec .default [] 0x80000100 [(6, 5), (7, 5)] [] [])
      (.goes 0x80000108 [] [] [] []) := by decide

theorem test_bltu_V131 :
    stepGives 0x00736463 (vec .default [] 0x80000100 [(6, 1), (7, 0xFFFFFFFF)] [] [])
      (.goes 0x80000108 [] [] [] []) := by decide

theorem test_bgeu_V133 :
    stepGives 0x00737463 (vec .default [] 0x80000100 [(6, 0xFFFFFFFF), (7, 1)] [] [])
      (.goes 0x80000108 [] [] [] []) := by decide

theorem test_bgeu_V134 :
    stepGives 0x00737463 (vec .default [] 0x80000100 [(6, 5), (7, 5)] [] [])
      (.goes 0x80000108 [] [] [] []) := by decide

/-! ### LUI, AUIPC, JAL, JALR: spec/95_test_vectors.md section 2.7 -/

theorem test_lui_V150 :
    stepGives 0x123452B7 (vec .default [] 0x80000000 [] [] [])
      (.goes 0x80000004 [(5, 0x12345000)] [] [] []) := by decide

theorem test_auipc_V154 :
    stepGives 0xFFFFF297 (vec .default [] 0x80000010 [] [] [])
      (.goes 0x80000014 [(5, 0x7FFFF010)] [] [] []) := by decide

theorem test_jal_V159 :
    stepGives 0x800000EF (vec .default [] 0x80100000 [] [] [])
      (.goes 0x80000000 [(1, 0x80100004)] [] [] []) := by decide

theorem test_jal_V160 :
    stepGives 0x7FFFF0EF (vec .default [] 0x80000000 [] [] [])
      (.goes 0x800FFFFE [(1, 0x80000004)] [] [] []) := by decide

theorem test_jalr_V165 :
    stepGives 0xFFF282E7 (vec .default [] 0x100 [(5, 0x201)] [] [])
      (.goes 0x200 [(5, 0x104)] [] [] []) := by decide

theorem test_jalr_V166 :
    stepGives 0x013300E7 (vec .default [] 0x80000004 [(6, 0x80000000)] [] [])
      (.goes 0x80000012 [(1, 0x80000008)] [] [] []) := by decide

/-! ### System and CSR: spec/95_test_vectors.md section 2.8 -/

theorem test_ecall_V180 :
    stepGives 0x00000073 (vec .default [] 0x80000010 [(0x11, 0x5D), (0xA, 0), (3, 1)] [] [])
      (.stops .ecallTermination) := by decide

theorem test_ebreak_V182 :
    stepGives 0x00100073 (vec .default [] 0x80000000 [] [] [])
      (.stops .unsupportedInstruction) := by decide

theorem test_mret_V183 :
    stepGives 0x30200073 (vec .default [] 0x80000038 [] [(0x341, 0x80000000), (0x300, 0x1880)] [])
      (.goes 0x8000003C [] [(0x341, 0x80000000), (0x300, 0x1880)] [] []) := by decide

theorem test_csrrw_V189 :
    stepGives 0x340292F3 (vec .default [] 0x80000000 [(5, 0x22)] [(0x340, 0x11)] [])
      (.goes 0x80000004 [(5, 0x11)] [(0x340, 0x22)] [] []) := by decide

theorem test_csrrw_V191 :
    stepGives 0xF14312F3 (vec .default [] 0x80000000 [(6, 7)] [] [])
      (.goes 0x80000004 [(5, 0)] [(0xF14, 7)] [] []) := by decide

theorem test_csrrs_V192 :
    stepGives 0x300322F3 (vec .default [] 0x80000000 [(6, 8)] [(0x300, 0x1800)] [])
      (.goes 0x80000004 [(5, 0x1800)] [(0x300, 0x1808)] [] []) := by decide

theorem test_csrrs_V196 :
    stepGives 0xC00022F3 (vec .default [] 0x80000000 [(5, 9)] [] [])
      (.goes 0x80000004 [(5, 0)] [(0xC00, 0)] [] []) := by decide

theorem test_csrrc_V197 :
    stepGives 0x300332F3 (vec .default [] 0x80000000 [(6, 0x808)] [(0x300, 0x1888)] [])
      (.goes 0x80000004 [(5, 0x1888)] [(0x300, 0x1080)] [] []) := by decide

theorem test_csrrwi_V199 :
    stepGives 0x340FD2F3 (vec .default [] 0x80000000 [] [(0x340, 0x11)] [])
      (.goes 0x80000004 [(5, 0x11)] [(0x340, 0x1F)] [] []) := by decide

theorem test_csrrwi_V200 :
    stepGives 0x34005073 (vec .default [] 0x80000000 [] [(0x340, 0x11)] [])
      (.goes 0x80000004 [] [(0x340, 0)] [] []) := by decide

theorem test_csrrsi_V201 :
    stepGives 0x300462F3 (vec .default [] 0x80000000 [] [(0x300, 0x1800)] [])
      (.goes 0x80000004 [(5, 0x1800)] [(0x300, 0x1808)] [] []) := by decide

theorem test_csrrci_V204 :
    stepGives 0x300FF2F3 (vec .default [] 0x80000000 [] [(0x300, 0xFFFFFFFF)] [])
      (.goes 0x80000004 [(5, 0xFFFFFFFF)] [(0x300, 0xFFFFFFE0)] [] []) := by decide

/-! ### Atomics: spec/95_test_vectors.md section 2.9 and 2.12 -/

theorem test_lrW_V211 :
    stepGives 0x107322AF (vec .default [] 0x80000000 [(6, 0x80001000), (7, 0x63)] [] [(0x80001000, 0x5E), (0x80001001, 1), (0x80001002, 0), (0x80001003, 0)])
      (.goes 0x80000004 [(5, 0x15E)] [] [(0x80001000, 0x5E), (0x80001001, 1), (0x80001002, 0), (0x80001003, 0)] []) := by decide

theorem test_lrW_device_V269 :
    stepGives 0x100322AF (vec uartCfg [0xCAFE0010] 0x80000000 [(6, 0x10000010)] [] [])
      (.goes 0x80000004 [(5, 0xCAFE0010)] [] [] [.read 0 0x10 0xCAFE0010]) := by decide

theorem test_scW_V213 :
    stepGives 0x187323AF (vec .default [] 0x80000000 [(6, 0x80001000), (7, 0x32)] [] [(0x80001000, 7), (0x80001001, 0), (0x80001002, 0), (0x80001003, 0)])
      (.goes 0x80000004 [(7, 0)] [] [(0x80001000, 0x32), (0x80001001, 0), (0x80001002, 0), (0x80001003, 0)] []) := by decide

theorem test_scW_device_V270 :
    stepGives 0x187322AF (vec uartCfg [] 0x80000000 [(5, 9), (6, 0x10000010), (7, 3)] [] [])
      (.goes 0x80000004 [(5, 0)] [] [] [.write 0 0x10 0x3]) := by decide

theorem test_amoswapW_V215 :
    stepGives 0x087323AF (vec .default [] 0x80000000 [(6, 0x80001000), (7, 0x55555555)] [] [(0x80001000, 0xAA), (0x80001001, 0xAA), (0x80001002, 0xAA), (0x80001003, 0xAA)])
      (.goes 0x80000004 [(7, 0xAAAAAAAA)] [] [(0x80001000, 0x55), (0x80001001, 0x55), (0x80001002, 0x55), (0x80001003, 0x55)] []) := by decide

theorem test_amoaddW_V221 :
    stepGives 0x007322AF (vec .default [] 0x80000000 [(6, 0x80001001), (7, 1)] [] [(0x80001000, 0xAA), (0x80001001, 0xFF), (0x80001002, 0xFF), (0x80001003, 0xFF), (0x80001004, 1), (0x80001005, 0xBB), (0x80001006, 0xBB), (0x80001007, 0xBB)])
      (.goes 0x80000004 [(5, 0x1FFFFFF)] [] [(0x80001000, 0xAA), (0x80001001, 0), (0x80001002, 0), (0x80001003, 0), (0x80001004, 2), (0x80001005, 0xBB), (0x80001006, 0xBB), (0x80001007, 0xBB)] []) := by decide

theorem test_amoaddW_device_V268 :
    stepGives 0x007322AF (vec uartCfg [0xCAFE0010] 0x80000000 [(6, 0x10000010), (7, 1)] [] [])
      (.goes 0x80000004 [(5, 0xCAFE0010)] [] [] [.read 0 0x10 0xCAFE0010, .write 0 0x10 0xCAFE0011]) := by decide

theorem test_amoxorW_V222 :
    stepGives 0x207322AF (vec .default [] 0x80000000 [(6, 0x80001000), (7, 0xFF00FF0)] [] [(0x80001000, 0), (0x80001001, 0xFF), (0x80001002, 0), (0x80001003, 0xFF)])
      (.goes 0x80000004 [(5, 0xFF00FF00)] [] [(0x80001000, 0xF0), (0x80001001, 0xF0), (0x80001002, 0xF0), (0x80001003, 0xF0)] []) := by decide

theorem test_amoandW_V223 :
    stepGives 0x607322AF (vec .default [] 0x80000000 [(6, 0x80001000), (7, 0xFF00FF0)] [] [(0x80001000, 0), (0x80001001, 0xFF), (0x80001002, 0), (0x80001003, 0xFF)])
      (.goes 0x80000004 [(5, 0xFF00FF00)] [] [(0x80001000, 0), (0x80001001, 0xF), (0x80001002, 0), (0x80001003, 0xF)] []) := by decide

theorem test_amoorW_V224 :
    stepGives 0x407322AF (vec .default [] 0x80000000 [(6, 0x80001000), (7, 0xFF00FF0)] [] [(0x80001000, 0), (0x80001001, 0xFF), (0x80001002, 0), (0x80001003, 0xFF)])
      (.goes 0x80000004 [(5, 0xFF00FF00)] [] [(0x80001000, 0xF0), (0x80001001, 0xFF), (0x80001002, 0xF0), (0x80001003, 0xFF)] []) := by decide

theorem test_amominW_V226 :
    stepGives 0x807322AF (vec .default [] 0x80000000 [(6, 0x80001000), (7, 0x80000000)] [] [(0x80001000, 0xFF), (0x80001001, 0xFF), (0x80001002, 0xFF), (0x80001003, 0x7F)])
      (.goes 0x80000004 [(5, 0x7FFFFFFF)] [] [(0x80001000, 0), (0x80001001, 0), (0x80001002, 0), (0x80001003, 0x80)] []) := by decide

theorem test_amomaxW_V227 :
    stepGives 0xA07322AF (vec .default [] 0x80000000 [(6, 0x80001000), (7, 1)] [] [(0x80001000, 0xFF), (0x80001001, 0xFF), (0x80001002, 0xFF), (0x80001003, 0xFF)])
      (.goes 0x80000004 [(5, 0xFFFFFFFF)] [] [(0x80001000, 1), (0x80001001, 0), (0x80001002, 0), (0x80001003, 0)] []) := by decide

theorem test_amominuW_V229 :
    stepGives 0xC07322AF (vec .default [] 0x80000000 [(6, 0x80001000), (7, 1)] [] [(0x80001000, 0xFF), (0x80001001, 0xFF), (0x80001002, 0xFF), (0x80001003, 0xFF)])
      (.goes 0x80000004 [(5, 0xFFFFFFFF)] [] [(0x80001000, 1), (0x80001001, 0), (0x80001002, 0), (0x80001003, 0)] []) := by decide

theorem test_amomaxuW_V232 :
    stepGives 0xE07322AF (vec .default [] 0x80000000 [(6, 0x80001000), (7, 0x80000000)] [] [(0x80001000, 0xFF), (0x80001001, 0xFF), (0x80001002, 0xFF), (0x80001003, 0x7F)])
      (.goes 0x80000004 [(5, 0x7FFFFFFF)] [] [(0x80001000, 0), (0x80001001, 0), (0x80001002, 0), (0x80001003, 0x80)] []) := by decide

/-! ### FENCE and FENCE.I: spec/95_test_vectors.md section 2.10 -/

theorem test_fence_V241 :
    stepGives 0x8330000F (vec .default [] 0x80000000 [] [] [])
      (.goes 0x80000004 [] [] [] []) := by decide

theorem test_fenceI_V243 :
    stepGives 0x0000100F (vec .default [] 0x80000000 [] [] [])
      (.goes 0x80000004 [] [] [] []) := by decide

/-! ## Operations at the edges: spec/95_test_vectors.md sections 2.5, 2.12, 2.13 -/

/-- The dense store of section 2.13, 64 KiB from `MEM_BASE`. -/
def denseCfg : Config := { Config.default with memBacking := .dense 0x10000 }

def strictCfg : Config := { Config.default with alignPolicy := .strict }

def reservedCfg : Config := { Config.default with strictReservedFields := true }

/-- Two devices whose ranges overlap on `0x100000F0` to `0x100000FF`. -/
def overlapCfg : Config := { Config.default with peripherals := [uart, ⟨0x100000F0, 0x20⟩] }

/-- Reset under `cfg` with `x6 = a`, the base register of the vectors. -/
def baseAt (cfg : Config) (a : Word) : State := vec cfg [] 0x80000000 [(6, a)] [] []

/-- The event of a result, if it is one. -/
def eventOf : Result → Option Fault
  | .fault f => some f
  | .next _ => none
  | .refused _ => none

/-- Vectors V97, V102 to V104 (R31, R37): the last byte of an access may be `0xFFFFFFFF`, not beyond. -/
theorem test_top_of_memory :
    memRead State.reset 0xFFFFFFFC .word = .ok 0xFFFFFFFF ∧ memRead State.reset 0xFFFFFFFD .word = .error .memoryAccessError ∧
    memRead State.reset 0xFFFFFFFE .half = .ok 0xFFFF ∧ memRead State.reset 0xFFFFFFFF .half = .error .memoryAccessError ∧
    memRead State.reset 0xFFFFFFFF .byte = .ok 0xFF := by decide

/-- Vectors W1 to W6 (R36). -/
theorem test_strict_alignment :
    memRead (baseAt strictCfg 0) 0x80001001 .word = .error .memoryAccessError ∧
    memRead (baseAt strictCfg 0) 0x80001002 .word = .error .memoryAccessError ∧
    memRead (baseAt strictCfg 0) 0x80001001 .half = .error .memoryAccessError ∧
    memRead (baseAt strictCfg 0) 0x80001002 .half = .ok 0xFFFF ∧
    memRead (baseAt strictCfg 0) 0x80001003 .byte = .ok 0xFF ∧
    memWrite (baseAt strictCfg 0) 0x80001002 .word 0xDEADBEEF = .error .memoryAccessError := by decide

/-- Vectors W8 to W12 (R32). -/
theorem test_dense_bounds :
    memWrite (baseAt denseCfg 0) 0x3E8 .word 0x6E4 = .error .memoryAccessError ∧
    memRead (baseAt denseCfg 0) 0x80010000 .word = .error .memoryAccessError ∧
    memRead (baseAt denseCfg 0) 0x8000FFFD .word = .error .memoryAccessError ∧
    memRead (baseAt denseCfg 0) 0x8000FFFC .word = .ok 0 ∧
    memWrite (baseAt denseCfg 0) 0x8000FFFE .word 0xDEADBEEF = .error .memoryAccessError := by decide

/-- Vectors W13 and W15: a fetch outside the dense store, and one of its zeroed memory. -/
theorem test_dense_fetch :
    eventOf (step (vec denseCfg [] 0x3E8 [] [] [])) = some .memoryAccessError ∧
    eventOf (step (vec denseCfg [] 0x80000100 [] [] [])) = some .unsupportedInstruction := by decide

/-- Vectors V251 and V257: a fetch of never-written sparse memory, and one at a misaligned pc. -/
theorem test_sparse_fetch :
    eventOf (step State.reset) = some .unsupportedInstruction ∧
    eventOf (step (vec .default [] 0x80000002 [] [] [])) = some .memoryAccessError := by decide

/-- Vectors V264 to V266 and W7 (R40, R44): the first byte decides the owner, and no device access is aligned. -/
theorem test_device_bounds :
    busRead (vec uartCfg [0xCAFE00FF] 0 [] [] []) 0x100000FF .word =
      .ok (0xCAFE00FF, { vec uartCfg [] 0 [] [] [] with devLog := [.read 0 0xFF 0xCAFE00FF] }) ∧
    busRead (vec uartCfg [7] 0 [] [] []) 0x10000100 .word = .ok (0xFFFFFFFF, vec uartCfg [7] 0 [] [] []) ∧
    busRead (vec uartCfg [7] 0 [] [] []) 0x0FFFFFFF .word = .ok (0xFFFFFFFF, vec uartCfg [7] 0 [] [] []) ∧
    busWrite (vec { uartCfg with alignPolicy := .strict } [] 0 [] [] []) 0x10000001 .word 9 =
      .ok { vec { uartCfg with alignPolicy := .strict } [] 0 [] [] [] with devLog := [.write 0 1 9] } := by decide

/-- The first entry of the table that contains an address owns it (R40). -/
theorem test_overlapping_devices :
    owner overlapCfg 0x100000FF = some (0, uart) ∧ owner overlapCfg 0x10000100 = some (1, ⟨0x100000F0, 0x20⟩) ∧
    owner overlapCfg 0x1000010F = some (1, ⟨0x100000F0, 0x20⟩) ∧ owner overlapCfg 0x10000110 = none := by decide

/-- Writing the fill byte leaves nothing listed (R31), so equal memories are equal data. -/
theorem test_fill_byte_is_not_listed :
    (setBytes State.reset [(4, 1), (2, 7), (4, 0xFF)]).mem = [(2, 7)] ∧ Memory.wf .default State.reset.mem = true := by
  decide

/-- A CSR set to 0 is not listed (R15). -/
theorem test_zero_csr_is_not_listed : (setCsrs State.reset [(0x340, 5), (0x300, 1), (0x340, 0)]).csrs = [(0x300, 1)] := by
  decide

/-! ## Loader, runs, verdicts: spec/70_reset_and_hazards.md, spec/60_exceptions.md, sections 2.14 and 2.15 -/

/-- A later segment overwrites an earlier one; illegal platforms and segments give no machine (R282, R32, R40). -/
theorem test_boot :
    (∃ s, boot .default 0x1000 [(0x1000, [1, 2]), (0x1001, [3])] [] = .ok s ∧ s.pc = 0x1000 ∧
      s.mem = [(0x1000, 1), (0x1001, 3)]) ∧
    boot .default 0 [(0xFFFFFFFF, [1, 2])] [] = .error .segmentPastTop ∧
    boot denseCfg 0 [(0x80010000, [1])] [] = .error .memoryAccessError ∧
    boot { Config.default with memBacking := .dense 0x80000001 } 0 [] [] = .error .badConfiguration ∧
    boot { Config.default with peripherals := [⟨0xFFFFFFFF, 2⟩] } 0 [] [] = .error .badConfiguration :=
  ⟨⟨_, rfl, by decide⟩, by decide⟩

/-- Vector Q3: with limit 0 nothing executes. -/
theorem test_run_limit_zero : runLimited 0 State.reset = ⟨.stopLimit, State.reset⟩ := by decide

/-- Vector Q7 (program P5c), from its EBREAK on: it is not counted. -/
theorem test_run_ebreak : (runLimited 5 (State.reset.withFetchWord 32 0x00100073)).stop = .stopUnsupported ∧
    (runLimited 5 (State.reset.withFetchWord 32 0x00100073)).final.count = 0 := by decide

/-- The ECALL is counted and pc stays (Q1). -/
theorem test_run_ecall : (runLimited 5 (State.reset.withFetchWord 32 0x00000073)).stop = .stopEcall ∧
    (runLimited 5 (State.reset.withFetchWord 32 0x00000073)).final.count = 1 ∧
    (runLimited 5 (State.reset.withFetchWord 32 0x00000073)).final.pc = 0x80000000 := by decide

/-- The verdict on an ECALL stop with the given x17, x3, x10. -/
def verdictOf (x17 x3 x10 : Word) : Verdict :=
  classify ⟨.stopEcall, setRegs State.reset [(17, x17), (3, x3), (10, x10)]⟩

/-- Vectors K1 to K8. -/
theorem test_classify :
    verdictOf 93 1 0 = .pass ∧ verdictOf 93 1 5 = .unknown ∧ verdictOf 93 5 5 = .fail 5 ∧ verdictOf 93 0 0 = .fail 0 ∧
    verdictOf 93 3 0 = .fail 0 ∧ verdictOf 0 1 0 = .unknown ∧ verdictOf 94 5 5 = .unknown ∧
    classify ⟨.stopLimit, setRegs State.reset [(17, 93), (3, 1), (10, 0)]⟩ = .unknown := by decide

/-- `withFetchWord` reaches a device's fetch too: the device returns the word next. -/
theorem test_fetch_from_device :
    stepGives 0xFFF30293 (vec uartCfg [] 0x10000004 [] [] [])
      (.goes 0x10000008 [(5, 0xFFFFFFFF)] [] [] [.read 0 4 0xFFF30293]) := by decide

/-! ## Names and pseudo-instructions: spec/10_state.md R16, spec/30_encoding.md R78 -/

theorem test_names : abiNames.length = 32 ∧ abiNames[10]? = some "a0" ∧ abiNames[17]? = some "a7" ∧ abiNames.Nodup ∧
    namedCsrs.length = 15 ∧ ("mhartid", 0xF14#12) ∈ namedCsrs := by decide

/-- The words the spec gives for NOP (V24) and FENCE without operands (R78, V240). -/
theorem test_pseudo_words : (Pseudo.expand .nop).map encode = [0x00000013#32] ∧
    (Pseudo.expand .fenceAll).map encode = [0x0FF0000F#32] ∧ (Pseudo.expand (.j (-8))).map encode = [0xFF9FF06F#32] := by
  decide

/-- A lower part of 0x800 or more is negative as an immediate, so the upper part is one higher (R78). -/
theorem test_pseudo_li : Pseudo.expand (.li 5 0x12345FFF) = [.lui 5 0x12346, .addi 5 5 (-1)] ∧
    Pseudo.expand (.li 5 0x12345000) = [.lui 5 0x12345] ∧ Pseudo.expand (.li 5 (-2048)) = [.addi 5 0 (-2048)] ∧
    Pseudo.expand (.li 5 2048) = [.lui 5 1, .addi 5 5 (-2048)] := by decide

/-! ## Witnesses: the hypotheses of the obligations can be met, each clause at an edge of its range -/

theorem acc {c : Config} {a : Word} (w : Width) (h : memAccessible c a w = true) : Accessible c a w.size :=
  (memAccessible_iff c a w).1 h

theorem notAcc {c : Config} {a : Word} (w : Width) (h : memAccessible c a w = false) : ¬ Accessible c a w.size :=
  fun e => by rw [(memAccessible_iff c a w).2 e] at h; cases h

theorem free {c : Config} {a : Word} (h : owner c a = none) : Unowned c a := (owner_none c a).1 h

theorem owned {c : Config} {a : Word} {k : Nat} {p : Peripheral} (h : owner c a = some (k, p)) : OwnedBy c a k p :=
  (owner_some c a k p).1 h

theorem witness_BootLeavesTheResetState :
    (∃ s, boot denseCfg 0x80000000 [(0x80000000, [1, 2]), (0x80000001, [3])] [7] = .ok s) ∧
    (∀ q ∈ ([(0x80000001, [3])] : List Segment), ¬ (q.1.toNat ≤ 0x80000000 + 0 ∧ 0x80000000 + 0 < q.1.toNat + q.2.length)) ∧
    (∀ q ∈ ([(0x80000000, [1, 2]), (0x80000001, [3])] : List Segment),
      ¬ (q.1.toNat ≤ 0x80000002 ∧ 0x80000002 < q.1.toNat + q.2.length)) :=
  ⟨⟨_, rfl⟩, by decide, by decide⟩

theorem witness_BootAnswersExactlyForLegalPlatforms :
    (∃ s, boot { denseCfg with memBacking := .dense 0x80000000, peripherals := [⟨0xFFFFFFFF, 1⟩] } 0
      [(0xFFFFFFFF, [1])] [] = .ok s) :=
  ⟨_, rfl⟩

theorem witness_MemoryWriteIsReadBack :
    State.reset.canonical = true ∧ Accessible .default 0xFFFFFFFC 4 ∧ ¬ Accessible .default 0xFFFFFFFD 4 ∧
    Accessible .default 0xFFFFFFFF 1 ∧ (baseAt denseCfg 0).canonical = true ∧ Accessible denseCfg 0x8000FFFC 4 ∧
    Accessible denseCfg 0x80000000 1 ∧ ¬ Accessible denseCfg 0x7FFFFFFF 1 ∧ ¬ Accessible denseCfg 0x80010000 1 ∧
    (baseAt strictCfg 0).canonical = true ∧ Accessible strictCfg 2 2 ∧ ¬ Accessible strictCfg 2 4 :=
  ⟨by decide, acc .word (by decide), notAcc .word (by decide), acc .byte (by decide), by decide, acc .word (by decide),
    acc .byte (by decide), notAcc .byte (by decide), notAcc .byte (by decide), by decide, acc .half (by decide),
    notAcc .word (by decide)⟩

theorem witness_BusRoutesByTheFirstByte :
    OwnedBy uartCfg 0x10000000 0 uart ∧ OwnedBy uartCfg 0x100000FF 0 uart ∧ Unowned uartCfg 0x10000100 ∧
    Unowned uartCfg 0x0FFFFFFF :=
  ⟨owned (by decide), owned (by decide), free (by decide), free (by decide)⟩

theorem witness_EveryAddressHasOneOwnerOrNone :
    OwnedBy overlapCfg 0x100000FF 0 uart ∧ OwnedBy overlapCfg 0x10000100 1 ⟨0x100000F0, 0x20⟩ ∧
    Unowned overlapCfg 0x10000110 ∧ (⟨0x10000000, 0⟩ : Peripheral).size = 0 :=
  ⟨owned (by decide), owned (by decide), free (by decide), rfl⟩

/-- Reset with the word of an instruction at pc. -/
def running (w : Nat) : State := State.reset.withFetchWord 32 w

theorem witness_StepRunsTheDecodedInstruction :
    ((running 0xFFF30293).pc.toNat % 4 = 0 ∧ Unowned (running 0xFFF30293).cfg (running 0xFFF30293).pc ∧
      Accessible (running 0xFFF30293).cfg (running 0xFFF30293).pc 4 ∧
      decodeBytes (running 0xFFF30293).cfg.strictReservedFields
        [readByte (running 0xFFF30293) 0x80000000, readByte (running 0xFFF30293) 0x80000001,
         readByte (running 0xFFF30293) 0x80000002, readByte (running 0xFFF30293) 0x80000003] =
        .ok (.addi 5 6 (-1), []) ∧
      ∃ t, exec (.addi 5 6 (-1)) (running 0xFFF30293) = .next t) ∧
    (decodeBytes (running 0x73).cfg.strictReservedFields
        [readByte (running 0x73) 0x80000000, readByte (running 0x73) 0x80000001, readByte (running 0x73) 0x80000002,
         readByte (running 0x73) 0x80000003] = .ok (.ecall 0 0, []) ∧
      exec (.ecall 0 0) (running 0x73) = .fault .ecallTermination) :=
  ⟨⟨by decide, free (by decide), acc .word (by decide), by decide, ⟨_, rfl⟩⟩, by decide, rfl⟩

/-- With an input word that decodes, with one that does not, and with no input word. -/
theorem witness_StepFetchesFromTheOwningDevice :
    (vec uartCfg [0x13] 0x100000FC [] [] []).pc.toNat % 4 = 0 ∧ OwnedBy uartCfg 0x100000FC 0 uart ∧
    DeviceMayReturn (vec uartCfg [0x13] 0x100000FC [] [] []) 0x13 ∧
    decode uartCfg.strictReservedFields 0x7F = .error .unknownOpcode ∧
    DeviceMayReturn (vec uartCfg [0x7F] 0x100000FC [] [] []) 0x7F ∧
    (vec uartCfg [] 0x10000000 [] [] []).pc.toNat % 4 = 0 ∧ OwnedBy uartCfg 0x10000000 0 uart ∧
    (vec uartCfg [] 0x10000000 [] [] []).devIn = [] :=
  ⟨by decide, owned (by decide), fun _ _ h => by cases h; rfl, by decide, fun _ _ h => by cases h; rfl, by decide,
    owned (by decide), rfl⟩

theorem witness_StepFaultsAtFetchInOrder :
    (vec .default [] 0x80000002 [] [] []).pc.toNat % 4 ≠ 0 ∧ (vec .default [] 0x80000001 [] [] []).pc.toNat % 4 ≠ 0 ∧
    (Unowned denseCfg 0x80010000 ∧ ¬ Accessible denseCfg 0x80010000 4) ∧
    (Unowned denseCfg 0x8000FFFC ∧ Accessible denseCfg 0x8000FFFC 4 ∧
      decode false (memWord (vec denseCfg [] 0x8000FFFC [] [] []) 0x8000FFFC) = .error .unknownOpcode) ∧
    (Unowned .default 0xFFFFFFFC ∧ Accessible .default 0xFFFFFFFC 4 ∧
      decode false (memWord State.reset 0xFFFFFFFC) = .error .unknownOpcode) ∧
    (∃ t, fetch (vec uartCfg [0x7F] 0x100000FC [] [] []) = .ok (0x7F, t)) ∧
    decode uartCfg.strictReservedFields 0x7F = .error .unknownOpcode :=
  ⟨by decide, by decide, ⟨free (by decide), notAcc .word (by decide)⟩,
    ⟨free (by decide), acc .word (by decide), by decide⟩, ⟨free (by decide), acc .word (by decide), by decide⟩,
    ⟨_, rfl⟩, by decide⟩

theorem witness_SteppingCountsAndKeepsTheParameters : ∃ t, step (running 0xFFF30293) = .next t := ⟨_, rfl⟩

theorem witness_OnlyTheListedInstructionsCanStop :
    exec (.ecall 0 0) State.reset = .fault .ecallTermination ∧ exec (.ebreak 0 0) State.reset = .fault .unsupportedInstruction ∧
    exec (.lb 5 6 0) (baseAt uartCfg 0x10000000) = .fault .unsupportedInstruction ∧
    exec (.sh 6 7 0) (baseAt .default 0xFFFFFFFF) = .fault .memoryAccessError ∧
    exec (.lw 5 6 0) (baseAt .default 0xFFFFFFFD) = .fault .memoryAccessError ∧
    exec (.amoaddW 5 6 7 0 0) (baseAt denseCfg 0) = .fault .memoryAccessError :=
  ⟨rfl, rfl, rfl, rfl, rfl, rfl⟩

/-- One word for every clause, in the clauses' order. -/
theorem witness_FieldsAndImmediatesSitWhereTheFormatsSay :
    decode true 0x80028293#32 = .ok (.addi 5 5 (-2048)) ∧ decode true 0x01F31293#32 = .ok (.slli 5 6 31) ∧
    decode false 0xC2435293#32 = .ok (.srai 5 6 4 0b100001) ∧ decode true 0x407302B3#32 = .ok (.sub 5 6 7) ∧
    decode true 0xFE732E23#32 = .ok (.sw 6 7 (-4)) ∧ decode true 0x80000063#32 = .ok (.beq 0 0 (-4096)) ∧
    decode true 0xFFFFF297#32 = .ok (.auipc 5 0xFFFFF) ∧ decode true 0x800000EF#32 = .ok (.jal 1 (-1048576)) ∧
    decode true 0xF14312F3#32 = .ok (.csrrw 5 6 0xF14) ∧ decode true 0x340FD2F3#32 = .ok (.csrrwi 5 31 0x340) ∧
    decode true 0x067322AF#32 = .ok (.amoaddW 5 6 7 1 1) := by decide

theorem witness_DecodeOfEncodeIsTheInstruction :
    (Instr.beq 31 31 4094).wellFormed true = true ∧ (Instr.srai 5 6 31 0b111111).wellFormed false = true ∧
    (Instr.lrW 5 6 0 1 1).wellFormed true = true := by decide

theorem witness_EncodeOfDecodeIsTheWord :
    decode false 0xFE435293#32 = .ok (.srai 5 6 4 0b111111) ∧ decode true 0x7FFFF0EF#32 = .ok (.jal 1 1048574) := by
  decide

theorem witness_DecoderAcceptsExactlyTheTable :
    (⟨"LR.W", 0x1000202F#32, 0xF800707F#32, 0xF9F0707F#32⟩ ∈ opcodeTable ∧
      TableRow.fits ⟨"LR.W", 0x1000202F#32, 0xF800707F#32, 0xF9F0707F#32⟩ false 0x107322AF#32) ∧
    (∀ row ∈ opcodeTable, ¬ row.fits true 0x107322AF#32) ∧ (∀ row ∈ opcodeTable, ¬ row.fits false 0xFFFFFFFF#32) ∧
    (State.reset.cfg.strictReservedFields = false ∧ State.reset.pc.toNat % 4 = 0 ∧ Unowned .default State.reset.pc ∧
      Accessible .default State.reset.pc 4 ∧ memWord State.reset State.reset.pc = 0xFFFFFFFF#32) :=
  ⟨by decide, by decide, by decide, by decide, by decide, free (by decide), acc .word (by decide), by decide⟩

theorem witness_IllegalWordsAreTheNineItems :
    State.reset.cfg.strictReservedFields = false ∧ decode false 0x00200073#32 = .error .systemFunct ∧
    decode false 0x30320073#32 = .error .systemFunct ∧ decode false 0x001F8FF3#32 = .ok (.ebreak 31 31) := by decide

theorem witness_ImmediateShiftResults :
    (0x02031293#32 &&& 0x707F#32 = 0x1013#32 ∧ 0x02031293#32 &&& 0xFE000000#32 ≠ 0#32) ∧
    (0x80435293#32 &&& 0x4000707F#32 = 0x5013#32 ∧ 0x80435293#32 &&& 0xFE000000#32 ≠ 0#32) := by decide

theorem witness_LoadResults :
    (Unowned .default (loadAddr (baseAt .default 0xFFFFFFFE) 6 1) ∧
      Accessible .default (loadAddr (baseAt .default 0xFFFFFFFE) 6 1) 1 ∧
      Accessible .default (loadAddr (baseAt .default 0xFFFFFFFE) 6 0) 2 ∧
      Accessible .default (loadAddr (baseAt .default 0xFFFFFFFE) 6 (-2)) 4) ∧
    (Unowned denseCfg (loadAddr (baseAt denseCfg 0x80010000) 6 0) ∧
      ¬ Accessible denseCfg (loadAddr (baseAt denseCfg 0x80010000) 6 0) 1 ∧
      ¬ Accessible denseCfg (loadAddr (baseAt denseCfg 0x80010000) 6 (-1)) 2 ∧
      ¬ Accessible denseCfg (loadAddr (baseAt denseCfg 0x80010000) 6 (-3)) 4) ∧
    OwnedBy uartCfg (loadAddr (baseAt uartCfg 0x10000000) 6 255) 0 uart :=
  ⟨⟨free (by decide), acc .byte (by decide), acc .half (by decide), acc .word (by decide)⟩,
    ⟨free (by decide), notAcc .byte (by decide), notAcc .half (by decide), notAcc .word (by decide)⟩, owned (by decide)⟩

theorem witness_StoreResults :
    ((baseAt .default 0xFFFFFFFE).canonical = true ∧ Unowned .default (storeAddr (baseAt .default 0xFFFFFFFE) 6 1) ∧
      Accessible .default (storeAddr (baseAt .default 0xFFFFFFFE) 6 1) 1 ∧
      Accessible .default (storeAddr (baseAt .default 0xFFFFFFFE) 6 0) 2 ∧
      Accessible .default (storeAddr (baseAt .default 0xFFFFFFFE) 6 (-2)) 4) ∧
    ((baseAt denseCfg 0x80010000).canonical = true ∧ Unowned denseCfg (storeAddr (baseAt denseCfg 0x80010000) 6 0) ∧
      ¬ Accessible denseCfg (storeAddr (baseAt denseCfg 0x80010000) 6 0) 1 ∧
      ¬ Accessible denseCfg (storeAddr (baseAt denseCfg 0x80010000) 6 (-1)) 2 ∧
      ¬ Accessible denseCfg (storeAddr (baseAt denseCfg 0x80010000) 6 (-3)) 4) ∧
    ((baseAt uartCfg 0x10000000).canonical = true ∧ OwnedBy uartCfg (storeAddr (baseAt uartCfg 0x10000000) 6 255) 0 uart) :=
  ⟨⟨by decide, free (by decide), acc .byte (by decide), acc .half (by decide), acc .word (by decide)⟩,
    ⟨by decide, free (by decide), notAcc .byte (by decide), notAcc .half (by decide), notAcc .word (by decide)⟩,
    by decide, owned (by decide)⟩

theorem witness_JumpResults : 0x004310E7#32 &&& 0x7F#32 = 0x67#32 ∧ 0x004310E7#32 &&& 0x7000#32 ≠ 0#32 := by decide

theorem witness_EcallAndEbreakStop :
    step (running 0x73) = .fault .ecallTermination ∧ step (running 0x00100073) = .fault .unsupportedInstruction :=
  ⟨rfl, rfl⟩

theorem witness_MretAndFencesOnlyAdvance :
    0x8330000F#32 &&& 0x707F#32 = 0x0F#32 ∧ 0x0000100F#32 &&& 0x707F#32 = 0x100F#32 := by decide

theorem witness_CsrInstructionResults :
    (vec .default [] 0x80000000 [] [(0xFFF, 5), (0, 1)] []).canonical = true := by decide

theorem witness_OnlyCsrInstructionsTouchCsrs :
    (baseAt .default 5).canonical = true ∧
    (∃ t, exec (.csrrw 0 6 0xFFF) (baseAt .default 5) = .next t ∧ readCsr t 0xFFF ≠ readCsr (baseAt .default 5) 0xFFF) ∧
    (Instr.mret 0 0).mnemonic ∉ ["CSRRW", "CSRRS", "CSRRC", "CSRRWI", "CSRRSI", "CSRRCI"] ∧
    (∃ t, exec (.mret 0 0) (baseAt .default 5) = .next t) ∧
    (Instr.ecall 0 0).mnemonic ∉ ["CSRRW", "CSRRS", "CSRRC", "CSRRWI", "CSRRSI", "CSRRCI"] ∧
    exec (.ecall 0 0) (baseAt .default 5) = .fault .ecallTermination :=
  ⟨by decide, ⟨_, rfl, by decide⟩, by decide, ⟨_, rfl⟩, by decide, rfl⟩

/-- The atomics' address: at the top of memory, outside a dense store, at a device. -/
theorem witness_LoadReservedAndStoreConditional :
    ((baseAt .default 0xFFFFFFFC).canonical = true ∧ Unowned .default (atomicAddr (baseAt .default 0xFFFFFFFC) 6) ∧
      Accessible .default (atomicAddr (baseAt .default 0xFFFFFFFC) 6) 4) ∧
    ((baseAt denseCfg 0x8000FFFD).canonical = true ∧ Unowned denseCfg (atomicAddr (baseAt denseCfg 0x8000FFFD) 6) ∧
      ¬ Accessible denseCfg (atomicAddr (baseAt denseCfg 0x8000FFFD) 6) 4) ∧
    ((baseAt uartCfg 0x100000FF).canonical = true ∧ OwnedBy uartCfg (atomicAddr (baseAt uartCfg 0x100000FF) 6) 0 uart) :=
  ⟨⟨by decide, free (by decide), acc .word (by decide)⟩, ⟨by decide, free (by decide), notAcc .word (by decide)⟩,
    by decide, owned (by decide)⟩

theorem witness_AtomicLogicResults :
    ((baseAt denseCfg 0x8000FFFC).canonical = true ∧ Unowned denseCfg (atomicAddr (baseAt denseCfg 0x8000FFFC) 6) ∧
      Accessible denseCfg (atomicAddr (baseAt denseCfg 0x8000FFFC) 6) 4) ∧
    ((baseAt strictCfg 0x80001002).canonical = true ∧ Unowned strictCfg (atomicAddr (baseAt strictCfg 0x80001002) 6) ∧
      ¬ Accessible strictCfg (atomicAddr (baseAt strictCfg 0x80001002) 6) 4) ∧
    ((baseAt uartCfg 0x10000000).canonical = true ∧ OwnedBy uartCfg (atomicAddr (baseAt uartCfg 0x10000000) 6) 0 uart) :=
  ⟨⟨by decide, free (by decide), acc .word (by decide)⟩, ⟨by decide, free (by decide), notAcc .word (by decide)⟩,
    by decide, owned (by decide)⟩

theorem witness_AtomicMinMaxResults :
    ((baseAt strictCfg 0x80001004).canonical = true ∧ Unowned strictCfg (atomicAddr (baseAt strictCfg 0x80001004) 6) ∧
      Accessible strictCfg (atomicAddr (baseAt strictCfg 0x80001004) 6) 4) ∧
    ((baseAt .default 0xFFFFFFFD).canonical = true ∧ Unowned .default (atomicAddr (baseAt .default 0xFFFFFFFD) 6) ∧
      ¬ Accessible .default (atomicAddr (baseAt .default 0xFFFFFFFD) 6) 4) ∧
    ((baseAt overlapCfg 0x100000F0).canonical = true ∧
      OwnedBy overlapCfg (atomicAddr (baseAt overlapCfg 0x100000F0) 6) 0 uart) :=
  ⟨⟨by decide, free (by decide), acc .word (by decide)⟩, ⟨by decide, free (by decide), notAcc .word (by decide)⟩,
    by decide, owned (by decide)⟩

theorem witness_AcquireReleaseBitsHaveNoEffect :
    0x007322AF#32 &&& 0x7F#32 = 0x2F#32 ∧ 0x007322AF#32 &&& 0xF9FFFFFF#32 = 0x067322AF#32 &&& 0xF9FFFFFF#32 := by decide

theorem witness_UncheckedFieldsHaveNoEffect :
    (baseAt reservedCfg 0).cfg.strictReservedFields = true ∧ (Instr.srai 5 6 4 1).reservedZero = false ∧
    (Instr.lrW 5 6 7 0 0).reservedZero = false ∧ (Instr.mret 1 0).reservedZero = false ∧
    State.reset.cfg.strictReservedFields = false := by decide

theorem witness_InstructionsWriteOnlyTheirDestination :
    (∃ t, exec (.addi 5 6 (-1)) State.reset = .next t ∧ readReg t 5 ≠ readReg State.reset 5) ∧
    (∃ t, exec (.sw 6 7 0) (baseAt .default 0x80001000) = .next t ∧ t.mem ≠ (baseAt .default 0x80001000).mem) :=
  ⟨⟨_, rfl, by decide⟩, ⟨_, rfl, by decide⟩⟩

theorem witness_OnlyTransfersLeaveTheSequence :
    (∃ t, exec (.jal 0 (-8)) State.reset = .next t) ∧ (∃ t, exec (.bne 6 0 (-4096)) (baseAt .default 5) = .next t) :=
  ⟨⟨_, rfl⟩, ⟨_, rfl⟩⟩

theorem witness_StoppedStepChangedNothing :
    (vec .default [] 0x80000002 [] [] []).pc.toNat % 4 ≠ 0 ∧ Unowned uartCfg 0x10000100 ∧
    ((vec uartCfg [7] 0x100000FC [] [] []).pc.toNat % 4 = 0 ∧ OwnedBy uartCfg 0x100000FC 0 uart) :=
  ⟨by decide, free (by decide), by decide, owned (by decide)⟩

theorem witness_EveryStepKeepsTheStateCanonical :
    (running 0x00732023).canonical = true ∧ ∃ t, step (running 0x00732023) = .next t := ⟨by decide, _, rfl⟩

theorem witness_ResetAndBootStatesAreCanonical :
    ∃ s, boot .default 0 [(0xFFFFFFFE, [0xFF, 1])] [] = .ok s := ⟨_, rfl⟩

theorem witness_EveryStepKeepsPcEven :
    (running 0x00000163).pcEven = true ∧ ∃ t, step (running 0x00000163) = .next t := ⟨by decide, _, rfl⟩

theorem witness_ResetPcIsEven :
    (∃ s, boot .default 0x1002 [] [] = .ok s) ∧ (0x1002#32).toNat % 2 = 0 := ⟨⟨_, rfl⟩, by decide⟩

/-- A branch, a JAL and a JALR to a target that is 2 modulo 4; a branch to one that is not taken; a JALR to memory that was never written; a JALR out of a
dense store. -/
theorem witness_MisalignedTargetFaultsAtTheNextFetch :
    (∃ t, exec (.beq 0 0 2) State.reset = .next t ∧ t.pc.toNat % 4 ≠ 0) ∧
    (∃ t, exec (.bne 0 0 2) State.reset = .next t ∧ t.pc = State.reset.pc + 4 ∧ State.reset.pc.toNat % 4 = 0) ∧
    (∃ t, exec (.jal 1 1048574) State.reset = .next t ∧ t.pc.toNat % 4 ≠ 0) ∧
    (∃ t, exec (.jalr 1 6 0x13) (baseAt .default 0x80000000) = .next t ∧ t.pc.toNat % 4 ≠ 0) ∧
    (∃ t, exec (.jalr 1 6 0) (baseAt .default 0xFFFFFFFC) = .next t ∧ t.pc.toNat % 4 = 0 ∧ Unowned t.cfg t.pc ∧
      t.cfg.memBacking = .sparse ∧ ∀ k < 4, readByte t (t.pc.toNat + k) = 0xFF#8) ∧
    (∃ t, exec (.jalr 1 6 0) (baseAt denseCfg 0x80010000) = .next t ∧ t.pc.toNat % 4 = 0 ∧ Unowned t.cfg t.pc ∧
      ¬ Accessible t.cfg t.pc 4) :=
  ⟨⟨_, rfl, by decide⟩, ⟨_, rfl, by decide, by decide⟩, ⟨_, rfl, by decide⟩, ⟨_, rfl, by decide⟩,
    ⟨_, rfl, by decide, free (by decide), by decide, by decide⟩,
    ⟨_, rfl, by decide, free (by decide), notAcc .word (by decide)⟩⟩

theorem witness_StoredInstructionIsFetchedNext :
    (baseAt .default 0x80000000).canonical = true ∧
    storeAddr (baseAt .default 0x80000000) 6 4 = (baseAt .default 0x80000000).pc + 4 ∧
    (baseAt .default 0x80000000).pc.toNat % 4 = 0 ∧ Unowned .default 0x80000004 ∧ Accessible .default 0x80000004 4 :=
  ⟨by decide, by decide, by decide, free (by decide), acc .word (by decide)⟩

theorem witness_LimitOnlyCutsTheUnlimitedRun :
    (runLimited 1 (running 0x73)).stop ≠ .stopLimit ∧
    RunsTo (running 0x73) ⟨.stopEcall, { running 0x73 with count := 1 }⟩ :=
  ⟨by decide, 1, by decide⟩

theorem witness_ClassificationOfTheFinalRegisters :
    readReg (setRegs State.reset [(17, 93), (3, 1), (10, 0)]) 17 = 93 ∧
    readReg (setRegs State.reset [(17, 93), (3, 0), (10, 5)]) 3 ≠ 1 ∧
    readReg (setRegs State.reset [(17, 93), (3, 1), (10, 5)]) 10 ≠ 0 ∧
    readReg (setRegs State.reset [(17, 94), (3, 1), (10, 0)]) 17 ≠ 93 := by decide

end Sys2Proof.Machine
end

section
/-! PROOFS. Each instruction as one shared operation applied to operands, and what an operation that continues has done.
Every claim about "all instructions" is then a split over twelve operations. -/

namespace Sys2Proof.Machine

/-! ## The shared operations as data -/

/-- The operation an instruction calls, with its operands already read from the registers and `pc`. -/
inductive Operation where
  | reg (rd : RegIdx) (v : Word)
  | load (w : Width) (extend : Word → Word) (rd : RegIdx) (addr : Word)
  | store (w : Width) (addr v : Word)
  | branch (taken : Bool) (offset : BitVec 13)
  | jump (rd : RegIdx) (target : Word)
  | stop (f : Fault)
  | nop
  | csrWrite (rd : RegIdx) (csr : CsrIdx) (v : Word)
  | csrSet (rd : RegIdx) (csr : CsrIdx) (m : Word)
  | csrClear (rd : RegIdx) (csr : CsrIdx) (m : Word)
  | storeCond (rd rs1 rs2 : RegIdx)
  | amo (combine : Word → Word → Word) (rd rs1 rs2 : RegIdx)

/-- What the machine does for an operation: the model's own shared operation. -/
def Operation.run : Operation → State → Result
  | .reg rd v, s => finishReg s rd v
  | .load w extend rd addr, s => loadOp w extend rd addr s
  | .store w addr v, s => storeOp w addr v s
  | .branch taken offset, s => branchOp taken offset s
  | .jump rd target, s => jumpOp rd target s
  | .stop f, _ => raise f
  | .nop, s => finish s
  | .csrWrite rd csr v, s => csrWriteOp rd csr v s
  | .csrSet rd csr m, s => csrSetOp rd csr m s
  | .csrClear rd csr m, s => csrClearOp rd csr m s
  | .storeCond rd rs1 rs2, s => execScW rd rs1 rs2 0 0 s
  | .amo combine rd rs1 rs2, s => amoOp combine rd rs1 rs2 s

/-- The operation of each instruction (the equations of Laws/Dispatch.lean, as data). -/
def operation (i : Instr) (s : State) : Operation :=
  match i with
  | .addi rd rs1 imm => .reg rd (readReg s rs1 + immI imm)
  | .slti rd rs1 imm => .reg rd (boolWord (ltSigned (readReg s rs1) (immI imm)))
  | .sltiu rd rs1 imm => .reg rd (boolWord (ltUnsigned (readReg s rs1) (immI imm)))
  | .xori rd rs1 imm => .reg rd (readReg s rs1 ^^^ immI imm)
  | .ori rd rs1 imm => .reg rd (readReg s rs1 ||| immI imm)
  | .andi rd rs1 imm => .reg rd (readReg s rs1 &&& immI imm)
  | .slli rd rs1 shamt => .reg rd (readReg s rs1 <<< shamt.toNat)
  | .srli rd rs1 shamt => .reg rd (readReg s rs1 >>> shamt.toNat)
  | .srai rd rs1 shamt _ => .reg rd ((readReg s rs1).sshiftRight shamt.toNat)
  | .add rd rs1 rs2 => .reg rd (readReg s rs1 + readReg s rs2)
  | .sub rd rs1 rs2 => .reg rd (readReg s rs1 - readReg s rs2)
  | .sll rd rs1 rs2 => .reg rd (readReg s rs1 <<< (shiftAmount (readReg s rs2)).toNat)
  | .slt rd rs1 rs2 => .reg rd (boolWord (ltSigned (readReg s rs1) (readReg s rs2)))
  | .sltu rd rs1 rs2 => .reg rd (boolWord (ltUnsigned (readReg s rs1) (readReg s rs2)))
  | .xor rd rs1 rs2 => .reg rd (readReg s rs1 ^^^ readReg s rs2)
  | .srl rd rs1 rs2 => .reg rd (readReg s rs1 >>> (shiftAmount (readReg s rs2)).toNat)
  | .sra rd rs1 rs2 => .reg rd ((readReg s rs1).sshiftRight (shiftAmount (readReg s rs2)).toNat)
  | .or rd rs1 rs2 => .reg rd (readReg s rs1 ||| readReg s rs2)
  | .and rd rs1 rs2 => .reg rd (readReg s rs1 &&& readReg s rs2)
  | .mul rd rs1 rs2 => .reg rd (BitVec.ofNat 32 ((readReg s rs1).toNat * (readReg s rs2).toNat))
  | .mulh rd rs1 rs2 => .reg rd (highWord ((readReg s rs1).toInt * (readReg s rs2).toInt))
  | .mulhsu rd rs1 rs2 => .reg rd (highWord ((readReg s rs1).toInt * ((readReg s rs2).toNat : Int)))
  | .mulhu rd rs1 rs2 => .reg rd (highWord (((readReg s rs1).toNat : Int) * ((readReg s rs2).toNat : Int)))
  | .div rd rs1 rs2 => .reg rd (divSigned (readReg s rs1) (readReg s rs2))
  | .divu rd rs1 rs2 => .reg rd (divUnsigned (readReg s rs1) (readReg s rs2))
  | .rem rd rs1 rs2 => .reg rd (remSigned (readReg s rs1) (readReg s rs2))
  | .remu rd rs1 rs2 => .reg rd (remUnsigned (readReg s rs1) (readReg s rs2))
  | .lb rd rs1 imm => .load .byte sext8 rd (loadAddr s rs1 imm)
  | .lh rd rs1 imm => .load .half sext16 rd (loadAddr s rs1 imm)
  | .lw rd rs1 imm => .load .word id rd (loadAddr s rs1 imm)
  | .lbu rd rs1 imm => .load .byte zext8 rd (loadAddr s rs1 imm)
  | .lhu rd rs1 imm => .load .half zext16 rd (loadAddr s rs1 imm)
  | .sb rs1 rs2 imm => .store .byte (storeAddr s rs1 imm) (readReg s rs2)
  | .sh rs1 rs2 imm => .store .half (storeAddr s rs1 imm) (readReg s rs2)
  | .sw rs1 rs2 imm => .store .word (storeAddr s rs1 imm) (readReg s rs2)
  | .beq rs1 rs2 offset => .branch (decide (readReg s rs1 = readReg s rs2)) offset
  | .bne rs1 rs2 offset => .branch (decide (readReg s rs1 ≠ readReg s rs2)) offset
  | .blt rs1 rs2 offset => .branch (ltSigned (readReg s rs1) (readReg s rs2)) offset
  | .bge rs1 rs2 offset => .branch (geSigned (readReg s rs1) (readReg s rs2)) offset
  | .bltu rs1 rs2 offset => .branch (ltUnsigned (readReg s rs1) (readReg s rs2)) offset
  | .bgeu rs1 rs2 offset => .branch (geUnsigned (readReg s rs1) (readReg s rs2)) offset
  | .lui rd imm => .reg rd (immU imm)
  | .auipc rd imm => .reg rd (s.pc + immU imm)
  | .jal rd offset => .jump rd (jalTarget s offset)
  | .jalr rd rs1 imm => .jump rd (jalrTarget s rs1 imm)
  | .ecall _ _ => .stop .ecallTermination
  | .ebreak _ _ => .stop .unsupportedInstruction
  | .mret _ _ => .nop
  | .csrrw rd rs1 csr => .csrWrite rd csr (readReg s rs1)
  | .csrrs rd rs1 csr => .csrSet rd csr (readReg s rs1)
  | .csrrc rd rs1 csr => .csrClear rd csr (readReg s rs1)
  | .csrrwi rd uimm csr => .csrWrite rd csr (uimm5 uimm)
  | .csrrsi rd uimm csr => .csrSet rd csr (uimm5 uimm)
  | .csrrci rd uimm csr => .csrClear rd csr (uimm5 uimm)
  | .lrW rd rs1 _ _ _ => .load .word id rd (atomicAddr s rs1)
  | .scW rd rs1 rs2 _ _ => .storeCond rd rs1 rs2
  | .amoswapW rd rs1 rs2 _ _ => .amo (fun _ v => v) rd rs1 rs2
  | .amoaddW rd rs1 rs2 _ _ => .amo (fun old v => old + v) rd rs1 rs2
  | .amoxorW rd rs1 rs2 _ _ => .amo (fun old v => old ^^^ v) rd rs1 rs2
  | .amoandW rd rs1 rs2 _ _ => .amo (fun old v => old &&& v) rd rs1 rs2
  | .amoorW rd rs1 rs2 _ _ => .amo (fun old v => old ||| v) rd rs1 rs2
  | .amominW rd rs1 rs2 _ _ => .amo minSignedWord rd rs1 rs2
  | .amomaxW rd rs1 rs2 _ _ => .amo maxSignedWord rd rs1 rs2
  | .amominuW rd rs1 rs2 _ _ => .amo minUnsignedWord rd rs1 rs2
  | .amomaxuW rd rs1 rs2 _ _ => .amo maxUnsignedWord rd rs1 rs2
  | .fence _ _ _ _ _ => .nop
  | .fenceI _ _ _ => .nop

/-- An instruction's meaning is its operation's. -/
theorem exec_eq_run (i : Instr) (s : State) : exec i s = (operation i s).run s := by
  cases i <;> rfl

/-! ## What an operation may change -/

/-- The register an operation writes; x0, which takes no write, where it has none. -/
def Operation.dest : Operation → RegIdx
  | .reg rd _ | .load _ _ rd _ | .jump rd _ | .csrWrite rd _ _ | .csrSet rd _ _ | .csrClear rd _ _
  | .storeCond rd _ _ | .amo _ rd _ _ => rd
  | .store .. | .branch .. | .stop _ | .nop => 0

/-- The CSR an operation may write. -/
def Operation.csr : Operation → Option CsrIdx
  | .csrWrite _ c _ | .csrSet _ c _ | .csrClear _ c _ => some c
  | .reg .. | .load .. | .store .. | .branch .. | .jump .. | .stop _ | .nop | .storeCond .. | .amo .. => none

/-- Whether an operation may write main memory. -/
def Operation.stores : Operation → Bool
  | .store .. | .storeCond .. | .amo .. => true
  | .reg .. | .load .. | .branch .. | .jump .. | .stop _ | .nop | .csrWrite .. | .csrSet .. | .csrClear .. => false

/-- The `pc` an operation that starts in `s` leaves. -/
def Operation.pcAfter (s : State) : Operation → Word
  | .branch taken offset => if taken then branchTarget s offset else nextPc s
  | .jump _ target => target
  | .reg .. | .load .. | .store .. | .stop _ | .nop | .csrWrite .. | .csrSet .. | .csrClear .. | .storeCond ..
  | .amo .. => nextPc s

/-- `s1` is `s` after the accesses of operation `o` to the CSR file, main memory and devices, before its register and
`pc` are written. -/
structure Operation.Accessed (o : Operation) (s s1 : State) : Prop where
  regs : s1.regs = s.regs
  pc : s1.pc = s.pc
  csrs : s1.csrs = s.csrs ∨ ∃ c v, o.csr = some c ∧ s1.csrs = (writeCsr s c v).csrs
  mem : o.stores = false → s1.mem = s.mem
  memWf : Memory.wf s.cfg s.mem = true → Memory.wf s1.cfg s1.mem = true
  count : s1.count = s.count
  cfg : s1.cfg = s.cfg

/-- An operation may access nothing. -/
theorem Operation.Accessed.refl (o : Operation) (s : State) : o.Accessed s s :=
  ⟨rfl, rfl, .inl rfl, fun _ => rfl, id, rfl, rfl⟩

/-- An operation may write the CSR it names. -/
theorem Operation.Accessed.writeCsr {o : Operation} {c : CsrIdx} (h : o.csr = some c) (s : State) (v : Word) :
    o.Accessed s (writeCsr s c v) :=
  ⟨rfl, rfl, .inr ⟨c, v, h, rfl⟩, fun _ => rfl, id, rfl, rfl⟩

/-- The end of an instruction with a register result, as a write of `pc`. -/
theorem advance_writeReg (s : State) (rd : RegIdx) (v : Word) :
    advance (writeReg s rd v) = setPc (writeReg s rd v) (s.pc + 4#32) := by
  rw [advance, nextPc, writeReg_pc]

/-- A write to x0 is discarded (R11). -/
theorem writeReg_zero (s : State) (v : Word) : writeReg s 0 v = s := rfl

/-- CSR set that continued: the CSR is written or left alone, then the register. -/
theorem csrSetOp_next {s t : State} {rd : RegIdx} {c : CsrIdx} {m : Word} (h : csrSetOp rd c m s = .next t) :
    ∃ s1, t = advance (writeReg s1 rd (readCsr s c)) ∧ (s1 = s ∨ ∃ v, s1 = writeCsr s c v) := by
  refine ⟨_, finishReg_next h, ?_⟩
  split
  · exact .inl rfl
  · exact .inr ⟨_, rfl⟩

/-- CSR clear that continued: the CSR is written or left alone, then the register. -/
theorem csrClearOp_next {s t : State} {rd : RegIdx} {c : CsrIdx} {m : Word} (h : csrClearOp rd c m s = .next t) :
    ∃ s1, t = advance (writeReg s1 rd (readCsr s c)) ∧ (s1 = s ∨ ∃ v, s1 = writeCsr s c v) := by
  refine ⟨_, finishReg_next h, ?_⟩
  split
  · exact .inl rfl
  · exact .inr ⟨_, rfl⟩

/-- Everything an operation that continues has done: its accesses, then its register, then `pc`. -/
theorem Operation.run_next {o : Operation} {s t : State} (h : o.run s = .next t) :
    ∃ s1 v, o.Accessed s s1 ∧ t = setPc (writeReg s1 o.dest v) (o.pcAfter s) := by
  cases o with
  | reg rd v => exact ⟨s, v, .refl _ s, by rw [finishReg_next h, advance_writeReg]; rfl⟩
  | load w f rd a =>
    obtain ⟨s1, v, rfl, regs, pc, csrs, mem, count, cfg⟩ := loadOp_next h
    exact ⟨s1, v, ⟨regs, pc, .inl csrs, fun _ => mem, by rw [mem, cfg]; exact id, count, cfg⟩,
      by rw [advance_writeReg, pc]; rfl⟩
  | store w a v =>
    obtain ⟨s1, rfl, regs, pc, csrs, count, cfg, memWf⟩ := storeOp_next h
    exact ⟨s1, 0, ⟨regs, pc, .inl csrs, nofun, memWf, count, cfg⟩, by rw [advance, nextPc, pc]; rfl⟩
  | branch taken offset => exact ⟨s, 0, .refl _ s, branchOp_next h⟩
  | jump rd target => exact ⟨s, _, .refl _ s, jumpOp_next h⟩
  | stop f => cases h
  | nop => exact ⟨s, 0, .refl _ s, finish_next h⟩
  | csrWrite rd c v =>
    exact ⟨_, _, .writeCsr rfl s v, by rw [csrWriteOp_next h, advance_writeReg]; rfl⟩
  | csrSet rd c m =>
    obtain ⟨s1, rfl, rfl | ⟨v, rfl⟩⟩ := csrSetOp_next h
    · exact ⟨s1, _, .refl _ _, advance_writeReg ..⟩
    · exact ⟨_, _, .writeCsr rfl s v, advance_writeReg ..⟩
  | csrClear rd c m =>
    obtain ⟨s1, rfl, rfl | ⟨v, rfl⟩⟩ := csrClearOp_next h
    · exact ⟨s1, _, .refl _ _, advance_writeReg ..⟩
    · exact ⟨_, _, .writeCsr rfl s v, advance_writeReg ..⟩
  | storeCond rd rs1 rs2 =>
    obtain ⟨s1, rfl, regs, pc, csrs, count, cfg, memWf⟩ := execScW_next (aq := 0) (rl := 0) h
    exact ⟨s1, _, ⟨regs, pc, .inl csrs, nofun, memWf, count, cfg⟩, by rw [advance_writeReg, pc]; rfl⟩
  | amo g rd rs1 rs2 =>
    obtain ⟨s1, v, rfl, regs, pc, csrs, count, cfg, memWf⟩ := amoOp_next h
    exact ⟨s1, v, ⟨regs, pc, .inl csrs, nofun, memWf, count, cfg⟩, by rw [advance_writeReg, pc]; rfl⟩

/-- Everything an instruction that continues has done. -/
theorem exec_next_cases {i : Instr} {s t : State} (h : exec i s = .next t) :
    ∃ s1 v, (operation i s).Accessed s s1 ∧
      t = setPc (writeReg s1 (operation i s).dest v) ((operation i s).pcAfter s) :=
  Operation.run_next (exec_eq_run i s ▸ h)

/-! ## Which operation an instruction has -/

/-- The register an instruction writes is its `rd` field. -/
theorem operation_dest {i : Instr} {s : State} (h : (operation i s).dest ≠ 0) :
    fieldRd (encode i) = (operation i s).dest ∧
      i.mnemonic ∉ ["SB", "SH", "SW", "BEQ", "BNE", "BLT", "BGE", "BLTU", "BGEU", "MRET", "FENCE", "FENCE.I"] := by
  cases i <;> simp_all [operation, Operation.dest, encode, Instr.mnemonic]

/-- The instructions that may write main memory. -/
theorem operation_stores_iff (i : Instr) (s : State) :
    (operation i s).stores = true ↔ i.mnemonic ∈ ["SB", "SH", "SW", "SC.W", "AMOSWAP.W", "AMOADD.W", "AMOXOR.W",
      "AMOAND.W", "AMOOR.W", "AMOMIN.W", "AMOMAX.W", "AMOMINU.W", "AMOMAXU.W"] := by
  cases i <;> simp [operation, Operation.stores, Instr.mnemonic]

/-- The instructions that may write a CSR, and which one. -/
theorem operation_csr {i : Instr} {s : State} {c : CsrIdx} (h : (operation i s).csr = some c) :
    (∃ rd rs1, i = .csrrw rd rs1 c ∨ i = .csrrs rd rs1 c ∨ i = .csrrc rd rs1 c) ∨
      (∃ rd u, i = .csrrwi rd u c ∨ i = .csrrsi rd u c ∨ i = .csrrci rd u c) := by
  cases i <;> simp_all [operation, Operation.csr]

end Sys2Proof.Machine
end

section
/-! PROOFS. The statements about the state: its registers, its canonical form, its counter and parameters, the parity of
`pc`, and which instructions write what. -/

namespace Sys2Proof.Machine

/-! ## Registers (R10, R11) -/

/-- Settles O2: the register file reads back what was written, x0 apart. -/
theorem registerWriteIsReadBack : Obligations.RegisterWriteIsReadBack := by
  intro s i j v
  refine ⟨?_, rfl, rfl, writeReg_pc s i v, writeReg_csrs s i v, writeReg_mem s i v, writeReg_count s i v,
    writeReg_cfg s i v, writeReg_devIn s i v, writeReg_devLog s i v, ?_⟩
  · rw [readReg_writeReg_cases]
    by_cases hj : j = i
    · subst hj
      by_cases h0 : j = 0
      · subst h0; rfl
      · rw [if_pos rfl, if_neg h0, if_pos ⟨rfl, h0⟩]
    · simp [hj]
  · simp [readReg, State.reset]

/-! ## Canonical form -/

/-- An instruction that continues keeps the canonical form. -/
theorem exec_keeps_canonical {i : Instr} {s t : State} (hs : s.canonical = true) (h : exec i s = .next t) :
    t.canonical = true := by
  simp only [State.canonical, Bool.and_eq_true] at hs ⊢
  obtain ⟨hmem, hcsrs⟩ := hs
  obtain ⟨s1, v, acc, rfl⟩ := exec_next_cases h
  refine ⟨by simpa using acc.memWf hmem, ?_⟩
  rw [setPc_csrs, writeReg_csrs]
  obtain e | ⟨c, u, -, e⟩ := acc.csrs <;> rw [e]
  · exact hcsrs
  · exact CsrFile.wf_sparseSet hcsrs c u

/-- Settles O45: the fetch leaves memory and CSRs alone, the instruction keeps their form, and the count is no part of
it. -/
theorem everyStepKeepsTheStateCanonical : Obligations.EveryStepKeepsTheStateCanonical := by
  intro s t hs h
  obtain ⟨w, s1, i, u, hf, -, hx, rfl⟩ := step_next_cases h
  obtain ⟨-, -, csrs, mem, -, cfg⟩ := fetch_frame hf
  have hs1 : s1.canonical = true := by rwa [State.canonical, csrs, mem, cfg]
  have hu : u.canonical = true := exec_keeps_canonical hs1 hx
  exact hu

/-! ## Count and parameters -/

/-- An instruction leaves the run controller's count and the parameters alone. -/
theorem exec_next_rest {i : Instr} {s t : State} (h : exec i s = .next t) : t.count = s.count ∧ t.cfg = s.cfg := by
  obtain ⟨s1, v, acc, rfl⟩ := exec_next_cases h
  simp [acc.count, acc.cfg]

/-- Settles O11: fetch and instruction keep both, and the step adds the one. -/
theorem steppingCountsAndKeepsTheParameters : Obligations.SteppingCountsAndKeepsTheParameters := by
  intro s t h
  obtain ⟨w, s1, i, u, hf, -, hx, rfl⟩ := step_next_cases h
  obtain ⟨-, -, -, -, hcount, hcfg⟩ := fetch_frame hf
  obtain ⟨hucount, hucfg⟩ := exec_next_rest hx
  exact ⟨by simp only [hucount, hcount], hucfg.trans hcfg⟩

/-! ## The parity of `pc` (R14, R188, R195) -/

theorem pcEven_iff (s : State) : s.pcEven = true ↔ s.pc[0] = false := by simp [State.pcEven]

/-- Bit 0 of a sum: no carry enters it. -/
theorem getElem_zero_add (x y : Word) : (x + y)[0] = (x[0] ^^ y[0]) := by simp [BitVec.getElem_add]

theorem immB_getElem_zero (o : BitVec 13) : (immB o)[0] = o[0] := by simp [immB, BitVec.getElem_signExtend]

theorem immJ_getElem_zero (o : BitVec 21) : (immJ o)[0] = o[0] := by simp [immJ, BitVec.getElem_signExtend]

theorem nextPc_even {s : State} (h : s.pc[0] = false) : (nextPc s)[0] = false := by
  rw [nextPc, getElem_zero_add, h]; rfl

theorem branchTarget_even {s : State} {o : BitVec 13} (h : s.pc[0] = false) (ho : o[0] = false) :
    (branchTarget s o)[0] = false := by
  rw [branchTarget, getElem_zero_add, immB_getElem_zero, h, ho]; rfl

theorem jalTarget_even {s : State} {o : BitVec 21} (h : s.pc[0] = false) (ho : o[0] = false) :
    (jalTarget s o)[0] = false := by
  rw [jalTarget, getElem_zero_add, immJ_getElem_zero, h, ho]; rfl

/-- JALR clears bit 0 of its target (R193). -/
theorem jalrTarget_even (s : State) (rs1 : RegIdx) (imm : BitVec 12) : (jalrTarget s rs1 imm)[0] = false := by
  simp [jalrTarget]

/-- A branch leaves an even `pc`, taken or not. -/
theorem pcAfter_branch_even {s : State} {o : BitVec 13} (taken : Bool) (h : s.pc[0] = false)
    (ho : (!o.getLsbD 0) = true) : (Operation.pcAfter s (.branch taken o))[0] = false := by
  cases taken with
  | false => exact nextPc_even h
  | true => exact branchTarget_even h (by simpa using ho)

/-- From an even `pc`, an instruction with an even offset leaves an even one. -/
theorem pcAfter_even {i : Instr} {s : State} (h : s.pc[0] = false) (hi : i.offsetEven = true) :
    ((operation i s).pcAfter s)[0] = false := by
  cases i
  case beq | bne | blt | bge | bltu | bgeu => exact pcAfter_branch_even _ h hi
  case jal => exact jalTarget_even h (by simpa [Instr.offsetEven] using hi)
  case jalr => exact jalrTarget_even s _ _
  all_goals exact nextPc_even h

/-! ### The decoder answers even offsets only (R67, R69) -/

theorem fieldImmB_even (w : Word) : (fieldImmB w)[0] = false := by
  rw [fieldImmB, ← BitVec.getLsbD_eq_getElem, BitVec.getLsbD_append]; rfl

theorem fieldImmJ_even (w : Word) : (fieldImmJ w)[0] = false := by
  rw [fieldImmJ, ← BitVec.getLsbD_eq_getElem, BitVec.getLsbD_append]; rfl

/-- Along every path of the decoder: the branches' and JAL's offsets end in the 0 that their formats append. -/
theorem decodeFields_offsetEven {w : Word} {i : Instr} (h : decodeFields w = .ok i) : i.offsetEven = true := by
  simp only [decodeFields, decodeOpImm, decodeOp, decodeLoad, decodeStore, decodeBranch, decodeJalr, decodeSystem,
    decodeAtomic, decodeMiscMem] at h
  repeat' split at h
  all_goals cases h
  all_goals simp [Instr.offsetEven, fieldImmB_even, fieldImmJ_even]

/-- What the decoder answers has an even offset, under either setting of the reserved fields. -/
theorem decode_offsetEven {strict : Bool} {w : Word} {i : Instr} (h : decode strict w = .ok i) :
    i.offsetEven = true := by
  unfold decode at h
  split at h
  · next j hj =>
    split at h <;> cases h
    exact decodeFields_offsetEven hj
  · cases h

/-- Settles O47: the fetch keeps `pc`, the decoded instruction has an even offset, and from an even `pc` it leaves an
even one. -/
theorem everyStepKeepsPcEven : Obligations.EveryStepKeepsPcEven := by
  intro s t hs h
  obtain ⟨w, s1, i, u, hf, hd, hx, rfl⟩ := step_next_cases h
  obtain ⟨-, hpc, -⟩ := fetch_frame hf
  obtain ⟨s2, v, -, rfl⟩ := exec_next_cases hx
  rw [pcEven_iff] at hs ⊢
  exact pcAfter_even (by rwa [hpc]) (decode_offsetEven (decodeFetched_ok.1 hd))

/-- Settles O48: the reset address is a constant, and `boot` takes the entry point as it is. -/
theorem resetPcIsEven : Obligations.ResetPcIsEven := by
  refine ⟨by decide, fun c entry segs inputs s h he => ?_⟩
  obtain ⟨-, m, -, rfl⟩ := boot_ok h
  rw [pcEven_iff]
  simpa [BitVec.getElem_eq_testBit_toNat] using he

/-! ## What an instruction writes (R10, R11, R46, R15, R18) -/

/-- Settles O42: a register that reads differently is the operation's destination, and memory differs only where the
operation stores. -/
theorem instructionsWriteOnlyTheirDestination : Obligations.InstructionsWriteOnlyTheirDestination := by
  intro s i t h
  obtain ⟨s1, v, acc, rfl⟩ := exec_next_cases h
  refine ⟨fun r hr => ?_, fun hm => ?_⟩
  · rw [readReg_setPc, readReg_writeReg_cases, readReg_congr acc.regs] at hr
    have hd : r = (operation i s).dest := by
      by_contra hd
      exact hr (if_neg hd)
    have h0 : r ≠ 0 := by
      rintro rfl
      exact hr (by rw [if_pos hd, if_pos hd.symm]; rfl)
    obtain ⟨hrd, hmn⟩ := operation_dest (hd ▸ h0)
    exact ⟨h0, hrd.trans hd.symm, hmn⟩
  · rw [← operation_stores_iff i s]
    by_contra hs
    exact hm (by simpa using acc.mem (by simpa using hs))

/-- A CSR that an instruction has changed is the one its operation names. -/
theorem operation_csr_of_changed {i : Instr} {s t : State} {c : CsrIdx} (hs : CsrFile.wf s.csrs = true)
    (h : exec i s = .next t) (hc : readCsr t c ≠ readCsr s c) : (operation i s).csr = some c := by
  obtain ⟨s1, v, acc, rfl⟩ := exec_next_cases h
  rw [readCsr_setPc, readCsr_writeReg] at hc
  obtain e | ⟨d, u, hd, e⟩ := acc.csrs
  · exact absurd (readCsr_congr e c) hc
  · rw [readCsr_congr e, readCsr_writeCsr hs] at hc
    have hcd : c = d := by
      by_contra hcd
      exact hc (if_neg hcd)
    rw [hd, hcd]

/-! ### Instructions that do not see the CSR file -/

/-- An outcome with the CSR file of its next state replaced. -/
def withCsrs (f : CsrFile) : Result → Result
  | .next t => .next { t with csrs := f }
  | .fault e => .fault e
  | .refused r => .refused r

@[simp] theorem readReg_csrs (s : State) (f : CsrFile) (r : RegIdx) :
    readReg { s with csrs := f } r = readReg s r := rfl

theorem finishReg_withCsrs (s : State) (rd : RegIdx) (v : Word) (f : CsrFile) :
    finishReg { s with csrs := f } rd v = withCsrs f (finishReg s rd v) := by
  simp only [finishReg, withCsrs]
  unfold writeReg
  split <;> rfl

theorem jumpOp_withCsrs (s : State) (rd : RegIdx) (target : Word) (f : CsrFile) :
    jumpOp rd target { s with csrs := f } = withCsrs f (jumpOp rd target s) := by
  simp only [jumpOp, withCsrs]
  unfold writeReg
  split <;> rfl

theorem busRead_withCsrs (s : State) (a : Word) (w : Width) (f : CsrFile) :
    busRead { s with csrs := f } a w = (busRead s a w).map fun r => (r.1, { r.2 with csrs := f }) := by
  have hLE : readLE { s with csrs := f } a.toNat w.size = readLE s a.toNat w.size :=
    readLE_congr (s := s) (t := { s with csrs := f }) rfl rfl _ _
  rcases busRead_cases s a w with ⟨hu, ha, e⟩ | ⟨hu, ha, e⟩ | ⟨k, p, ho, ⟨rfl, e⟩ | ⟨hw, e⟩⟩ <;> rw [e]
  · rw [busRead_memory (s := { s with csrs := f }) hu ha, hLE]; rfl
  · exact busRead_memory_fault hu ha
  · exact busRead_device ho
  · exact busRead_device_narrow ho hw

theorem busWrite_withCsrs (s : State) (a : Word) (w : Width) (v : Word) (f : CsrFile) :
    busWrite { s with csrs := f } a w v = (busWrite s a w v).map fun r => { r with csrs := f } := by
  rcases busWrite_cases s a w v with ⟨hu, ha, e⟩ | ⟨hu, ha, e⟩ | ⟨k, p, ho, ⟨rfl, e⟩ | ⟨hw, e⟩⟩ <;> rw [e]
  · exact busWrite_memory v hu ha
  · exact busWrite_memory_fault v hu ha
  · exact busWrite_device v ho
  · exact busWrite_device_narrow v ho hw

theorem loadOp_withCsrs (w : Width) (g : Word → Word) (rd : RegIdx) (a : Word) (s : State) (f : CsrFile) :
    loadOp w g rd a { s with csrs := f } = withCsrs f (loadOp w g rd a s) := by
  rw [loadOp, loadOp, busRead_withCsrs]
  rcases busRead s a w with e | ⟨v, s1⟩
  · rfl
  · exact finishReg_withCsrs s1 rd _ f

theorem storeOp_withCsrs (w : Width) (a v : Word) (s : State) (f : CsrFile) :
    storeOp w a v { s with csrs := f } = withCsrs f (storeOp w a v s) := by
  rw [storeOp, storeOp, busWrite_withCsrs]
  rcases busWrite s a w v with e | s1 <;> rfl

theorem execScW_withCsrs (rd rs1 rs2 : RegIdx) (aq rl : BitVec 1) (s : State) (f : CsrFile) :
    execScW rd rs1 rs2 aq rl { s with csrs := f } = withCsrs f (execScW rd rs1 rs2 aq rl s) := by
  simp only [execScW, atomicAddr, readReg_csrs, busWrite_withCsrs]
  rcases busWrite s (readReg s rs1) .word (readReg s rs2) with e | s1
  · rfl
  · exact finishReg_withCsrs s1 rd _ f

theorem amoOp_withCsrs (g : Word → Word → Word) (rd rs1 rs2 : RegIdx) (s : State) (f : CsrFile) :
    amoOp g rd rs1 rs2 { s with csrs := f } = withCsrs f (amoOp g rd rs1 rs2 s) := by
  simp only [amoOp, atomicAddr, readReg_csrs, busRead_withCsrs]
  rcases busRead s (readReg s rs1) .word with e | ⟨v, s1⟩
  · rfl
  · simp only [Except.map, busWrite_withCsrs]
    rcases busWrite s1 (readReg s rs1) .word (g v (readReg s rs2)) with e | s2
    · rfl
    · exact finishReg_withCsrs s2 rd _ f

/-- An operation that names no CSR runs the same whatever the CSR file holds, and leaves the file as it is. -/
theorem Operation.run_withCsrs {o : Operation} (h : o.csr = none) (s : State) (f : CsrFile) :
    o.run { s with csrs := f } = withCsrs f (o.run s) := by
  cases o with
  | reg rd v => exact finishReg_withCsrs s rd v f
  | load w g rd a => exact loadOp_withCsrs w g rd a s f
  | store w a v => exact storeOp_withCsrs w a v s f
  | jump rd target => exact jumpOp_withCsrs s rd target f
  | storeCond rd rs1 rs2 => exact execScW_withCsrs rd rs1 rs2 0 0 s f
  | amo g rd rs1 rs2 => exact amoOp_withCsrs g rd rs1 rs2 s f
  | branch | stop | nop => rfl
  | csrWrite | csrSet | csrClear => cases h

/-- No instruction reads the CSR file for its operands. -/
theorem operation_withCsrs (i : Instr) (s : State) (f : CsrFile) : operation i { s with csrs := f } = operation i s := by
  cases i <;> rfl

/-- An instruction whose operation names no CSR does the same whatever the CSR file holds. -/
theorem exec_withCsrs {i : Instr} {s : State} (h : (operation i s).csr = none) (f : CsrFile) :
    exec i { s with csrs := f } = withCsrs f (exec i s) := by
  rw [exec_eq_run, operation_withCsrs, Operation.run_withCsrs h, exec_eq_run]

/-- An instruction that is none of the six names no CSR. -/
theorem operation_csr_none {i : Instr} (s : State)
    (h : i.mnemonic ∉ ["CSRRW", "CSRRS", "CSRRC", "CSRRWI", "CSRRSI", "CSRRCI"]) : (operation i s).csr = none := by
  rcases hc : (operation i s).csr with _ | c
  · rfl
  · obtain ⟨_, _, rfl | rfl | rfl⟩ | ⟨_, _, rfl | rfl | rfl⟩ := operation_csr hc <;> simp [Instr.mnemonic] at h

/-- Settles O36: a changed CSR is the one the operation names, and only the six instructions name one. -/
theorem onlyCsrInstructionsTouchCsrs : Obligations.OnlyCsrInstructionsTouchCsrs := by
  intro s i hs
  simp only [State.canonical, Bool.and_eq_true] at hs
  obtain ⟨-, hcsrs⟩ := hs
  refine ⟨fun t c h hc => operation_csr (operation_csr_of_changed hcsrs h hc), fun hi f => ?_⟩
  have hx := exec_withCsrs (operation_csr_none s hi) f
  exact ⟨fun t h => by rw [hx, h]; rfl, fun e h => by rw [hx, h]; rfl⟩

end Sys2Proof.Machine
end

section
/-! PROOFS. The statements about main memory, its devices and its loader: who owns an address, where an access goes,
what a write leaves, which platforms boot, and that a stored instruction is fetched. -/

namespace Sys2Proof.Machine

/-! ## Ownership (R40) -/

/-- Every address is main memory's or some entry's. -/
theorem unowned_or_ownedBy (c : Config) (a : Word) : Unowned c a ∨ ∃ k p, OwnedBy c a k p := by
  rcases h : owner c a with _ | ⟨k, p⟩
  · exact .inl ((owner_none c a).1 h)
  · exact .inr ⟨k, p, (owner_some c a k p).1 h⟩

/-- The owner's own range contains the address, so the address is not main memory's. -/
theorem OwnedBy.not_unowned {c : Config} {a : Word} {k : Nat} {p : Peripheral} (h : OwnedBy c a k p) :
    ¬ Unowned c a := by
  obtain ⟨hk, hin, -⟩ := h
  exact fun hu => hu p (List.mem_of_getElem? hk) hin

/-- An address has one owner: both are what `owner` answers. -/
theorem OwnedBy.unique {c : Config} {a : Word} {k j : Nat} {p q : Peripheral} (hp : OwnedBy c a k p)
    (hq : OwnedBy c a j q) : k = j ∧ p = q := by
  have h : some (k, p) = some (j, q) := ((owner_some c a k p).2 hp).symm.trans ((owner_some c a j q).2 hq)
  cases h
  exact ⟨rfl, rfl⟩

/-- A range that contains an address is not empty. -/
theorem InRange.size_pos {p : Peripheral} {a : Word} (h : InRange p a) : 0 < p.size := by
  obtain ⟨hlo, hhi⟩ := h
  omega

/-- Settles O7: `owner` answers as the two words of the statement say, and these exclude each other. -/
theorem everyAddressHasOneOwnerOrNone : Obligations.EveryAddressHasOneOwnerOrNone := by
  intro c a
  refine ⟨owner_none c a, owner_some c a, unowned_or_ownedBy c a, fun k p h => h.not_unowned,
    fun k p j q hp hq => hp.unique hq, fun k p hsize h => ?_⟩
  obtain ⟨-, hin, -⟩ := (owner_some c a k p).1 h
  exact absurd hsize hin.size_pos.ne'

/-! ## The bus multiplexer (R42 to R44) -/

/-- A read of an address no device owns is main memory's, and leaves the state. -/
theorem busRead_unowned {s : State} {a : Word} (hu : Unowned s.cfg a) (w : Width) :
    busRead s a w = (memRead s a w).map (·, s) := by
  rw [busRead, (owner_none _ _).2 hu]
  rcases memRead s a w with f | u <;> rfl

/-- A write of an address no device owns is main memory's. -/
theorem busWrite_unowned {s : State} {a : Word} (hu : Unowned s.cfg a) (w : Width) (v : Word) :
    busWrite s a w v = memWrite s a w v := by
  rw [busWrite, (owner_none _ _).2 hu]

/-- The peripheral port after one read. -/
theorem portTook_afterDevRead (s : State) (k : Nat) (off : Word) :
    PortTook s (afterDevRead s k off) [.read k off (deviceWord s k off)] 1 :=
  ⟨rfl, List.drop_one.symm⟩

/-- The peripheral port after one write. -/
theorem portTook_devWrite (s : State) (k : Nat) (off v : Word) :
    PortTook s (devWrite s k off v) [.write k off v] 0 := ⟨rfl, rfl⟩

/-- Settles O6: the two answers of `owner`, and for an owned address the word and the narrow accesses. -/
theorem busRoutesByTheFirstByte : Obligations.BusRoutesByTheFirstByte := by
  intro s a v
  refine ⟨fun hu w => ⟨?_, busWrite_unowned hu w v⟩, fun k p ho => ⟨?_, ?_, fun w hw => ?_⟩⟩
  · rw [busRead_unowned hu w]
    rcases memRead s a w with f | u <;> rfl
  · exact ⟨_, _, busRead_device ho, deviceMayReturn_deviceWord s k _, portTook_afterDevRead s k _, rfl, rfl, rfl, rfl,
      rfl, rfl⟩
  · exact ⟨_, busWrite_device v ho, portTook_devWrite s k _ v, rfl, rfl, rfl, rfl, rfl, rfl⟩
  · have hne : w ≠ .word := by rcases hw with rfl | rfl <;> decide
    exact ⟨busRead_device_narrow ho hne, busWrite_device_narrow v ho hne⟩

/-! ## Main memory (R33, R34) -/

theorem Width.size_le_four (w : Width) : w.size ≤ 4 := by cases w <;> decide

/-- A read that succeeds gives the number its bytes spell. -/
theorem memRead_eq_littleEndian {s : State} {a : Word} {w : Width} (h : Accessible s.cfg a w.size) :
    memRead s a w = .ok (BitVec.ofNat 32 (littleEndian s a.toNat w.size)) := by
  rw [memRead_of_accessible h, readLE_eq_ofNat s _ w.size_le_four]

/-- Where the `n` bytes of `v` stand, a read of that width gives the low bits of `v`. -/
theorem memRead_of_writesBytes {s t : State} {a v : Word} {w : Width} (ha : Accessible t.cfg a w.size)
    (h : WritesBytes s t a w.size v) : memRead t a w = .ok (BitVec.ofNat 32 (v.toNat % 2 ^ (8 * w.size))) := by
  have hv := littleEndian_of_writesBytes h 0 w.size (Nat.zero_add _) w.size_le_four
  rw [Nat.add_zero, Nat.mul_zero, pow_zero, Nat.div_one] at hv
  rw [memRead_eq_littleEndian ha, hv]

/-- Settles O5: what a write leaves at its bytes, read back at the same width. -/
theorem memoryWriteIsReadBack : Obligations.MemoryWriteIsReadBack := by
  intro s addr v w hs
  simp only [State.canonical, Bool.and_eq_true] at hs
  obtain ⟨hmem, -⟩ := hs
  refine ⟨fun ha => ⟨memRead_eq_littleEndian ha, _, memWrite_of_accessible v ha, ?_⟩,
    fun ha => ⟨memRead_of_not_accessible ha, memWrite_of_not_accessible v ha⟩⟩
  have hw := writesBytes_memWrite hmem v ha
  exact ⟨hw, memRead_of_writesBytes ha hw, rfl, rfl, rfl, ⟨rfl, rfl⟩, rfl, rfl⟩

/-! ## The loader (R39, R282) -/

/-- The bytes of a segment lie in the backing exactly when, on the dense one, each lies in the store. -/
theorem forall_inBacking_iff (c : Config) (a n : Nat) :
    (∀ k < n, inBacking c (a + k) 1 = true) ↔
      ∀ size, c.memBacking = .dense size → ∀ k < n, 0x80000000 ≤ a + k ∧ a + k < 0x80000000 + size := by
  simp only [inBacking_iff, Nat.add_one_le_iff]
  exact ⟨fun h size hs k hk => h k hk size hs, fun h k hk size hs => h size hs k hk⟩

/-- `boot` answers a state exactly when the parameters are legal and the loader takes the segments. -/
theorem exists_boot_ok_iff (c : Config) (entry : Word) (segs : List Segment) (inputs : List Word) :
    (∃ s, boot c entry segs inputs = .ok s) ↔ Config.wf c = true ∧ ∃ m, loadSegments c segs [] = .ok m := by
  constructor
  · rintro ⟨s, h⟩
    obtain ⟨hwf, m, hm, -⟩ := boot_ok h
    exact ⟨hwf, m, hm⟩
  · rintro ⟨hwf, m, hm⟩
    exact ⟨_, by rw [boot, if_pos hwf, hm]⟩

/-- Settles O4: legal parameters, and a legal place for every segment. -/
theorem bootAnswersExactlyForLegalPlatforms : Obligations.BootAnswersExactlyForLegalPlatforms := by
  intro c entry segs inputs
  obtain ⟨hload, -⟩ := loadSegments_spec segs [] (Memory.wf_nil c)
  rw [exists_boot_ok_iff, configWf_iff, hload, and_assoc]
  simp only [forall_inBacking_iff]
  rfl

/-! ## A stored instruction (R50) -/

/-- A step whose fetch main memory takes runs the word that stands at `pc`. -/
theorem engineStep_memory {s : State} (h : s.pc.toNat % 4 = 0) (hu : Unowned s.cfg s.pc)
    (ha : Accessible s.cfg s.pc 4) : engineStep s = execWord (memWord s s.pc) s :=
  engineStep_of_fetch (fetch_memory h hu ha)

/-- The instruction after an aligned one is aligned, also where `pc` wraps (R14). -/
theorem add_four_aligned {pc : Word} (h : pc.toNat % 4 = 0) : (pc + 4).toNat % 4 = 0 := by
  bv_omega

/-- Settles O50: the store leaves `pc` at the word it wrote, and the fetch reads that word back. -/
theorem storedInstructionIsFetchedNext : Obligations.StoredInstructionIsFetchedNext := by
  intro s rs1 rs2 imm hs haddr hpc hu ha
  simp only [State.canonical, Bool.and_eq_true] at hs
  obtain ⟨hmem, -⟩ := hs
  obtain ⟨t, ht, htpc, hbytes, -, -, -, hcfg, -⟩ := storeOp_memory (w := .word) (readReg s rs2) hmem hu ha
  refine ⟨t, by rw [exec_sw, haddr, ht], ?_⟩
  rw [engineStep_memory (by rw [htpc]; exact add_four_aligned hpc) (by rwa [htpc, hcfg]) (by rwa [htpc, hcfg]), htpc,
    memWord_of_writesBytes hbytes]

end Sys2Proof.Machine
end

section
/-! PROOFS. The decoder and the encoder are inverse to each other: what each opcode's arm answers, that it decodes
encoded instructions back, and that no bit of a decoded word is lost. -/

namespace Sys2Proof

/-! ## The decoder, opcode by opcode (R60, R63, R73) -/

/-- The twelve opcodes, each with the arm it selects; any other is refused. -/
theorem decodeFields_cases (w : Word) :
    (opcode w = 0x13#7 ∧ decodeFields w = decodeOpImm w) ∨ (opcode w = 0x33#7 ∧ decodeFields w = decodeOp w) ∨
    (opcode w = 0x03#7 ∧ decodeFields w = decodeLoad w) ∨ (opcode w = 0x23#7 ∧ decodeFields w = decodeStore w) ∨
    (opcode w = 0x63#7 ∧ decodeFields w = decodeBranch w) ∨
    (opcode w = 0x37#7 ∧ decodeFields w = .ok (.lui (fieldRd w) (fieldImmU w))) ∨
    (opcode w = 0x17#7 ∧ decodeFields w = .ok (.auipc (fieldRd w) (fieldImmU w))) ∨
    (opcode w = 0x6F#7 ∧ decodeFields w = .ok (.jal (fieldRd w) (fieldImmJ w))) ∨
    (opcode w = 0x67#7 ∧ decodeFields w = decodeJalr w) ∨ (opcode w = 0x73#7 ∧ decodeFields w = decodeSystem w) ∨
    (opcode w = 0x2F#7 ∧ decodeFields w = decodeAtomic w) ∨ (opcode w = 0x0F#7 ∧ decodeFields w = decodeMiscMem w) ∨
    (opcode w ∉ [0x13#7, 0x33#7, 0x03#7, 0x23#7, 0x63#7, 0x37#7, 0x17#7, 0x6F#7, 0x67#7, 0x73#7, 0x2F#7, 0x0F#7] ∧
      decodeFields w = .error .unknownOpcode) := by
  unfold decodeFields
  split <;> simp_all

/-- The strict setting takes the instructions with a reserved field that is not zero away (R73). -/
theorem decode_ok_iff {strict : Bool} {w : Word} {i : Instr} :
    decode strict w = .ok i ↔ decodeFields w = .ok i ∧ (strict = true → i.reservedZero = true) := by
  unfold decode
  rcases decodeFields w with r | j
  · simp
  · cases strict
    · simp
    · cases hj : j.reservedZero <;> simp [hj] <;> rintro rfl <;> simp [hj]

/-- Well-formed: an even offset, and under the strict setting no reserved field. -/
theorem Instr.wellFormed_iff {strict : Bool} {i : Instr} :
    i.wellFormed strict = true ↔ i.offsetEven = true ∧ (strict = true → i.reservedZero = true) := by
  cases strict <;> simp [Instr.wellFormed]

theorem bitVec3_cases : ∀ x : BitVec 3,
    x = 0#3 ∨ x = 1#3 ∨ x = 2#3 ∨ x = 3#3 ∨ x = 4#3 ∨ x = 5#3 ∨ x = 6#3 ∨ x = 7#3 := by decide

/-- `inst[30]`, which tells SRAI from SRLI, is bit 5 of funct7. -/
theorem bits30_eq_funct7 (w : Word) : bits w 30 1 = (funct7 w).extractLsb' 5 1 :=
  (bits_bits w 25 7 5 1 (by decide)).symm

/-! ## Decoding an encoded instruction -/

/-- Each arm of the decoder reads back the fields its format placed. -/
theorem decodeFields_encode {i : Instr} (h : i.offsetEven = true) : decodeFields (encode i) = .ok i := by
  cases i
  case addi | slti | sltiu | xori | ori | andi | srai => simp [encode, decodeFields, decodeOpImm]
  case slli | srli => simp [encode, decodeFields, decodeOpImm, bits30_eq_funct7]
  case lb | lh | lw | lbu | lhu => simp [encode, decodeFields, decodeLoad]
  case sb | sh | sw => simp [encode, decodeFields, decodeStore]
  case beq | bne | blt | bge | bltu | bgeu =>
    simp [encode, decodeFields, decodeBranch, fieldImmB_encodeB _ _ _ _ _ (by simpa [Instr.offsetEven] using h)]
  case lui | auipc => simp [encode, decodeFields]
  case jal => simp [encode, decodeFields, fieldImmJ_encodeJ _ _ _ (by simpa [Instr.offsetEven] using h)]
  case jalr => simp [encode, decodeFields, decodeJalr]
  case ecall | ebreak | mret | csrrw | csrrs | csrrc | csrrwi | csrrsi | csrrci =>
    simp [encode, decodeFields, decodeSystem]
  case lrW | scW | amoswapW | amoaddW | amoxorW | amoandW | amoorW | amominW | amomaxW | amominuW | amomaxuW =>
    simp [encode, decodeFields, decodeAtomic]
  case fence | fenceI => simp [encode, decodeFields, decodeMiscMem]
  all_goals simp [encode, decodeFields, decodeOp]

theorem decode_encode {strict : Bool} {i : Instr} (h : i.wellFormed strict = true) :
    decode strict (encode i) = .ok i := by
  obtain ⟨heven, hzero⟩ := Instr.wellFormed_iff.1 h
  exact decode_ok_iff.2 ⟨decodeFields_encode heven, hzero⟩

/-- The four bytes of a word make it up. -/
theorem wordOfBytes_bits (w : Word) : wordOfBytes (bits w 0 8) (bits w 8 8) (bits w 16 8) (bits w 24 8) = w := by
  refine Agree.eq (((((agree_zero _ _).step 8 ?_).step 8 ?_).step 8 ?_).step 8 ?_) <;>
    simp [wordOfBytes, bits_or, bits_put_self, bits_put_other]

/-- The decoder on the bytes of a word, with any bytes after them. -/
theorem decodeBytes_bytesOfWord {strict : Bool} {w : Word} {i : Instr} (h : decode strict w = .ok i)
    (rest : List Byte) : decodeBytes strict (bytesOfWord w ++ rest) = .ok (i, rest) := by
  simp [bytesOfWord, decodeBytes, wordOfBytes_bits, h]

/-- Settles O16: the arms of the decoder read the encoder's fields back, and the bytes of a word make it up. -/
theorem decodeOfEncodeIsTheInstruction : Obligations.DecodeOfEncodeIsTheInstruction :=
  fun _ _ rest h => ⟨decode_encode h, decodeBytes_bytesOfWord (decode_encode h) rest⟩

/-! ## Encoding a decoded word -/

section
variable {w : Word} {i : Instr} {f7 : BitVec 7} {f3 : BitVec 3} {op : BitVec 7}

theorem encodeR_of_fields (h7 : funct7 w = f7) (h3 : funct3 w = f3) (ho : opcode w = op) :
    encodeR f7 (fieldRs2 w) (fieldRs1 w) f3 (fieldRd w) op = w := by
  subst h7 h3 ho; exact encodeR_fields w

theorem encodeI_of_fields {f12 : BitVec 12} (h12 : funct12 w = f12) (h3 : funct3 w = f3) (ho : opcode w = op) :
    encodeI f12 (fieldRs1 w) f3 (fieldRd w) op = w := by
  subst h12 h3 ho; exact encodeI_fields w

theorem encodeS_of_fields (h3 : funct3 w = f3) (ho : opcode w = op) :
    encodeS (fieldImmS w) (fieldRs2 w) (fieldRs1 w) f3 op = w := by
  subst h3 ho; exact encodeS_fields w

theorem encodeB_of_fields (h3 : funct3 w = f3) (ho : opcode w = op) :
    encodeB (fieldImmB w) (fieldRs2 w) (fieldRs1 w) f3 op = w := by
  subst h3 ho; exact encodeB_fields w

theorem encodeU_of_fields (ho : opcode w = op) : encodeU (fieldImmU w) (fieldRd w) op = w := by
  subst ho; exact encodeU_fields w

theorem encodeJ_of_fields (ho : opcode w = op) : encodeJ (fieldImmJ w) (fieldRd w) op = w := by
  subst ho; exact encodeJ_fields w

theorem encodeA_of_fields {f5 : BitVec 5} (h5 : funct5 w = f5) (h3 : funct3 w = 2#3) (ho : opcode w = 0x2F#7) :
    encodeA f5 (fieldAq w) (fieldRl w) (fieldRs2 w) (fieldRs1 w) (fieldRd w) = w := by
  subst h5; rw [encodeA_fields]; exact encodeR_of_fields rfl h3 ho

theorem encodeFence_of_fields (h3 : funct3 w = 0#3) (ho : opcode w = 0x0F#7) :
    encodeFence (bits w 28 4) (bits w 24 4) (bits w 20 4) (fieldRs1 w) (fieldRd w) = w := by
  rw [encodeFence_fields]; exact encodeI_of_fields rfl h3 ho

theorem encodeSrai_of_fields (h30 : bits w 30 1 = 1#1) (h3 : funct3 w = 5#3) (ho : opcode w = 0x13#7) :
    encodeSrai (fieldUnchecked w) (fieldRs2 w) (fieldRs1 w) (fieldRd w) = w := by
  rw [encodeSrai_fields w h30]; exact encodeR_of_fields rfl h3 ho

/-! In the arms below the last branch of a match on funct3 names no code: it is the one code left over. -/

theorem encode_of_decodeOpImm (ho : opcode w = 0x13#7) (h : decodeOpImm w = .ok i) : encode i = w := by
  have codes := bitVec3_cases (funct3 w)
  unfold decodeOpImm at h
  split at h
  case h_7 => split at h <;> cases h; exact encodeR_of_fields ‹_› ‹_› ho
  case h_8 =>
    have h3 : funct3 w = 5#3 := by tauto
    split at h
    · cases h; exact encodeSrai_of_fields ‹_› h3 ho
    · split at h <;> cases h; exact encodeR_of_fields ‹_› h3 ho
  all_goals cases h; exact encodeI_of_fields rfl ‹_› ho

theorem encode_of_decodeOp (ho : opcode w = 0x33#7) (h : decodeOp w = .ok i) : encode i = w := by
  have codes := bitVec3_cases (funct3 w)
  unfold decodeOp at h
  split at h
  case h_4 => cases h
  case h_2 => split at h <;> cases h <;> exact encodeR_of_fields ‹_› ‹_› ho
  all_goals
    split at h
    case h_8 =>
      have h3 : funct3 w = 7#3 := by tauto
      cases h; exact encodeR_of_fields ‹_› h3 ho
    all_goals cases h; exact encodeR_of_fields ‹_› ‹_› ho

theorem encode_of_decodeLoad (ho : opcode w = 0x03#7) (h : decodeLoad w = .ok i) : encode i = w := by
  unfold decodeLoad at h
  split at h <;> cases h <;> exact encodeI_of_fields rfl ‹_› ho

theorem encode_of_decodeStore (ho : opcode w = 0x23#7) (h : decodeStore w = .ok i) : encode i = w := by
  unfold decodeStore at h
  split at h <;> cases h <;> exact encodeS_of_fields ‹_› ho

theorem encode_of_decodeBranch (ho : opcode w = 0x63#7) (h : decodeBranch w = .ok i) : encode i = w := by
  unfold decodeBranch at h
  split at h <;> cases h <;> exact encodeB_of_fields ‹_› ho

theorem encode_of_decodeJalr (ho : opcode w = 0x67#7) (h : decodeJalr w = .ok i) : encode i = w := by
  unfold decodeJalr at h
  split at h <;> cases h
  exact encodeI_of_fields rfl ‹_› ho

theorem encode_of_decodeSystem (ho : opcode w = 0x73#7) (h : decodeSystem w = .ok i) : encode i = w := by
  unfold decodeSystem at h
  split at h
  case h_1 => split at h <;> cases h <;> exact encodeI_of_fields ‹_› ‹_› ho
  all_goals cases h <;> exact encodeI_of_fields rfl ‹_› ho

theorem encode_of_decodeAtomic (ho : opcode w = 0x2F#7) (h : decodeAtomic w = .ok i) : encode i = w := by
  unfold decodeAtomic at h
  split at h
  · split at h <;> cases h <;> exact encodeA_of_fields ‹_› ‹_› ho
  · cases h

theorem encode_of_decodeMiscMem (ho : opcode w = 0x0F#7) (h : decodeMiscMem w = .ok i) : encode i = w := by
  unfold decodeMiscMem at h
  split at h <;> cases h
  · exact encodeFence_of_fields ‹_› ho
  · exact encodeI_of_fields rfl ‹_› ho

end

theorem encode_of_decodeFields {w : Word} {i : Instr} (h : decodeFields w = .ok i) : encode i = w := by
  rcases decodeFields_cases w with ⟨ho, e⟩ | ⟨ho, e⟩ | ⟨ho, e⟩ | ⟨ho, e⟩ | ⟨ho, e⟩ | ⟨ho, e⟩ | ⟨ho, e⟩ | ⟨ho, e⟩ |
    ⟨ho, e⟩ | ⟨ho, e⟩ | ⟨ho, e⟩ | ⟨ho, e⟩ | ⟨-, e⟩ <;> rw [e] at h
  · exact encode_of_decodeOpImm ho h
  · exact encode_of_decodeOp ho h
  · exact encode_of_decodeLoad ho h
  · exact encode_of_decodeStore ho h
  · exact encode_of_decodeBranch ho h
  · cases h; exact encodeU_of_fields ho
  · cases h; exact encodeU_of_fields ho
  · cases h; exact encodeJ_of_fields ho
  · exact encode_of_decodeJalr ho h
  · exact encode_of_decodeSystem ho h
  · exact encode_of_decodeAtomic ho h
  · exact encode_of_decodeMiscMem ho h
  · cases h

theorem encode_of_decode {strict : Bool} {w : Word} {i : Instr} (h : decode strict w = .ok i) : encode i = w :=
  encode_of_decodeFields (decode_ok_iff.1 h).1

/-- Settles O17: each arm's instruction, encoded, places every field of the word where the arm read it. -/
theorem encodeOfDecodeIsTheWord : Obligations.EncodeOfDecodeIsTheWord := by
  intro strict w i h
  obtain ⟨-, hzero⟩ := decode_ok_iff.1 h
  exact ⟨Instr.wellFormed_iff.2 ⟨Machine.decode_offsetEven h, hzero⟩, encode_of_decode h⟩

end Sys2Proof
end

section
/-! PROOFS. Where the operands and immediates of a decoded instruction sit in its word, as quotients and remainders of
the word by powers of two. -/

namespace Sys2Proof

open Machine

/-! ## The fields as numbers (R61, R70, R71) -/

section
variable (w : Word)

theorem bits_toNat (lo len : Nat) : (bits w lo len).toNat = w.toNat / 2 ^ lo % 2 ^ len := by
  simp [bits, Nat.shiftRight_eq_div_pow]

theorem fieldRd_toNat : (fieldRd w).toNat = w.toNat / 2 ^ 7 % 32 := bits_toNat w 7 5

theorem fieldRs1_toNat : (fieldRs1 w).toNat = w.toNat / 2 ^ 15 % 32 := bits_toNat w 15 5

theorem fieldRs2_toNat : (fieldRs2 w).toNat = w.toNat / 2 ^ 20 % 32 := bits_toNat w 20 5

theorem fieldAq_toNat : (fieldAq w).toNat = w.toNat / 2 ^ 26 % 2 := bits_toNat w 26 1

theorem fieldRl_toNat : (fieldRl w).toNat = w.toNat / 2 ^ 25 % 2 := bits_toNat w 25 1

/-- A field that ends at bit 31 is a quotient. -/
theorem bits_toNat_top {lo len : Nat} (h : lo + len = 32) : (bits w lo len).toNat = w.toNat / 2 ^ lo := by
  rw [bits_toNat, Nat.mod_eq_of_lt]
  rw [Nat.div_lt_iff_lt_mul (Nat.two_pow_pos lo), ← pow_add, Nat.add_comm len, h]
  exact w.isLt

theorem funct12_toNat : (funct12 w).toNat = w.toNat / 2 ^ 20 := bits_toNat_top w rfl

/-- Two fields side by side as a number. -/
theorem append_toNat {n m : Nat} (x : BitVec n) (y : BitVec m) : (x ++ y).toNat = x.toNat * 2 ^ m + y.toNat := by
  rw [BitVec.toNat_append, ← Nat.shiftLeft_add_eq_or_of_lt y.isLt, Nat.shiftLeft_eq]

theorem fieldUnchecked_toNat : (fieldUnchecked w).toNat = w.toNat / 2 ^ 31 * 32 + w.toNat / 2 ^ 25 % 32 := by
  rw [fieldUnchecked, append_toNat, bits_toNat_top w rfl, bits_toNat]; norm_num

theorem uimm5_toNat (u : BitVec 5) : (uimm5 u).toNat = u.toNat := BitVec.toNat_setWidth_of_le (by decide)

/-! ## The immediates as numbers (R64, R65, R67 to R69) -/

theorem immI_toInt : (immI (funct12 w)).toInt = w.toInt / 2 ^ 20 := by
  have hw := w.isLt
  rw [immI, BitVec.toInt_signExtend_of_le (by decide)]
  simp only [BitVec.toInt_eq_toNat_cond, funct12_toNat]
  omega

theorem immS_toInt :
    (immS (fieldImmS w)).toInt = w.toInt / 2 ^ 25 * 32 + ((w.toNat / 2 ^ 7 % 32 : Nat) : Int) := by
  have hw := w.isLt
  rw [immS, BitVec.toInt_signExtend_of_le (by decide)]
  simp only [BitVec.toInt_eq_toNat_cond, fieldImmS, append_toNat, bits_toNat]
  omega

theorem immB_toInt :
    (immB (fieldImmB w)).toInt = -4096 * ((w.toNat / 2 ^ 31 : Nat) : Int) + ((2048 * (w.toNat / 2 ^ 7 % 2) +
      32 * (w.toNat / 2 ^ 25 % 64) + 2 * (w.toNat / 2 ^ 8 % 16) : Nat) : Int) := by
  have hw := w.isLt
  rw [immB, BitVec.toInt_signExtend_of_le (by decide)]
  simp only [BitVec.toInt_eq_toNat_cond, fieldImmB, append_toNat, bits_toNat, BitVec.toNat_ofNat]
  omega

theorem immU_toNat : (immU (fieldImmU w)).toNat = w.toNat / 4096 * 4096 := by
  rw [immU, append_toNat, fieldImmU, bits_toNat_top w rfl]; simp

theorem immJ_toInt :
    (immJ (fieldImmJ w)).toInt = -1048576 * ((w.toNat / 2 ^ 31 : Nat) : Int) + ((4096 * (w.toNat / 2 ^ 12 % 256) +
      2048 * (w.toNat / 2 ^ 20 % 2) + 2 * (w.toNat / 2 ^ 21 % 1024) : Nat) : Int) := by
  have hw := w.isLt
  rw [immJ, BitVec.toInt_signExtend_of_le (by decide)]
  simp only [BitVec.toInt_eq_toNat_cond, fieldImmJ, append_toNat, bits_toNat, BitVec.toNat_ofNat]
  omega

end

/-- Settles O15: the word is the encoding of what it decodes to, so its fields are the instruction's operands, and each
field is the number the format says. -/
theorem fieldsAndImmediatesSitWhereTheFormatsSay : Obligations.FieldsAndImmediatesSitWhereTheFormatsSay := by
  intro strict w i h
  have heven := decode_offsetEven h
  have hw := encode_of_decode h
  subst hw
  refine ⟨fun rd rs1 imm hi => ?_, fun rd rs1 shamt hi => ?_, fun rd rs1 shamt u hi => ?_, fun rd rs1 rs2 hi => ?_,
    fun rs1 rs2 imm hi => ?_, fun rs1 rs2 o hi => ?_, fun rd imm hi => ?_, fun rd o hi => ?_, fun rd rs1 c hi => ?_,
    fun rd u c hi => ?_, fun rd rs1 rs2 aq rl hi => ?_⟩
  · obtain ⟨rfl, rfl, rfl⟩ : fieldRd (encode i) = rd ∧ fieldRs1 (encode i) = rs1 ∧ funct12 (encode i) = imm := by
      fin_cases hi <;> simp [encode]
    exact ⟨fieldRd_toNat _, fieldRs1_toNat _, immI_toInt _⟩
  · obtain ⟨rfl, rfl, rfl⟩ : fieldRd (encode i) = rd ∧ fieldRs1 (encode i) = rs1 ∧ fieldRs2 (encode i) = shamt := by
      fin_cases hi <;> simp [encode]
    exact ⟨fieldRd_toNat _, fieldRs1_toNat _, fieldRs2_toNat _⟩
  · obtain ⟨rfl, rfl, rfl, rfl⟩ : fieldRd (encode i) = rd ∧ fieldRs1 (encode i) = rs1 ∧
        fieldRs2 (encode i) = shamt ∧ fieldUnchecked (encode i) = u := by
      subst hi; simp [encode]
    exact ⟨fieldRd_toNat _, fieldRs1_toNat _, fieldRs2_toNat _, fieldUnchecked_toNat _⟩
  · obtain ⟨rfl, rfl, rfl⟩ : fieldRd (encode i) = rd ∧ fieldRs1 (encode i) = rs1 ∧ fieldRs2 (encode i) = rs2 := by
      fin_cases hi <;> simp [encode]
    exact ⟨fieldRd_toNat _, fieldRs1_toNat _, fieldRs2_toNat _⟩
  · obtain ⟨rfl, rfl, rfl⟩ : fieldRs1 (encode i) = rs1 ∧ fieldRs2 (encode i) = rs2 ∧ fieldImmS (encode i) = imm := by
      fin_cases hi <;> simp [encode]
    exact ⟨fieldRs1_toNat _, fieldRs2_toNat _, immS_toInt _⟩
  · obtain ⟨rfl, rfl, rfl⟩ : fieldRs1 (encode i) = rs1 ∧ fieldRs2 (encode i) = rs2 ∧ fieldImmB (encode i) = o := by
      fin_cases hi <;> simpa [encode] using fieldImmB_encodeB _ _ _ _ _ (by simpa [Instr.offsetEven] using heven)
    exact ⟨fieldRs1_toNat _, fieldRs2_toNat _, immB_toInt _⟩
  · obtain ⟨rfl, rfl⟩ : fieldRd (encode i) = rd ∧ fieldImmU (encode i) = imm := by
      fin_cases hi <;> simp [encode]
    exact ⟨fieldRd_toNat _, immU_toNat _⟩
  · obtain ⟨rfl, rfl⟩ : fieldRd (encode i) = rd ∧ fieldImmJ (encode i) = o := by
      subst hi
      simpa [encode] using fieldImmJ_encodeJ _ _ _ (by simpa [Instr.offsetEven] using heven)
    exact ⟨fieldRd_toNat _, immJ_toInt _⟩
  · obtain ⟨rfl, rfl, rfl⟩ : fieldRd (encode i) = rd ∧ fieldRs1 (encode i) = rs1 ∧ funct12 (encode i) = c := by
      fin_cases hi <;> simp [encode]
    exact ⟨fieldRd_toNat _, fieldRs1_toNat _, funct12_toNat _⟩
  · obtain ⟨rfl, rfl, rfl⟩ : fieldRd (encode i) = rd ∧ fieldRs1 (encode i) = u ∧ funct12 (encode i) = c := by
      fin_cases hi <;> simp [encode]
    exact ⟨fieldRd_toNat _, (uimm5_toNat _).trans (fieldRs1_toNat _), funct12_toNat _⟩
  · obtain ⟨rfl, rfl, rfl, rfl, rfl⟩ : fieldRd (encode i) = rd ∧ fieldRs1 (encode i) = rs1 ∧
        fieldRs2 (encode i) = rs2 ∧ fieldAq (encode i) = aq ∧ fieldRl (encode i) = rl := by
      fin_cases hi <;> simp [encode]
    exact ⟨fieldRd_toNat _, fieldRs1_toNat _, fieldRs2_toNat _, fieldAq_toNat _, fieldRl_toNat _⟩

end Sys2Proof
end

section
/-! PROOFS. Fetch and decode in a step: from main memory, from a device, and the order of their faults. -/

namespace Sys2Proof.Machine

/-- Settles O8: the four bytes at `pc` are the word the fetch answers. -/
theorem stepRunsTheDecodedInstruction : Obligations.StepRunsTheDecodedInstruction := by
  intro s i hpc hu ha hd
  have hw : decode s.cfg.strictReservedFields (memWord s s.pc) = .ok i := by
    rw [decodeBytes, wordOfBytes_memWord] at hd
    split at hd <;> cases hd
    assumption
  have he : engineStep s = exec i s := (engineStep_memory hpc hu ha).trans (execWord_of_decode hw)
  exact ⟨he, fun t ht => step_of_engineStep_next (he.trans ht), fun f hf => step_of_engineStep_fault (he.trans hf)⟩

/-- A word that the fetch answers and the decoder refuses stops the step, wherever it came from. -/
theorem step_of_fetch_reject {s t : State} {w : Word} {r : DecodeReject} (hf : fetch s = .ok (w, t))
    (hd : decode s.cfg.strictReservedFields w = .error r) : step s = .fault .unsupportedInstruction := by
  obtain ⟨-, -, -, -, -, hcfg⟩ := fetch_frame hf
  exact step_of_engineStep_fault ((engineStep_of_fetch hf).trans (execWord_of_reject (by rwa [hcfg])))

/-- Settles O9: the fetch answers the device's word and the state after that one read. -/
theorem stepFetchesFromTheOwningDevice : Obligations.StepFetchesFromTheOwningDevice := by
  intro s k p hpc ho
  have hf := fetch_device hpc ho
  exact ⟨deviceWord s k (s.pc - p.base), deviceMayReturn_deviceWord s k _, engineStep_of_fetch hf,
    fun r hd => step_of_fetch_reject hf hd⟩

/-- Settles O10: each clause is one outcome of the fetch. -/
theorem stepFaultsAtFetchInOrder : Obligations.StepFaultsAtFetchInOrder := by
  intro s
  exact ⟨fun hpc => step_of_engineStep_fault (engineStep_of_fetch_error (fetch_misaligned hpc)),
    fun hpc hu ha => step_of_engineStep_fault (engineStep_of_fetch_error (fetch_memory_fault hpc hu ha)),
    fun hpc hu ha r hd => step_of_fetch_reject (fetch_memory hpc hu ha) hd,
    fun w t r hf hd => step_of_fetch_reject hf hd⟩

end Sys2Proof.Machine
end

section
/-! PROOFS. Which words the decoder refuses: by name, the items of R66; as a whole, the words that fit no row of the
opcode table. -/

namespace Sys2Proof

open Machine

/-! ## The fields of a word as its shifted and masked values -/

section
variable (w : Word)

theorem and_127_eq_opcode : w &&& 0x7F#32 = (opcode w).setWidth 32 := by
  apply BitVec.eq_of_toNat_eq
  simp [opcode, bits, Nat.and_two_pow_sub_one_eq_mod _ 7]
  omega

theorem shift_12_and_7_eq_funct3 : (w >>> 12) &&& 7#32 = (funct3 w).setWidth 32 := by
  apply BitVec.eq_of_toNat_eq
  simp [funct3, bits, Nat.and_two_pow_sub_one_eq_mod _ 3]
  omega

/-- A field that ends at bit 31 is the shifted word. -/
theorem shift_eq_bits {lo len : Nat} (h : lo + len = 32) : w >>> lo = (bits w lo len).setWidth 32 := by
  apply BitVec.eq_of_toNat_eq
  rw [BitVec.toNat_setWidth_of_le (by omega), bits_toNat_top w h, BitVec.toNat_ushiftRight,
    Nat.shiftRight_eq_div_pow]

/-- A field, widened, is a number exactly when it is that number. -/
theorem setWidth_eq_ofNat_iff {n k : Nat} (x : BitVec n) (hn : n ≤ 32) (hk : k < 2 ^ n) :
    x.setWidth 32 = BitVec.ofNat 32 k ↔ x = BitVec.ofNat n k := by
  have h32 : k < 2 ^ 32 := hk.trans_le (Nat.pow_le_pow_right (by decide) hn)
  rw [← BitVec.toNat_inj, ← BitVec.toNat_inj, BitVec.toNat_setWidth_of_le hn, BitVec.toNat_ofNat, BitVec.toNat_ofNat,
    Nat.mod_eq_of_lt hk, Nat.mod_eq_of_lt h32]

end

/-! ## The refusals by name (R66) -/

/-- The words that the item of R66 named `r` describes. -/
def RefusedBy (w : Word) : DecodeReject → Prop
  | .unknownOpcode =>
    opcode w ∉ [0x13#7, 0x33#7, 0x03#7, 0x23#7, 0x63#7, 0x37#7, 0x17#7, 0x6F#7, 0x67#7, 0x73#7, 0x2F#7, 0x0F#7]
  | .shiftImmediate =>
    opcode w = 0x13#7 ∧ (funct3 w = 1#3 ∧ funct7 w ≠ 0#7 ∨ funct3 w = 5#3 ∧ funct7 w ≠ 0#7 ∧ bits w 30 1 ≠ 1#1)
  | .opFunct =>
    opcode w = 0x33#7 ∧ (funct7 w ∉ [0x00#7, 0x20#7, 0x01#7] ∨ funct7 w = 0x20#7 ∧ funct3 w ∉ [0#3, 5#3])
  | .loadFunct3 => opcode w = 0x03#7 ∧ funct3 w ∈ [3#3, 6#3, 7#3]
  | .storeFunct3 => opcode w = 0x23#7 ∧ funct3 w ∈ [3#3, 4#3, 5#3, 6#3, 7#3]
  | .branchFunct3 => opcode w = 0x63#7 ∧ funct3 w ∈ [2#3, 3#3]
  | .jalrFunct3 => opcode w = 0x67#7 ∧ funct3 w ≠ 0#3
  | .systemFunct =>
    opcode w = 0x73#7 ∧ (funct3 w = 4#3 ∨ funct3 w = 0#3 ∧ funct12 w ∉ [0x000#12, 0x001#12, 0x302#12])
  | .atomicFunct =>
    opcode w = 0x2F#7 ∧ (funct3 w ≠ 2#3 ∨ funct5 w ∉ [0x00#5, 0x01#5, 0x02#5, 0x03#5, 0x04#5, 0x08#5, 0x0C#5,
      0x10#5, 0x14#5, 0x18#5, 0x1C#5])
  | .miscMemFunct3 => opcode w = 0x0F#7 ∧ funct3 w ∉ [0#3, 1#3]
  | .reservedField => False
  | .truncated => False

section
variable {w : Word} {r : DecodeReject}

theorem decodeOpImm_error_iff : decodeOpImm w = .error r ↔ .shiftImmediate = r ∧
    (funct3 w = 1#3 ∧ funct7 w ≠ 0#7 ∨ funct3 w = 5#3 ∧ funct7 w ≠ 0#7 ∧ bits w 30 1 ≠ 1#1) := by
  rcases bitVec3_cases (funct3 w) with h | h | h | h | h | h | h | h <;> simp [decodeOpImm, h]
  · split <;> simp_all
  · split_ifs <;> simp_all

theorem decodeOp_error_iff : decodeOp w = .error r ↔ .opFunct = r ∧
    (funct7 w ∉ [0x00#7, 0x20#7, 0x01#7] ∨ funct7 w = 0x20#7 ∧ funct3 w ∉ [0#3, 5#3]) := by
  unfold decodeOp
  split
  case h_4 => simp_all
  all_goals split <;> simp_all

theorem decodeLoad_error_iff : decodeLoad w = .error r ↔ .loadFunct3 = r ∧ funct3 w ∈ [3#3, 6#3, 7#3] := by
  rcases bitVec3_cases (funct3 w) with h | h | h | h | h | h | h | h <;> simp [decodeLoad, h]

theorem decodeStore_error_iff :
    decodeStore w = .error r ↔ .storeFunct3 = r ∧ funct3 w ∈ [3#3, 4#3, 5#3, 6#3, 7#3] := by
  rcases bitVec3_cases (funct3 w) with h | h | h | h | h | h | h | h <;> simp [decodeStore, h]

theorem decodeBranch_error_iff : decodeBranch w = .error r ↔ .branchFunct3 = r ∧ funct3 w ∈ [2#3, 3#3] := by
  rcases bitVec3_cases (funct3 w) with h | h | h | h | h | h | h | h <;> simp [decodeBranch, h]

theorem decodeJalr_error_iff : decodeJalr w = .error r ↔ .jalrFunct3 = r ∧ funct3 w ≠ 0#3 := by
  unfold decodeJalr
  split <;> simp_all

theorem decodeSystem_error_iff : decodeSystem w = .error r ↔ .systemFunct = r ∧
    (funct3 w = 4#3 ∨ funct3 w = 0#3 ∧ funct12 w ∉ [0x000#12, 0x001#12, 0x302#12]) := by
  rcases bitVec3_cases (funct3 w) with h | h | h | h | h | h | h | h <;> simp [decodeSystem, h]
  split <;> simp_all

theorem decodeAtomic_error_iff : decodeAtomic w = .error r ↔ .atomicFunct = r ∧
    (funct3 w ≠ 2#3 ∨ funct5 w ∉ [0x00#5, 0x01#5, 0x02#5, 0x03#5, 0x04#5, 0x08#5, 0x0C#5, 0x10#5, 0x14#5, 0x18#5,
      0x1C#5]) := by
  unfold decodeAtomic
  split
  · split <;> simp_all
  · simp_all

theorem decodeMiscMem_error_iff : decodeMiscMem w = .error r ↔ .miscMemFunct3 = r ∧ funct3 w ∉ [0#3, 1#3] := by
  rcases bitVec3_cases (funct3 w) with h | h | h | h | h | h | h | h <;> simp [decodeMiscMem, h]

/-- A word is refused by exactly the item that describes it. -/
theorem decodeFields_error_iff : decodeFields w = .error r ↔ RefusedBy w r := by
  rcases decodeFields_cases w with ⟨ho, e⟩ | ⟨ho, e⟩ | ⟨ho, e⟩ | ⟨ho, e⟩ | ⟨ho, e⟩ | ⟨ho, e⟩ | ⟨ho, e⟩ | ⟨ho, e⟩ |
    ⟨ho, e⟩ | ⟨ho, e⟩ | ⟨ho, e⟩ | ⟨ho, e⟩ | ⟨ho, e⟩ <;> rw [e]
  · rw [decodeOpImm_error_iff]; cases r <;> simp [RefusedBy, ho]
  · rw [decodeOp_error_iff]; cases r <;> simp [RefusedBy, ho]
  · rw [decodeLoad_error_iff]; cases r <;> simp [RefusedBy, ho]
  · rw [decodeStore_error_iff]; cases r <;> simp [RefusedBy, ho]
  · rw [decodeBranch_error_iff]; cases r <;> simp [RefusedBy, ho]
  · cases r <;> simp [RefusedBy, ho]
  · cases r <;> simp [RefusedBy, ho]
  · cases r <;> simp [RefusedBy, ho]
  · rw [decodeJalr_error_iff]; cases r <;> simp [RefusedBy, ho]
  · rw [decodeSystem_error_iff]; cases r <;> simp [RefusedBy, ho]
  · rw [decodeAtomic_error_iff]; cases r <;> simp [RefusedBy, ho]
  · rw [decodeMiscMem_error_iff]; cases r <;> simp [RefusedBy, ho]
  · cases r <;> simp_all [RefusedBy]

end

/-- The default setting checks no reserved field. -/
theorem decode_false (w : Word) : decode false w = decodeFields w := by
  rw [decode]; rcases decodeFields w with r | i <;> rfl

/-- Funct7 with bit 5 clear is a word with `inst[30]` clear. -/
theorem funct7_and_32_eq_zero_iff (w : Word) : (funct7 w).setWidth 32 &&& 0x20#32 = 0#32 ↔ bits w 30 1 ≠ 1#1 := by
  rw [bits30_eq_funct7]
  generalize funct7 w = f7
  revert f7
  decide

/-- The words that decode to EBREAK (R66 item 7, R211). -/
theorem decodeFields_ebreak_iff (w : Word) : (∃ rd rs1, decodeFields w = .ok (.ebreak rd rs1)) ↔
    opcode w = 0x73#7 ∧ funct3 w = 0#3 ∧ funct12 w = 0x001#12 := by
  constructor
  · rintro ⟨rd, rs1, h⟩
    rw [← encode_of_decodeFields h]
    simp [encode]
  · rintro ⟨ho, h3, h12⟩
    exact ⟨fieldRd w, fieldRs1 w, by simp [decodeFields, ho, decodeSystem, h3, h12]⟩

/-- Settles O19: the items of R66, read off the shifted word. -/
theorem illegalWordsAreTheNineItems : Obligations.IllegalWordsAreTheNineItems := by
  intro w
  have h7 : w >>> 25 = (funct7 w).setWidth 32 := shift_eq_bits w rfl
  have h12 : w >>> 20 = (funct12 w).setWidth 32 := shift_eq_bits w rfl
  have h5 : w >>> 27 = (funct5 w).setWidth 32 := shift_eq_bits w rfl
  simp only [and_127_eq_opcode, shift_12_and_7_eq_funct3, h7, h12, h5, funct7_and_32_eq_zero_iff, decode_false]
  refine ⟨?_, ?_, ?_, ?_, ?_, ?_, ?_, ?_, ?_, ?_, ?ebreak, ?_, ?_, fun s hs h => ?meaning⟩
  case ebreak => rw [decodeFields_ebreak_iff]; simp [setWidth_eq_ofNat_iff]
  case meaning =>
    rcases h with ⟨r, h⟩ | ⟨rd, rs1, h⟩ <;> rw [← decode_false, ← hs] at h
    · exact execWord_of_reject h
    · rw [execWord_of_decode h, exec_ebreak]; rfl
  all_goals simp [decodeFields_error_iff, RefusedBy, setWidth_eq_ofNat_iff]

end Sys2Proof
end

section
/-! PROOFS. The decoder accepts exactly the words that fit a row of the opcode table, under either setting of the
reserved fields. -/

namespace Sys2Proof

open Machine

/-! ## Every instruction has its row -/

open Laws.EncodesItsRow in
/-- The word of an instruction fits the row that carries its mnemonic. -/
theorem encode_fits_row (i : Instr) : ∃ row ∈ opcodeTable, row.mnemonic = i.mnemonic ∧ row.fits false (encode i) := by
  change Statement i
  cases i <;> simp only [addi, slti, sltiu, xori, ori, andi, slli, srli, srai, add, sub, sll, slt, sltu,
    Laws.EncodesItsRow.xor, srl, sra, Laws.EncodesItsRow.or, Laws.EncodesItsRow.and, mul, mulh, mulhsu, mulhu, div,
    divu, rem, remu, lb, lh, lw, lbu, lhu, sb, sh, sw, beq, Laws.EncodesItsRow.bne, blt, bge, bltu, bgeu, lui, auipc,
    jal, jalr, ecall, ebreak, mret, csrrw, csrrs, csrrc, csrrwi, csrrsi, csrrci, lrW, scW, amoswapW, amoaddW, amoxorW,
    amoandW, amoorW, amominW, amomaxW, amominuW, amomaxuW, fence, fenceI]

/-! ## The strict masks (R73) -/

/-- A row's strict mask checks what its mask checks, and the pattern has no bit outside the mask. -/
theorem mask_le_strictMask : ∀ row ∈ opcodeTable,
    row.strictMask &&& row.mask = row.mask ∧ row.pattern &&& row.mask = row.pattern := by decide

theorem fits_of_fits_strict {row : TableRow} (hr : row ∈ opcodeTable) {strict : Bool} {w : Word}
    (h : row.fits strict w) : row.fits false w := by
  cases strict with
  | false => exact h
  | true =>
    obtain ⟨hm, hp⟩ := mask_le_strictMask row hr
    change w &&& row.strictMask = row.pattern at h
    change w &&& row.mask = row.pattern
    rw [← hm, ← BitVec.and_assoc, h, hp]

/-- The rows whose mnemonic is none of these five have one mask for both settings. -/
theorem strictMask_eq_mask : ∀ row ∈ opcodeTable,
    row.mnemonic ∉ ["SRAI", "ECALL", "EBREAK", "MRET", "LR.W"] → row.strictMask = row.mask := by decide

/-- A mnemonic names one row. -/
theorem row_eq_of_mnemonic_eq {row row' : TableRow} (h : row ∈ opcodeTable) (h' : row' ∈ opcodeTable)
    (hm : row.mnemonic = row'.mnemonic) : row = row' :=
  List.inj_on_of_nodup_map (f := TableRow.mnemonic) (by decide) h h' hm

/-! ## A field under a mask that covers it -/

theorem bits_and (u w : Word) (lo len : Nat) : bits (u &&& w) lo len = bits u lo len &&& bits w lo len := by
  apply BitVec.eq_of_getLsbD_eq
  intro i hi
  simp only [BitVec.getLsbD_and, getLsbD_bits, hi, decide_true, Bool.true_and]

section
variable {w m p : Word} (h : w &&& m = p)
include h

theorem bits_of_and {lo len : Nat} (hm : bits m lo len = BitVec.allOnes len) :
    bits w lo len = p.extractLsb' lo len := by
  rw [← h, ← bits, bits_and, hm, BitVec.and_allOnes]

theorem opcode_of_and (hm : opcode m = 0x7F#7) : opcode w = p.extractLsb' 0 7 := bits_of_and h hm

theorem funct3_of_and (hm : funct3 m = 7#3) : funct3 w = p.extractLsb' 12 3 := bits_of_and h hm

theorem funct7_of_and (hm : funct7 m = 0x7F#7) : funct7 w = p.extractLsb' 25 7 := bits_of_and h hm

theorem funct12_of_and (hm : funct12 m = 0xFFF#12) : funct12 w = p.extractLsb' 20 12 := bits_of_and h hm

theorem funct5_of_and (hm : funct5 m = 0x1F#5) : funct5 w = p.extractLsb' 27 5 := bits_of_and h hm

theorem bits30_of_and (hm : bits m 30 1 = 1#1) : bits w 30 1 = p.extractLsb' 30 1 := bits_of_and h hm

theorem fieldRs2_of_and (hm : fieldRs2 m = 0x1F#5) : fieldRs2 w = p.extractLsb' 20 5 := bits_of_and h hm

end

/-! ## What the strict masks check -/

theorem fieldUnchecked_eq_funct7 (w : Word) :
    fieldUnchecked w = (funct7 w).extractLsb' 6 1 ++ (funct7 w).extractLsb' 0 5 := by
  simp [fieldUnchecked, funct7, bits_bits]

theorem encodeSrai_strict_iff (u : BitVec 6) (shamt rs1 rd : RegIdx) :
    encodeSrai u shamt rs1 rd &&& 0xFE00707F#32 = 0x40005013#32 ↔ u = 0 := by
  constructor
  · intro h
    rw [← fieldUnchecked_encodeSrai u shamt rs1 rd, fieldUnchecked_eq_funct7, funct7_of_and h rfl]
    rfl
  · rintro rfl
    simp only [encodeSrai, BitVec.and_or_distrib_right, put_and]
    simp [put_zero, bits]
    rfl

theorem encodeA_strict_iff (f5 : BitVec 5) (aq rl : BitVec 1) (rs2 rs1 rd : RegIdx) :
    encodeA f5 aq rl rs2 rs1 rd &&& 0xF9F0707F#32 = put 27 f5 ||| 0x202F#32 ↔ rs2 = 0 := by
  constructor
  · intro h
    rw [← fieldRs2_encodeA f5 aq rl rs2 rs1 rd, fieldRs2_of_and h rfl, ← bits, bits_or, bits_put_other (by decide)]
    rfl
  · rintro rfl
    simp only [encodeA, BitVec.and_or_distrib_right, put_and]
    simp [put_zero, bits, and_ones5, BitVec.or_assoc]
    rfl

theorem encodeI_strict_iff (f12 : BitVec 12) (rs1 : RegIdx) (f3 : BitVec 3) (rd : RegIdx) (op : BitVec 7) :
    encodeI f12 rs1 f3 rd op &&& 0xFFFFFFFF#32 = encodeI f12 0 f3 0 op ↔ rd = 0 ∧ rs1 = 0 := by
  rw [show 0xFFFFFFFF#32 = BitVec.allOnes 32 from rfl, BitVec.and_allOnes]
  constructor
  · intro h
    exact ⟨by simpa using congrArg fieldRd h, by simpa using congrArg fieldRs1 h⟩
  · rintro ⟨rfl, rfl⟩; rfl

theorem sraiRow_mem : ⟨"SRAI", 0x40005013#32, 0x4000707F#32, 0xFE00707F#32⟩ ∈ opcodeRowsImm := by decide

theorem ecallRow_mem : ⟨"ECALL", 0x00000073#32, 0xFFF0707F#32, 0xFFFFFFFF#32⟩ ∈ opcodeRowsSystem := by decide

theorem ebreakRow_mem : ⟨"EBREAK", 0x00100073#32, 0xFFF0707F#32, 0xFFFFFFFF#32⟩ ∈ opcodeRowsSystem := by decide

theorem mretRow_mem : ⟨"MRET", 0x30200073#32, 0xFFF0707F#32, 0xFFFFFFFF#32⟩ ∈ opcodeRowsSystem := by decide

theorem lrWRow_mem : ⟨"LR.W", 0x1000202F#32, 0xF800707F#32, 0xF9F0707F#32⟩ ∈ opcodeRowsAtomic := by decide

open Laws.EncodesItsRow in
/-- Of the words of an instruction's row, those with the reserved fields zero fit its strict mask. -/
theorem fits_strict_iff {row : TableRow} {i : Instr} (hr : row ∈ opcodeTable) (hm : row.mnemonic = i.mnemonic)
    (hf : row.fits false (encode i)) : row.fits true (encode i) ↔ i.reservedZero = true := by
  cases i
  case srai rd rs1 shamt u =>
    obtain rfl := row_eq_of_mnemonic_eq hr (mem_of_opcodeRowsImm sraiRow_mem) hm
    exact (encodeSrai_strict_iff u shamt rs1 rd).trans (by simp [Instr.reservedZero])
  case ecall rd rs1 =>
    obtain rfl := row_eq_of_mnemonic_eq hr (mem_of_opcodeRowsSystem ecallRow_mem) hm
    exact (encodeI_strict_iff 0x000#12 rs1 0#3 rd 0x73#7).trans (by simp [Instr.reservedZero])
  case ebreak rd rs1 =>
    obtain rfl := row_eq_of_mnemonic_eq hr (mem_of_opcodeRowsSystem ebreakRow_mem) hm
    exact (encodeI_strict_iff 0x001#12 rs1 0#3 rd 0x73#7).trans (by simp [Instr.reservedZero])
  case mret rd rs1 =>
    obtain rfl := row_eq_of_mnemonic_eq hr (mem_of_opcodeRowsSystem mretRow_mem) hm
    exact (encodeI_strict_iff 0x302#12 rs1 0#3 rd 0x73#7).trans (by simp [Instr.reservedZero])
  case lrW rd rs1 rs2 aq rl =>
    obtain rfl := row_eq_of_mnemonic_eq hr (mem_of_opcodeRowsAtomic lrWRow_mem) hm
    exact (encodeA_strict_iff 0x02#5 aq rl rs2 rs1 rd).trans (by simp [Instr.reservedZero])
  all_goals
    have hmask := strictMask_eq_mask row hr (by simp [hm, Instr.mnemonic])
    exact iff_of_true (by rw [TableRow.fits, TableRow.maskFor, if_pos rfl, hmask]; exact hf) rfl

/-! ## A word that fits a row decodes to that row's instruction -/

section
variable {w : Word} {row : TableRow}

/-! Each row's mask covers the fields by which its opcode's arm selects, and its pattern holds their codes. -/

theorem decodeFields_of_rowsImm (hr : row ∈ opcodeRowsImm) (hf : row.fits false w) :
    ∃ i, decodeFields w = .ok i ∧ i.mnemonic = row.mnemonic := by
  fin_cases hr <;> simp (disch := decide) [decodeFields, opcode_of_and hf, decodeOpImm, funct3_of_and hf,
    funct7_of_and hf, bits30_of_and hf, Instr.mnemonic]

theorem decodeFields_of_rowsReg (hr : row ∈ opcodeRowsReg) (hf : row.fits false w) :
    ∃ i, decodeFields w = .ok i ∧ i.mnemonic = row.mnemonic := by
  fin_cases hr <;> simp (disch := decide) [decodeFields, opcode_of_and hf, decodeOp, funct3_of_and hf,
    funct7_of_and hf, Instr.mnemonic]

theorem decodeFields_of_rowsMem (hr : row ∈ opcodeRowsMem) (hf : row.fits false w) :
    ∃ i, decodeFields w = .ok i ∧ i.mnemonic = row.mnemonic := by
  fin_cases hr <;> simp (disch := decide) [decodeFields, opcode_of_and hf, decodeLoad, decodeStore,
    funct3_of_and hf, Instr.mnemonic]

theorem decodeFields_of_rowsFlow (hr : row ∈ opcodeRowsFlow) (hf : row.fits false w) :
    ∃ i, decodeFields w = .ok i ∧ i.mnemonic = row.mnemonic := by
  fin_cases hr <;> simp (disch := decide) [decodeFields, opcode_of_and hf, decodeBranch, decodeJalr,
    funct3_of_and hf, Instr.mnemonic]

theorem decodeFields_of_rowsSystem (hr : row ∈ opcodeRowsSystem) (hf : row.fits false w) :
    ∃ i, decodeFields w = .ok i ∧ i.mnemonic = row.mnemonic := by
  fin_cases hr <;> simp (disch := decide) [decodeFields, opcode_of_and hf, decodeSystem, funct3_of_and hf,
    funct12_of_and hf, Instr.mnemonic]

theorem decodeFields_of_rowsAtomic (hr : row ∈ opcodeRowsAtomic) (hf : row.fits false w) :
    ∃ i, decodeFields w = .ok i ∧ i.mnemonic = row.mnemonic := by
  fin_cases hr <;> simp (disch := decide) [decodeFields, opcode_of_and hf, decodeAtomic, decodeMiscMem,
    funct3_of_and hf, funct5_of_and hf, Instr.mnemonic]

theorem decodeFields_of_fits (hr : row ∈ opcodeTable) (hf : row.fits false w) :
    ∃ i, decodeFields w = .ok i ∧ i.mnemonic = row.mnemonic := by
  simp only [opcodeTable, List.mem_append] at hr
  rcases hr with ((((hr | hr) | hr) | hr) | hr) | hr
  · exact decodeFields_of_rowsImm hr hf
  · exact decodeFields_of_rowsReg hr hf
  · exact decodeFields_of_rowsMem hr hf
  · exact decodeFields_of_rowsFlow hr hf
  · exact decodeFields_of_rowsSystem hr hf
  · exact decodeFields_of_rowsAtomic hr hf

end

theorem decode_of_fits {strict : Bool} {w : Word} {row : TableRow} (hr : row ∈ opcodeTable) (hf : row.fits strict w) :
    ∃ i, decode strict w = .ok i ∧ i.mnemonic = row.mnemonic := by
  obtain ⟨i, hd, hm⟩ := decodeFields_of_fits hr (fits_of_fits_strict hr hf)
  refine ⟨i, decode_ok_iff.2 ⟨hd, ?_⟩, hm⟩
  rintro rfl
  rw [← encode_of_decodeFields hd] at hf
  exact (fits_strict_iff hr hm.symm (fits_of_fits_strict hr hf)).1 hf

/-- The word of a decoded instruction fits its row, under the mask in force. -/
theorem fits_of_decode {strict : Bool} {w : Word} {i : Instr} (h : decode strict w = .ok i) :
    ∃ row ∈ opcodeTable, row.fits strict w := by
  obtain ⟨-, hzero⟩ := decode_ok_iff.1 h
  obtain ⟨row, hr, hm, hf⟩ := encode_fits_row i
  have hw : row.fits strict (encode i) := by
    cases strict with
    | false => exact hf
    | true => exact (fits_strict_iff hr hm hf).2 (hzero rfl)
  rw [encode_of_decode h] at hw
  exact ⟨row, hr, hw⟩

/-- Settles O18: a word that fits a row has its fixed fields, and a decoded word is the encoding of an instruction, so
it fits that instruction's row. -/
theorem decoderAcceptsExactlyTheTable : Obligations.DecoderAcceptsExactlyTheTable := by
  intro strict w
  refine ⟨fun row hr hf => decode_of_fits hr hf, fun hno => ?_⟩
  rcases hd : decode strict w with r | i
  · refine ⟨⟨r, rfl⟩, fun s hs hpc hu ha hw => step_of_fetch_reject (fetch_memory hpc hu ha) (r := r) ?_⟩
    rw [hs, hw, hd]
  · obtain ⟨row, hr, hf⟩ := fits_of_decode hd
    exact absurd hf (hno row hr)

end Sys2Proof
end

section
/-! PROOFS. The fields that are checked under the strict setting only (R73). -/

namespace Sys2Proof.Machine

/-- The instructions with a reserved field have no offset. -/
theorem offsetEven_of_reserved {i : Instr} (h : i.reservedZero = false) : i.offsetEven = true := by
  cases i
  case srai | ecall | ebreak | mret | lrW => rfl
  all_goals cases h

/-- The strict setting refuses a reserved field that is not zero. -/
theorem decode_encode_reserved {i : Instr} (h : i.reservedZero = false) :
    decode true (encode i) = .error .reservedField := by
  rw [decode, decodeFields_encode (offsetEven_of_reserved h)]
  simp [h]

/-- Under the default setting an instruction's word does what the instruction does. -/
theorem execWord_encode {s : State} (hs : s.cfg.strictReservedFields = false) {i : Instr} (h : i.offsetEven = true) :
    execWord (encode i) s = exec i s :=
  execWord_of_decode (decode_encode (Instr.wellFormed_iff.2 ⟨h, by simp [hs]⟩))

/-- Two words with the same meaning at a state, under the default setting. -/
theorem execWord_encode_congr {s : State} (hs : s.cfg.strictReservedFields = false) {i j : Instr}
    (hi : i.offsetEven = true) (hj : j.offsetEven = true) (h : exec i s = exec j s) :
    execWord (encode i) s = execWord (encode j) s := by
  rw [execWord_encode hs hi, execWord_encode hs hj, h]

/-- Settles O41: refused under the strict setting; under the default no meaning reads the field. -/
theorem uncheckedFieldsHaveNoEffect : Obligations.UncheckedFieldsHaveNoEffect := by
  intro s rd rs1 r q shamt u aq rl
  refine ⟨fun hs i hi => execWord_of_reject (r := .reservedField) (by rw [hs]; exact decode_encode_reserved hi),
    fun hs => ⟨?_, ?_, ?_, ?_, ?_⟩⟩
  · exact execWord_encode_congr hs rfl rfl rfl
  · exact execWord_encode_congr hs rfl rfl rfl
  · exact execWord_encode_congr (j := .ecall 0 0) hs rfl rfl rfl
  · exact execWord_encode_congr (j := .ebreak 0 0) hs rfl rfl rfl
  · exact execWord_encode_congr (j := .mret 0 0) hs rfl rfl rfl

end Sys2Proof.Machine
end

section
/-! PROOFS. Which instructions leave the sequence, and what the expansions of LI, LA, CALL and TAIL compute. -/

namespace Sys2Proof.Machine

/-! ## The sequence (R13, R62) -/

theorem nextPc_eq_ofNat (s : State) : nextPc s = BitVec.ofNat 32 (s.pc.toNat + 4) := by
  rw [nextPc, BitVec.ofNat_add, BitVec.ofNat_toNat, BitVec.setWidth_eq]

theorem branchTarget_eq_ofInt (s : State) (o : BitVec 13) :
    branchTarget s o = BitVec.ofInt 32 ((s.pc.toNat : Int) + o.toInt) := by
  rw [branchTarget, BitVec.ofInt_add, BitVec.ofInt_natCast, BitVec.ofNat_toNat, BitVec.setWidth_eq]; rfl

/-- A branch leaves `pc` at the next instruction or at its target. -/
theorem pcAfter_branch (s : State) (taken : Bool) (o : BitVec 13) :
    Operation.pcAfter s (.branch taken o) = BitVec.ofNat 32 (s.pc.toNat + 4) ∨
      Operation.pcAfter s (.branch taken o) = BitVec.ofInt 32 ((s.pc.toNat : Int) + o.toInt) := by
  cases taken with
  | false => exact .inl (nextPc_eq_ofNat s)
  | true => exact .inr (branchTarget_eq_ofInt s o)

/-- Settles O43: `pc` is what the instruction's operation leaves, and only branches and jumps leave another than the
next. -/
theorem onlyTransfersLeaveTheSequence : Obligations.OnlyTransfersLeaveTheSequence := by
  intro s i t h
  obtain ⟨s1, v, -, rfl⟩ := exec_next_cases h
  rw [setPc_pc]
  cases i
  case beq rs1 rs2 o | bne rs1 rs2 o | blt rs1 rs2 o | bge rs1 rs2 o | bltu rs1 rs2 o | bgeu rs1 rs2 o =>
    exact (pcAfter_branch s _ o).imp_right fun e => .inr (.inr ⟨rs1, rs2, o, e, by simp⟩)
  case jal => exact .inr (.inl rfl)
  case jalr => exact .inr (.inr (.inl rfl))
  all_goals exact .inl (nextPc_eq_ofNat s)

/-! ## Pseudo-instructions (R78) -/

/-- The effects of two instructions that write the same register: the second value stands. -/
theorem RegResult.trans {s t u : State} {rd : RegIdx} {a b c p q : Word} (h : RegResult s t rd a p)
    (g : RegResult t u rd b q) (hbc : rd ≠ 0 → b = c) : RegResult s u rd c q := by
  obtain ⟨-, ⟨-, hr⟩, hcsr, hmem, ⟨hin, hlog⟩, hcfg, hcount⟩ := h
  obtain ⟨gpc, ⟨gd, gr⟩, gcsr, gmem, ⟨gin, glog⟩, gcfg, gcount⟩ := g
  refine ⟨gpc, ⟨?_, fun r hne => (gr r hne).trans (hr r hne)⟩, fun x => (gcsr x).trans (hcsr x),
    fun x => (gmem x).trans (hmem x), ⟨gin.trans hin, glog.trans hlog⟩, gcfg.trans hcfg, gcount.trans hcount⟩
  rw [gd]
  split
  · rfl
  · exact hbc ‹_›

/-- The register written reads the value, x0 apart. -/
theorem RegResult.readReg_eq {s t : State} {rd : RegIdx} {v p : Word} (h : RegResult s t rd v p) (h0 : rd ≠ 0) :
    readReg t rd = v := by
  obtain ⟨-, ⟨hrd, -⟩, -⟩ := h
  rw [hrd, if_neg h0]

theorem execAll_single {s t : State} {i : Instr} (h : exec i s = .next t) : execAll [i] s = .next t := by
  simp [execAll, h]

theorem execAll_pair {s t u : State} {i j : Instr} (hi : exec i s = .next t) (hj : exec j t = .next u) :
    execAll [i, j] s = .next u := by
  simp [execAll, hi, hj]

theorem add_four_add_four (a : Word) : a + 4 + 4 = a + 8 := by bv_omega

/-- Two instructions, the second an ADDI that adds the lower part of a constant to what the first left in `rd`. -/
theorem execAll_addi_lowerPart {s t : State} {i : Instr} {rd : RegIdx} {a c v : Word} (hi : exec i s = .next t)
    (h : RegResult s t rd a (s.pc + 4)) (hc : a + immI (lowerPart v) = c) :
    ∃ u, execAll [i, .addi rd rd (lowerPart v)] s = .next u ∧ RegResult s u rd c (s.pc + 8) := by
  obtain ⟨u, hu, hres⟩ := finishReg_result t rd (readReg t rd + immI (lowerPart v))
  rw [h.1, add_four_add_four] at hres
  exact ⟨u, execAll_pair hi hu, h.trans hres fun h0 => by rw [h.readReg_eq h0, hc]⟩

/-- LI: the constant fits ADDI's immediate, or LUI's, or is the sum of both parts. -/
theorem execAll_li (s : State) (rd : RegIdx) (v : Word) : ∃ t, execAll (Pseudo.expand (.li rd v)) s = .next t ∧
    RegResult s t rd v (s.pc + BitVec.ofNat 32 (4 * (Pseudo.expand (.li rd v)).length)) := by
  by_cases hfit : fitsImm12 v = true
  · obtain ⟨t, ht, hres⟩ := finishReg_result s rd (readReg s 0#5 + immI (lowerPart v))
    rw [readReg_zero, BitVec.zero_add, immI_lowerPart hfit] at hres
    simp only [Pseudo.expand, hfit, if_true]
    exact ⟨t, execAll_single ht, hres⟩
  · obtain ⟨t, ht, hres⟩ := finishReg_result s rd (immU (upperPart v))
    by_cases hlow : lowerPart v = 0#12
    · rw [immU_upperPart hlow] at hres
      simp only [Pseudo.expand, hfit, hlow, if_true]
      exact ⟨t, execAll_single ht, hres⟩
    · simp only [Pseudo.expand, hfit, hlow, if_false]
      exact execAll_addi_lowerPart ht hres (immU_upperPart_add v)

/-- LA: AUIPC adds the upper part to its own address, ADDI the lower part. -/
theorem execAll_la (s : State) (rd : RegIdx) (v : Word) :
    ∃ t, execAll (Pseudo.expand (.la rd v)) s = .next t ∧ RegResult s t rd (s.pc + v) (s.pc + 8) := by
  obtain ⟨t, ht, hres⟩ := finishReg_result s rd (s.pc + immU (upperPart v))
  exact execAll_addi_lowerPart ht hres (by rw [BitVec.add_assoc, immU_upperPart_add])

/-- AUIPC into `r`, then JALR through it: the far jump of CALL and TAIL, with the state between the two. -/
theorem execAll_auipc_jalr (s : State) {r : RegIdx} (hr : r ≠ 0) (rd : RegIdx) (v : Word) :
    ∃ t u, execAll [.auipc r (upperPart v), .jalr rd r (lowerPart v)] s = .next u ∧
      RegResult s t r (s.pc + immU (upperPart v)) (s.pc + 4) ∧
      RegResult t u rd (s.pc + 8) ((s.pc + v) &&& 0xFFFFFFFE#32) := by
  obtain ⟨t, ht, htres⟩ := finishReg_result s r (s.pc + immU (upperPart v))
  obtain ⟨u, hu, hures⟩ := jumpOp_result rd (jalrTarget t r (lowerPart v)) t
  rw [htres.1, add_four_add_four, jalrTarget, htres.readReg_eq hr, BitVec.add_assoc, immU_upperPart_add] at hures
  exact ⟨t, u, execAll_pair ht hu, htres, hures⟩

/-- Settles O54: LI and LA by their two parts; CALL links in the register it jumps through, TAIL in x0. -/
theorem pseudoInstructionsReachTheirConstants : Obligations.PseudoInstructionsReachTheirConstants := by
  intro s rd v
  refine ⟨?_, execAll_la s rd v, ?_, ?_⟩
  · obtain ⟨t, ht, hpc, hreg, hrest⟩ := execAll_li s rd v
    exact ⟨t, ht, hreg, hpc, hrest⟩
  · obtain ⟨t, u, hu, htres, hures⟩ := execAll_auipc_jalr s (r := 1) (by decide) 1 v
    exact ⟨u, hu, htres.trans hures fun _ => rfl⟩
  · obtain ⟨t, u, hu, htres, hures⟩ := execAll_auipc_jalr s (r := 6) (by decide) 0 v
    obtain ⟨-, ⟨-, htregs⟩, htcsrs, htmem, ⟨htin, htlog⟩, htcfg, htcount⟩ := htres
    obtain ⟨hupc, ⟨-, huregs⟩, hucsrs, humem, ⟨huin, hulog⟩, hucfg, hucount⟩ := hures
    refine ⟨u, hu, fun r hr => ?_, hupc, fun c => (hucsrs c).trans (htcsrs c), fun a => (humem a).trans (htmem a),
      ⟨huin.trans htin, hulog.trans htlog⟩, hucfg.trans htcfg, hucount.trans htcount⟩
    by_cases h0 : r = 0
    · subst h0; rfl
    · exact (huregs r h0).trans (htregs r hr)

end Sys2Proof.Machine
end

section
/-! PROOFS. The immediate arithmetic of opcode 0x13: the value of each instruction on the integers, its encoding, and the
shift immediates that are refused; and the words that the spec gives for its examples. -/

namespace Sys2Proof

open Machine

/-- Settles O14: the decoder is run on each of the words. -/
theorem specExampleWordsDecode : Obligations.SpecExampleWordsDecode := by
  unfold Obligations.SpecExampleWordsDecode
  decide

/-! ## The encoding and the effect of one instruction -/

/-- An instruction is encoded as the row with its mnemonic says (R66, R73). -/
theorem encodedAs_of_row {i : Instr} (name : String) {pattern mask strictMask : Word}
    (hr : ⟨name, pattern, mask, strictMask⟩ ∈ opcodeTable) (hm : name = i.mnemonic) :
    EncodedAs i pattern mask strictMask := by
  obtain ⟨row, hrow, hname, hf⟩ := encode_fits_row i
  obtain rfl := row_eq_of_mnemonic_eq hrow hr (hname.trans hm.symm)
  refine ⟨hf, fun heven => ⟨decode_encode (Instr.wellFormed_iff.2 ⟨heven, by simp⟩), ?_⟩⟩
  calc decode true (encode i) = .ok i
      ↔ i.reservedZero = true := by simp [decode_ok_iff, decodeFields_encode heven]
    _ ↔ encode i &&& strictMask = pattern := (fits_strict_iff hr hm hf).symm

/-- The effect of an instruction that ends in a register result, with the value in another form. -/
theorem exec_regResult {s : State} {i : Instr} {rd : RegIdx} {u v : Word} (hi : exec i s = finishReg s rd u)
    (hv : u = v) : ∃ t, exec i s = .next t ∧ RegResult s t rd v (s.pc + 4) := by
  rw [hi, hv]
  exact finishReg_result s rd v

/-! ## The values as integers (R7, R101 to R109) -/

theorem immI_eq_ofInt (imm : BitVec 12) : immI imm = BitVec.ofInt 32 imm.toInt := rfl

theorem toInt_immI (imm : BitVec 12) : (immI imm).toInt = imm.toInt := BitVec.toInt_signExtend_of_le (by decide)

/-- Sign-extended and read as unsigned, an immediate is its residue modulo 2^32. -/
theorem toNat_immI (imm : BitVec 12) : ((immI imm).toNat : Int) = imm.toInt % 2 ^ 32 := by
  rw [immI_eq_ofInt, BitVec.toNat_ofInt, Int.toNat_of_nonneg (Int.emod_nonneg _ (by decide))]
  rfl

theorem add_eq_ofInt (a b : Word) : a + b = BitVec.ofInt 32 (a.toInt + b.toInt) := by
  rw [BitVec.ofInt_add, BitVec.ofInt_toInt, BitVec.ofInt_toInt]

theorem boolWord_ltSigned (a b : Word) : boolWord (ltSigned a b) = if a.toInt < b.toInt then 1 else 0 := by
  simp only [boolWord, ltSigned, decide_eq_true_eq]
  rfl

theorem boolWord_ltUnsigned (a b : Word) : boolWord (ltUnsigned a b) = if a.toNat < b.toNat then 1 else 0 := by
  simp only [boolWord, ltUnsigned, decide_eq_true_eq]
  rfl

theorem shiftLeft_eq_ofNat (a : Word) (n : Nat) : a <<< n = BitVec.ofNat 32 (a.toNat * 2 ^ n) := by
  apply BitVec.eq_of_toNat_eq
  rw [BitVec.toNat_shiftLeft, BitVec.toNat_ofNat, Nat.shiftLeft_eq]

theorem ushiftRight_eq_ofNat (a : Word) (n : Nat) : a >>> n = BitVec.ofNat 32 (a.toNat / 2 ^ n) := by
  rw [← Nat.shiftRight_eq_div_pow, ← BitVec.toNat_ushiftRight, BitVec.ofNat_toNat, BitVec.setWidth_eq]

theorem sshiftRight_eq_ofInt (a : Word) (n : Nat) : a.sshiftRight n = BitVec.ofInt 32 (a.toInt / 2 ^ n) := by
  rw [BitVec.sshiftRight, Int.shiftRight_eq_div_pow]
  norm_cast

/-- Settles O20: each is one register result, its value restated on the integers. -/
theorem immediateArithmeticResults : Obligations.ImmediateArithmeticResults := by
  intro s rd rs1 imm
  refine ⟨⟨encodedAs_of_row "ADDI" (by decide) rfl, exec_regResult (exec_addi s rd rs1 imm) ?_⟩,
    ⟨encodedAs_of_row "SLTI" (by decide) rfl, exec_regResult (exec_slti s rd rs1 imm) ?_⟩,
    ⟨encodedAs_of_row "SLTIU" (by decide) rfl, exec_regResult (exec_sltiu s rd rs1 imm) ?_⟩,
    ⟨encodedAs_of_row "XORI" (by decide) rfl, exec_regResult (exec_xori s rd rs1 imm) ?_⟩,
    ⟨encodedAs_of_row "ORI" (by decide) rfl, exec_regResult (exec_ori s rd rs1 imm) ?_⟩,
    ⟨encodedAs_of_row "ANDI" (by decide) rfl, exec_regResult (exec_andi s rd rs1 imm) ?_⟩⟩
  · rw [add_eq_ofInt, toInt_immI]
  · rw [boolWord_ltSigned, toInt_immI]
  · simp only [boolWord_ltUnsigned, ← toNat_immI, Int.ofNat_lt]
  all_goals rw [immI_eq_ofInt]

/-! ## Shift immediates (R70, R107 to R110) -/

/-- The field `inst[24:20]` as the shifted and masked word. -/
theorem shift_20_and_31_eq_fieldRs2 (w : Word) : (w >>> 20) &&& 0x1F#32 = (fieldRs2 w).setWidth 32 := by
  apply BitVec.eq_of_toNat_eq
  rw [BitVec.toNat_and, BitVec.toNat_ushiftRight, BitVec.toNat_setWidth_of_le (by decide), fieldRs2_toNat,
    Nat.shiftRight_eq_div_pow]
  exact Nat.and_two_pow_sub_one_eq_mod _ 5

/-- The bits `inst[31:25]` in their place. -/
theorem and_top7_eq_put_funct7 (w : Word) : w &&& 0xFE000000#32 = put 25 (funct7 w) := by
  conv_lhs => rw [← encodeR_fields w]
  simp [encodeR, BitVec.and_or_distrib_right, put_and, put_zero, bits, and_ones7]

/-- A word with a bit set among `inst[31:25]` has a funct7 that is not 0. -/
theorem funct7_ne_zero_of_and {w : Word} (h : w &&& 0xFE000000#32 ≠ 0#32) : funct7 w ≠ 0#7 := by
  intro h7
  rw [and_top7_eq_put_funct7, h7, put_zero] at h
  exact h rfl

/-- A word of SLLI or SRLI shape with a bit outside the shift amount is the item of R66 that R110 names. -/
theorem refusedBy_shiftImmediate {w : Word} (h : (w &&& 0x707F#32 = 0x1013#32 ∧ w &&& 0xFE000000#32 ≠ 0#32) ∨
    (w &&& 0x4000707F#32 = 0x5013#32 ∧ w &&& 0xFE000000#32 ≠ 0#32)) : RefusedBy w .shiftImmediate := by
  rcases h with ⟨hw, htop⟩ | ⟨hw, htop⟩
  · exact ⟨opcode_of_and hw rfl, .inl ⟨funct3_of_and hw rfl, funct7_ne_zero_of_and htop⟩⟩
  · refine ⟨opcode_of_and hw rfl, .inr ⟨funct3_of_and hw rfl, funct7_ne_zero_of_and htop, ?_⟩⟩
    rw [bits30_of_and hw rfl]
    decide

/-- A word that an item of R66 describes raises UnsupportedInstruction, under either setting (R251). -/
theorem execWord_of_refusedBy {w : Word} {r : DecodeReject} (h : RefusedBy w r) (s : State) :
    execWord w s = .fault .unsupportedInstruction :=
  execWord_of_reject (r := r) (by rw [decode, decodeFields_error_iff.2 h])

/-- Settles O21: each is one register result; `shamt` is the field `inst[24:20]`; and the illegal shapes are refused by
the item of R66 for them. -/
theorem immediateShiftResults : Obligations.ImmediateShiftResults := by
  intro s rd rs1 shamt u
  refine ⟨⟨encodedAs_of_row "SLLI" (by decide) rfl,
      exec_regResult (exec_slli s rd rs1 shamt) (shiftLeft_eq_ofNat _ _)⟩,
    ⟨encodedAs_of_row "SRLI" (by decide) rfl,
      exec_regResult (exec_srli s rd rs1 shamt) (ushiftRight_eq_ofNat _ _)⟩,
    ⟨encodedAs_of_row "SRAI" (by decide) rfl,
      exec_regResult (exec_srai s rd rs1 shamt u) (sshiftRight_eq_ofInt _ _)⟩,
    ?_, ?_, ?_, fun w hw => execWord_of_refusedBy (refusedBy_shiftImmediate hw) s⟩
  all_goals rw [shift_20_and_31_eq_fieldRs2]; simp [encode]

end Sys2Proof
end

section
/-! PROOFS. The register arithmetic and the register shifts of opcode 0x33: the value of each instruction on the
integers, its encoding and its frame. -/

namespace Sys2Proof

open Machine

/-! ## The values as integers (R7, R121 to R130) -/

theorem add_eq_ofNat (a b : Word) : a + b = BitVec.ofNat 32 (a.toNat + b.toNat) := by
  simp only [BitVec.ofNat_add, BitVec.ofNat_toNat, BitVec.setWidth_eq]

theorem sub_eq_ofInt (a b : Word) : a - b = BitVec.ofInt 32 (a.toInt - b.toInt) := by
  apply BitVec.eq_of_toInt_eq
  rw [BitVec.toInt_sub, BitVec.toInt_ofInt]

theorem xor_eq_ofNat (a b : Word) : a ^^^ b = BitVec.ofNat 32 (a.toNat ^^^ b.toNat) := by
  rw [← BitVec.toNat_xor, BitVec.ofNat_toNat, BitVec.setWidth_eq]

theorem or_eq_ofNat (a b : Word) : a ||| b = BitVec.ofNat 32 (a.toNat ||| b.toNat) := by
  rw [← BitVec.toNat_or, BitVec.ofNat_toNat, BitVec.setWidth_eq]

theorem and_eq_ofNat (a b : Word) : a &&& b = BitVec.ofNat 32 (a.toNat &&& b.toNat) := by
  rw [← BitVec.toNat_and, BitVec.ofNat_toNat, BitVec.setWidth_eq]

/-- Only bits 4:0 of the amount count (R123). -/
theorem toNat_shiftAmount (v : Word) : (shiftAmount v).toNat = v.toNat % 32 := by
  rw [shiftAmount, BitVec.extractLsb'_toNat, Nat.shiftRight_zero]

/-- Settles O22: each is one register result, its value restated on the integers. -/
theorem registerArithmeticResults : Obligations.RegisterArithmeticResults := by
  intro s rd rs1 rs2
  exact ⟨⟨encodedAs_of_row "ADD" (by decide) rfl, exec_regResult (exec_add s rd rs1 rs2) (add_eq_ofNat _ _)⟩,
    ⟨encodedAs_of_row "SUB" (by decide) rfl, exec_regResult (exec_sub s rd rs1 rs2) (sub_eq_ofInt _ _)⟩,
    ⟨encodedAs_of_row "SLT" (by decide) rfl, exec_regResult (exec_slt s rd rs1 rs2) (boolWord_ltSigned _ _)⟩,
    ⟨encodedAs_of_row "SLTU" (by decide) rfl, exec_regResult (exec_sltu s rd rs1 rs2) (boolWord_ltUnsigned _ _)⟩,
    ⟨encodedAs_of_row "XOR" (by decide) rfl, exec_regResult (exec_xor s rd rs1 rs2) (xor_eq_ofNat _ _)⟩,
    ⟨encodedAs_of_row "OR" (by decide) rfl, exec_regResult (exec_or s rd rs1 rs2) (or_eq_ofNat _ _)⟩,
    ⟨encodedAs_of_row "AND" (by decide) rfl, exec_regResult (exec_and s rd rs1 rs2) (and_eq_ofNat _ _)⟩⟩

/-- Settles O23: each is one register result, the shift by a register's low five bits restated as a product or a
quotient. -/
theorem registerShiftResults : Obligations.RegisterShiftResults := by
  intro s rd rs1 rs2
  simp only [← toNat_shiftAmount]
  exact ⟨⟨encodedAs_of_row "SLL" (by decide) rfl, exec_regResult (exec_sll s rd rs1 rs2) (shiftLeft_eq_ofNat _ _)⟩,
    ⟨encodedAs_of_row "SRL" (by decide) rfl, exec_regResult (exec_srl s rd rs1 rs2) (ushiftRight_eq_ofNat _ _)⟩,
    ⟨encodedAs_of_row "SRA" (by decide) rfl, exec_regResult (exec_sra s rd rs1 rs2) (sshiftRight_eq_ofInt _ _)⟩⟩

end Sys2Proof
end

section
/-! PROOFS. The multiplications and divisions of opcode 0x33 with funct7 0x01: the value of each instruction on the
integers, its encoding and its frame. -/

namespace Sys2Proof

open Machine

/-! ## Products (R141 to R144) -/

/-- The low word of a product does not depend on the reading of the factors (R141). -/
theorem ofNat_toNat_mul_eq_ofInt (a b : Word) :
    BitVec.ofNat 32 (a.toNat * b.toNat) = BitVec.ofInt 32 (a.toInt * b.toInt) := by
  simp only [BitVec.ofNat_mul, BitVec.ofInt_mul, BitVec.ofNat_toNat, BitVec.setWidth_eq, BitVec.ofInt_toInt]

/-- Bits 63:32 of the 64-bit two's complement are the quotient by 2^32 rounded down, narrowed to a word (R142). -/
theorem highWord_eq_ofInt (p : Int) : highWord p = BitVec.ofInt 32 (p / 2 ^ 32) := by
  apply BitVec.eq_of_toNat_eq
  rw [highWord, BitVec.extractLsb'_toNat, BitVec.toNat_ofInt, BitVec.toNat_ofInt, Nat.shiftRight_eq_div_pow]
  omega

/-- The high word of two naturals' product (R144). -/
theorem highWord_natCast_mul (m n : Nat) : highWord ((m : Int) * (n : Int)) = BitVec.ofNat 32 (m * n / 2 ^ 32) := by
  rw [highWord_eq_ofInt]
  norm_cast

/-- Settles O24: each is one register result, the low or the high word of the product restated on the integers. -/
theorem multiplyResults : Obligations.MultiplyResults := by
  intro s rd rs1 rs2
  exact ⟨⟨encodedAs_of_row "MUL" (by decide) rfl,
      exec_regResult (exec_mul s rd rs1 rs2) (ofNat_toNat_mul_eq_ofInt _ _)⟩,
    ⟨encodedAs_of_row "MULH" (by decide) rfl, exec_regResult (exec_mulh s rd rs1 rs2) (highWord_eq_ofInt _)⟩,
    ⟨encodedAs_of_row "MULHSU" (by decide) rfl, exec_regResult (exec_mulhsu s rd rs1 rs2) (highWord_eq_ofInt _)⟩,
    ⟨encodedAs_of_row "MULHU" (by decide) rfl, exec_regResult (exec_mulhu s rd rs1 rs2) (highWord_natCast_mul _ _)⟩⟩

/-! ## Signed division (R145, R147) -/

theorem divSigned_zero (a : Word) : divSigned a 0 = allOnes := if_pos rfl

theorem remSigned_zero (a : Word) : remSigned a 0 = a := if_pos rfl

theorem divSigned_overflow : divSigned minSigned allOnes = minSigned := by decide

theorem remSigned_overflow : remSigned minSigned allOnes = 0 := by decide

/-- Outside the two corners the quotient rounded toward zero fits in a word. -/
theorem toInt_divSigned {a b : Word} (hb : b ≠ 0#32) (hov : ¬(a = minSigned ∧ b = allOnes)) :
    (divSigned a b).toInt = a.toInt.tdiv b.toInt := by
  rw [divSigned, if_neg hb, if_neg hov, BitVec.toInt_ofInt, ← BitVec.toInt_sdiv]
  exact BitVec.toInt_sdiv_of_ne_or_ne a b (not_and_or.1 hov)

/-- Outside the two corners the remainder is that of the division rounded toward zero. -/
theorem toInt_remSigned {a b : Word} (hb : b ≠ 0#32) (hov : ¬(a = minSigned ∧ b = allOnes)) :
    (remSigned a b).toInt = a.toInt.tmod b.toInt := by
  rw [remSigned, if_neg hb, if_neg hov, ← Int.tmod_def, ← BitVec.toInt_srem, BitVec.ofInt_toInt]

theorem abs_tmod_lt_abs (m : Int) {k : Int} (hk : k ≠ 0) : |m.tmod k| < |k| := by
  rw [Int.abs_eq_natAbs, Int.abs_eq_natAbs, Int.natAbs_tmod]
  exact_mod_cast Nat.mod_lt _ (Int.natAbs_pos.2 hk)

/-- A remainder of the division rounded toward zero is 0 or has the dividend's sign. -/
theorem tmod_eq_zero_or_neg_iff (m k : Int) : m.tmod k = 0 ∨ (m.tmod k < 0 ↔ m < 0) := by
  have hsign := Int.sign_tmod m k
  split at hsign
  · exact .inl (Int.sign_eq_zero_iff_zero.1 hsign)
  · right
    rw [← Int.sign_eq_neg_one_iff_neg, ← Int.sign_eq_neg_one_iff_neg, hsign]

/-- Settles O25: the words are those of `divSigned` and `remSigned`; at the two corners they are the defined results,
and elsewhere the law is that of the division of integers rounded toward zero. -/
theorem signedDivisionResults : Obligations.SignedDivisionResults := by
  intro s rd rs1 rs2
  refine ⟨encodedAs_of_row "DIV" (by decide) rfl, encodedAs_of_row "REM" (by decide) rfl,
    divSigned (readReg s rs1) (readReg s rs2), remSigned (readReg s rs1) (readReg s rs2),
    exec_regResult (exec_div s rd rs1 rs2) rfl, exec_regResult (exec_rem s rd rs1 rs2) rfl, ?_⟩
  generalize readReg s rs1 = a
  generalize readReg s rs2 = b
  split_ifs with hb hov
  · rw [hb]
    exact ⟨divSigned_zero a, remSigned_zero a⟩
  · rw [hov.1, hov.2]
    exact ⟨divSigned_overflow, remSigned_overflow⟩
  · rw [toInt_divSigned hb hov, toInt_remSigned hb hov]
    have hb0 : b.toInt ≠ 0 := fun h0 => hb (BitVec.eq_of_toInt_eq h0)
    exact ⟨rfl, Int.tdiv_mul_add_tmod _ _, abs_tmod_lt_abs _ hb0, tmod_eq_zero_or_neg_iff _ _⟩

/-! ## Unsigned division (R146, R148) -/

theorem divUnsigned_zero (a : Word) : divUnsigned a 0 = allOnes := if_pos rfl

theorem remUnsigned_zero (a : Word) : remUnsigned a 0 = a := if_pos rfl

theorem toNat_divUnsigned (a : Word) {b : Word} (hb : b ≠ 0#32) : (divUnsigned a b).toNat = a.toNat / b.toNat := by
  rw [divUnsigned, if_neg hb, ← BitVec.udiv_def, BitVec.toNat_udiv]

theorem toNat_remUnsigned (a : Word) {b : Word} (hb : b ≠ 0#32) : (remUnsigned a b).toNat = a.toNat % b.toNat := by
  rw [remUnsigned, if_neg hb, ← BitVec.umod_def, BitVec.toNat_umod]

/-- Settles O26: the words are those of `divUnsigned` and `remUnsigned`, and the law is that of the division of
naturals. -/
theorem unsignedDivisionResults : Obligations.UnsignedDivisionResults := by
  intro s rd rs1 rs2
  refine ⟨encodedAs_of_row "DIVU" (by decide) rfl, encodedAs_of_row "REMU" (by decide) rfl,
    divUnsigned (readReg s rs1) (readReg s rs2), remUnsigned (readReg s rs1) (readReg s rs2),
    exec_regResult (exec_divu s rd rs1 rs2) rfl, exec_regResult (exec_remu s rd rs1 rs2) rfl, ?_⟩
  generalize readReg s rs1 = a
  generalize readReg s rs2 = b
  split_ifs with hb
  · rw [hb]
    exact ⟨divUnsigned_zero a, remUnsigned_zero a⟩
  · rw [toNat_divUnsigned a hb, toNat_remUnsigned a hb]
    exact ⟨Nat.div_add_mod' _ _, Nat.mod_lt _ (BitVec.toNat_pos_of_ne_zero hb)⟩

end Sys2Proof
end

section
/-! PROOFS. The loads and stores of opcodes 0x03 and 0x23: their effective addresses, the value a load extends, and each
instruction as its shared operation on main memory, on a device, and where it faults. -/

namespace Sys2Proof

open Machine

/-! ## Effective addresses (R160, R220) -/

theorem loadAddr_eq_ofInt (s : State) (rs1 : RegIdx) (imm : BitVec 12) :
    loadAddr s rs1 imm = BitVec.ofInt 32 ((readReg s rs1).toInt + imm.toInt) := by
  rw [loadAddr, add_eq_ofInt, toInt_immI]

/-- Both displacements are sign-extended alike (R64, R65). -/
theorem storeAddr_eq_loadAddr (s : State) (rs1 : RegIdx) (imm : BitVec 12) :
    storeAddr s rs1 imm = loadAddr s rs1 imm := rfl

/-- Settles O27: a sum of words is the residue of the sum of their signed readings. -/
theorem effectiveAddressesWrap : Obligations.EffectiveAddressesWrap := by
  intro s rs1 imm
  rw [storeAddr_eq_loadAddr, loadAddr_eq_ofInt]
  exact ⟨rfl, rfl, rfl⟩

/-! ## The value a narrow load extends (R162, R163, R165, R166) -/

/-- The low byte of a one-byte read is the byte. -/
theorem setWidth_readLE_byte (s : State) (a : Nat) : (readLE s a 1).setWidth 8 = readByte s a := by
  rw [readLE_eq_ofNat s a (by decide), BitVec.setWidth_ofNat_of_le (by decide), littleEndian, littleEndian,
    Nat.mul_zero, Nat.add_zero, BitVec.ofNat_toNat, BitVec.setWidth_eq]

/-- The low halfword of a two-byte read is the number its bytes spell. -/
theorem setWidth_readLE_half (s : State) (a : Nat) :
    (readLE s a 2).setWidth 16 = BitVec.ofNat 16 (littleEndian s a 2) := by
  rw [readLE_eq_ofNat s a (by decide), BitVec.setWidth_ofNat_of_le (by decide)]

theorem sext8_readLE (s : State) (a : Nat) : sext8 (readLE s a 1) = BitVec.ofInt 32 (readByte s a).toInt := by
  rw [sext8, setWidth_readLE_byte, BitVec.signExtend]

theorem zext8_readLE (s : State) (a : Nat) : zext8 (readLE s a 1) = BitVec.ofNat 32 (readByte s a).toNat := by
  rw [zext8, setWidth_readLE_byte, BitVec.ofNat_toNat]

theorem sext16_readLE (s : State) (a : Nat) :
    sext16 (readLE s a 2) = BitVec.ofInt 32 (BitVec.ofNat 16 (littleEndian s a 2)).toInt := by
  rw [sext16, setWidth_readLE_half, BitVec.signExtend]

theorem zext16_readLE (s : State) (a : Nat) : zext16 (readLE s a 2) = BitVec.ofNat 32 (littleEndian s a 2) := by
  have hlt : littleEndian s a 2 < 2 ^ 16 := littleEndian_lt s a 2
  rw [zext16, setWidth_readLE_half, BitVec.setWidth_ofNat_of_le_of_lt (by decide) hlt]

/-! ## The effect of one load or store (R161) -/

theorem memoryWf_of_canonical {s : State} (hs : s.canonical = true) : Memory.wf s.cfg s.mem = true := by
  rw [State.canonical, Bool.and_eq_true] at hs
  exact hs.1

section
variable {s : State} {i : Instr} {w : Width} {f : Word → Word} {rd : RegIdx} {a v : Word}

/-- A byte or halfword load: the extended value, the fault of main memory, and the refusal of a device (R42). -/
theorem exec_narrowLoad (hi : exec i s = loadOp w f rd a s) (hw : w ≠ .word) (hv : f (readLE s a.toNat w.size) = v) :
    (Unowned s.cfg a → Accessible s.cfg a w.size → ∃ t, exec i s = .next t ∧ RegResult s t rd v (s.pc + 4)) ∧
    (Unowned s.cfg a → ¬ Accessible s.cfg a w.size → exec i s = .fault .memoryAccessError) ∧
    (∀ k p, OwnedBy s.cfg a k p → exec i s = .fault .unsupportedInstruction) := by
  rw [hi, ← hv]
  exact ⟨loadOp_memory f rd, loadOp_memory_fault f rd, fun _ _ ho => loadOp_device_narrow f rd ho hw⟩

/-- A word load: the word, the fault of main memory, and the read of a device (R164). -/
theorem exec_wordLoad (hi : exec i s = loadOp .word id rd a s) :
    (Unowned s.cfg a → Accessible s.cfg a 4 →
      ∃ t, exec i s = .next t ∧ RegResult s t rd (memWord s a) (s.pc + 4)) ∧
    (Unowned s.cfg a → ¬ Accessible s.cfg a 4 → exec i s = .fault .memoryAccessError) ∧
    (∀ k p, OwnedBy s.cfg a k p → ∃ u t, exec i s = .next t ∧ DeviceMayReturn s u ∧
      DeviceResult s t rd u [.read k (a - p.base) u] 1) := by
  rw [hi, ← readLE_word]
  refine ⟨loadOp_memory (w := .word) id rd, loadOp_memory_fault (w := .word) id rd, fun k p ho => ?_⟩
  obtain ⟨t, ht, hres⟩ := loadOp_device id rd ho
  exact ⟨_, t, ht, deviceMayReturn_deviceWord s k _, hres⟩

/-- A byte or halfword store: the bytes, the fault of main memory, and the refusal of a device (R43). -/
theorem exec_narrowStore (hs : s.canonical = true) (hi : exec i s = storeOp w a v s) (hw : w ≠ .word) :
    (Unowned s.cfg a → Accessible s.cfg a w.size → ∃ t, exec i s = .next t ∧ StoreResult s t a w.size v) ∧
    (Unowned s.cfg a → ¬ Accessible s.cfg a w.size → exec i s = .fault .memoryAccessError) ∧
    (∀ k p, OwnedBy s.cfg a k p → exec i s = .fault .unsupportedInstruction) := by
  rw [hi]
  exact ⟨storeOp_memory v (memoryWf_of_canonical hs), storeOp_memory_fault v,
    fun _ _ ho => storeOp_device_narrow v ho hw⟩

/-- A word store: the bytes, the fault of main memory, and the write of a device (R169). -/
theorem exec_wordStore (hs : s.canonical = true) (hi : exec i s = storeOp .word a v s) :
    (Unowned s.cfg a → Accessible s.cfg a 4 → ∃ t, exec i s = .next t ∧ StoreResult s t a 4 v) ∧
    (Unowned s.cfg a → ¬ Accessible s.cfg a 4 → exec i s = .fault .memoryAccessError) ∧
    (∀ k p, OwnedBy s.cfg a k p → ∃ t, exec i s = .next t ∧ t.pc = s.pc + 4 ∧
      PortTook s t [.write k (a - p.base) v] 0 ∧ SameRegs s t ∧ SameCsrs s t ∧ SameBytes s t ∧ SameRest s t) := by
  rw [hi]
  exact ⟨storeOp_memory (w := .word) v (memoryWf_of_canonical hs), storeOp_memory_fault (w := .word) v,
    fun _ _ ho => storeOp_device v ho⟩

end

/-- Settles O28: each is its load at the effective address, the value restated as the bytes there. -/
theorem loadResults : Obligations.LoadResults := by
  intro s rd rs1 imm
  exact ⟨⟨encodedAs_of_row "LB" (by decide) rfl,
      exec_narrowLoad (exec_lb s rd rs1 imm) (by decide) (sext8_readLE s _)⟩,
    ⟨encodedAs_of_row "LH" (by decide) rfl,
      exec_narrowLoad (exec_lh s rd rs1 imm) (by decide) (sext16_readLE s _)⟩,
    ⟨encodedAs_of_row "LW" (by decide) rfl, exec_wordLoad (exec_lw s rd rs1 imm)⟩,
    ⟨encodedAs_of_row "LBU" (by decide) rfl,
      exec_narrowLoad (exec_lbu s rd rs1 imm) (by decide) (zext8_readLE s _)⟩,
    ⟨encodedAs_of_row "LHU" (by decide) rfl,
      exec_narrowLoad (exec_lhu s rd rs1 imm) (by decide) (zext16_readLE s _)⟩⟩

/-- Settles O29: each is its store at the effective address. -/
theorem storeResults : Obligations.StoreResults := by
  intro s rs1 rs2 imm hs
  exact ⟨⟨encodedAs_of_row "SB" (by decide) rfl, exec_narrowStore hs (exec_sb s rs1 rs2 imm) (by decide)⟩,
    ⟨encodedAs_of_row "SH" (by decide) rfl, exec_narrowStore hs (exec_sh s rs1 rs2 imm) (by decide)⟩,
    ⟨encodedAs_of_row "SW" (by decide) rfl, exec_wordStore hs (exec_sw s rs1 rs2 imm)⟩⟩

end Sys2Proof
end

section
/-! PROOFS. The branches of opcode 0x63: the encoding, the condition, the target and the frame of each. -/

namespace Sys2Proof

open Machine

/-- The effect of an instruction that branches on the condition `p`: only `pc` changes, whatever the target's alignment
(R180, R188). -/
theorem exec_branchResult {s : State} {i : Instr} {o : BitVec 13} {p : Prop} [Decidable p]
    (hi : exec i s = branchOp (decide p) o s) :
    ∃ t, exec i s = .next t ∧ PcResult s t
      (if p then BitVec.ofInt 32 ((s.pc.toNat : Int) + o.toInt) else s.pc + 4) := by
  rw [hi, ← branchTarget_eq_ofInt]
  simpa only [decide_eq_true_eq] using branchOp_result (decide p) o s

/-- Settles O30: each is one branch, and its comparison (R7) decides the condition of its rule. -/
theorem branchResults : Obligations.BranchResults := by
  intro s rs1 rs2 o
  exact ⟨⟨encodedAs_of_row "BEQ" (by decide) rfl, exec_branchResult (exec_beq s rs1 rs2 o)⟩,
    ⟨encodedAs_of_row "BNE" (by decide) rfl, exec_branchResult (exec_bne s rs1 rs2 o)⟩,
    ⟨encodedAs_of_row "BLT" (by decide) rfl, exec_branchResult (exec_blt s rs1 rs2 o)⟩,
    ⟨encodedAs_of_row "BGE" (by decide) rfl, exec_branchResult (exec_bge s rs1 rs2 o)⟩,
    ⟨encodedAs_of_row "BLTU" (by decide) rfl, exec_branchResult (exec_bltu s rs1 rs2 o)⟩,
    ⟨encodedAs_of_row "BGEU" (by decide) rfl, exec_branchResult (exec_bgeu s rs1 rs2 o)⟩⟩

end Sys2Proof
end

section
/-! PROOFS. LUI, AUIPC, JAL and JALR: the encoding, the result and the frame of each; and where a transfer of control
leads, with the fetch from a target that holds no instruction. -/

namespace Sys2Proof

open Machine

/-! ## LUI and AUIPC (R68, R190, R191) -/

theorem immU_eq_ofNat (imm : BitVec 20) : immU imm = BitVec.ofNat 32 (imm.toNat * 4096) := by
  apply BitVec.eq_of_toNat_eq
  have hlt : imm.toNat * 4096 < 2 ^ 32 := by omega
  rw [BitVec.toNat_ofNat, Nat.mod_eq_of_lt hlt, immU, append_toNat]
  simp

/-- Settles O31: each is one register result, the immediate restated as a multiple of 4096. -/
theorem upperImmediateResults : Obligations.UpperImmediateResults := by
  intro s rd imm
  refine ⟨⟨encodedAs_of_row "LUI" (by decide) rfl, exec_regResult (exec_lui s rd imm) (immU_eq_ofNat imm)⟩,
    ⟨encodedAs_of_row "AUIPC" (by decide) rfl, exec_regResult (exec_auipc s rd imm) ?_⟩⟩
  rw [immU_eq_ofNat, BitVec.ofNat_add, BitVec.ofNat_toNat, BitVec.setWidth_eq]

/-! ## JAL and JALR (R192, R193) -/

theorem jalTarget_eq_ofInt (s : State) (o : BitVec 21) :
    jalTarget s o = BitVec.ofInt 32 ((s.pc.toNat : Int) + o.toInt) := by
  rw [jalTarget, BitVec.ofInt_add, BitVec.ofInt_natCast, BitVec.ofNat_toNat, BitVec.setWidth_eq]; rfl

theorem jalrTarget_eq_ofInt (s : State) (rs1 : RegIdx) (imm : BitVec 12) :
    jalrTarget s rs1 imm = BitVec.ofInt 32 ((readReg s rs1).toInt + imm.toInt) &&& 0xFFFFFFFE#32 := by
  rw [jalrTarget, add_eq_ofInt, toInt_immI]

/-- The link and the target of JAL: nothing is asked of the target (R195). -/
theorem exec_jal_result (s : State) (rd : RegIdx) (o : BitVec 21) : ∃ t, exec (.jal rd o) s = .next t ∧
    RegResult s t rd (s.pc + 4) (BitVec.ofInt 32 ((s.pc.toNat : Int) + o.toInt)) := by
  rw [exec_jal, jalTarget_eq_ofInt]
  exact jumpOp_result rd _ s

/-- The link and the target of JALR, the target from the registers before the link is written (R12). -/
theorem exec_jalr_result (s : State) (rd rs1 : RegIdx) (imm : BitVec 12) :
    ∃ t, exec (.jalr rd rs1 imm) s = .next t ∧ RegResult s t rd (s.pc + 4)
      (BitVec.ofInt 32 ((readReg s rs1).toInt + imm.toInt) &&& 0xFFFFFFFE#32) := by
  rw [exec_jalr, jalrTarget_eq_ofInt]
  exact jumpOp_result rd _ s

/-- The bits `inst[14:12]` in their place. -/
theorem and_funct3_mask_eq_put_funct3 (w : Word) : w &&& 0x7000#32 = put 12 (funct3 w) := by
  conv_lhs => rw [← encodeR_fields w]
  simp [encodeR, BitVec.and_or_distrib_right, put_and, put_zero, bits, and_ones3]

/-- A word with opcode 0x67 and a bit set in funct3 is the item of R66 for JALR. -/
theorem refusedBy_jalrFunct3 {w : Word} (hop : w &&& 0x7F#32 = 0x67#32) (h3 : w &&& 0x7000#32 ≠ 0#32) :
    RefusedBy w .jalrFunct3 := by
  refine ⟨opcode_of_and hop rfl, fun h => h3 ?_⟩
  rw [and_funct3_mask_eq_put_funct3, h, put_zero]

/-- Settles O32: each is one jump, its target restated on the integers; and a funct3 other than 0 is refused. -/
theorem jumpResults : Obligations.JumpResults := by
  intro s rd rs1 o imm
  exact ⟨⟨encodedAs_of_row "JAL" (by decide) rfl, exec_jal_result s rd o⟩,
    ⟨encodedAs_of_row "JALR" (by decide) rfl, exec_jalr_result s rd rs1 imm⟩,
    fun _ _ hop h3 => execWord_of_refusedBy (refusedBy_jalrFunct3 hop h3) _⟩

/-! ## The fetch from a target (R60, R188, R195) -/

/-- The sparse backing takes every word access at a multiple of 4. -/
theorem accessible_word_of_sparse {c : Config} {a : Word} (hc : c.memBacking = .sparse) (ha : a.toNat % 4 = 0) :
    Accessible c a 4 := by
  refine ⟨fun _ => Nat.dvd_of_mod_eq_zero ha, by have := a.isLt; omega, fun size hd => ?_⟩
  rw [hc] at hd
  cases hd

/-- Four bytes that nothing has written on the sparse backing are the word of all ones. -/
theorem memWord_of_bytes_eq_FF {s : State} {a : Word} (h : ∀ k < 4, readByte s (a.toNat + k) = 0xFF#8) :
    memWord s a = 0xFFFFFFFF#32 := by
  rw [← wordOfBytes_memWord, h 1 (by decide), h 2 (by decide), h 3 (by decide), ← Nat.add_zero a.toNat,
    h 0 (by decide)]
  decide

/-- All ones is no instruction, under either setting of the reserved fields. -/
theorem decode_allOnes (strict : Bool) : decode strict 0xFFFFFFFF#32 = .error .unknownOpcode := rfl

/-- A step from sparse memory that was never written decodes the fill bytes and is refused. -/
theorem step_neverWritten {s : State} (hpc : s.pc.toNat % 4 = 0) (hu : Unowned s.cfg s.pc)
    (hc : s.cfg.memBacking = .sparse) (hb : ∀ k < 4, readByte s (s.pc.toNat + k) = 0xFF#8) :
    step s = .fault .unsupportedInstruction := by
  have hf := fetch_memory hpc hu (accessible_word_of_sparse hc hpc)
  rw [memWord_of_bytes_eq_FF hb] at hf
  exact step_of_fetch_reject hf (decode_allOnes _)

/-! ## Where a transfer leads (R180, R192, R193) -/

/-- `exec` answers at most one state, so what holds of some state it answers holds of each. -/
theorem of_exec_next {i : Instr} {s t : State} {P : State → Prop} (h : ∃ u, exec i s = .next u ∧ P u)
    (ht : exec i s = .next t) : P t := by
  obtain ⟨u, hu, hP⟩ := h
  cases hu.symm.trans ht
  exact hP

/-- The `pc` after an instruction that branches on the condition `p` and has continued. -/
theorem pc_of_branch_next {s t : State} {i : Instr} {o : BitVec 13} {p : Prop} [Decidable p]
    (hi : exec i s = branchOp (decide p) o s) (h : exec i s = .next t) :
    t.pc = if p then BitVec.ofInt 32 ((s.pc.toNat : Int) + o.toInt) else s.pc + 4 :=
  (of_exec_next (exec_branchResult hi) h).1

/-- Settles O49: the target and the link are those of O30 and O32; the faults are those of O10 at the next fetch,
whatever led there. -/
theorem misalignedTargetFaultsAtTheNextFetch : Obligations.MisalignedTargetFaultsAtTheNextFetch := by
  intro s t i hi
  obtain ⟨hmisaligned, hinaccessible, -⟩ := stepFaultsAtFetchInOrder t
  refine ⟨?continues, fun h => ⟨fun rs1 rs2 o => ⟨?_, ?_, ?_, ?_, ?_, ?_⟩, ?jalPc, ?jalrPc, ?aligned, ?link,
    ?misaligned, fun hpc hu => ⟨step_neverWritten hpc hu, ?inaccessible⟩⟩⟩
  case continues =>
    obtain ⟨rs1, rs2, o, rfl | rfl | rfl | rfl | rfl | rfl⟩ | ⟨rd, o, rfl⟩ | ⟨rd, rs1, imm, rfl⟩ := hi
    all_goals exact ⟨_, rfl⟩
  case jalPc => rintro rd o rfl; exact (of_exec_next (exec_jal_result s rd o) h).1
  case jalrPc => rintro rd rs1 imm rfl; exact (of_exec_next (exec_jalr_result s rd rs1 imm) h).1
  case aligned => intro hpc ht; rw [ht]; bv_omega
  case link =>
    rintro rd (⟨o, rfl⟩ | ⟨rs1, imm, rfl⟩)
    · obtain ⟨-, ⟨hrd, -⟩, -⟩ := of_exec_next (exec_jal_result s rd o) h
      exact hrd
    · obtain ⟨-, ⟨hrd, -⟩, -⟩ := of_exec_next (exec_jalr_result s rd rs1 imm) h
      exact hrd
  case misaligned =>
    obtain ⟨-, hstop, -⟩ := stoppedState_frame t
    exact fun hpc => ⟨hmisaligned hpc, hstop⟩
  case inaccessible => exact hinaccessible hpc hu
  all_goals rintro rfl
  · exact pc_of_branch_next (exec_beq s rs1 rs2 o) h
  · exact pc_of_branch_next (exec_bne s rs1 rs2 o) h
  · exact pc_of_branch_next (exec_blt s rs1 rs2 o) h
  · exact pc_of_branch_next (exec_bge s rs1 rs2 o) h
  · exact pc_of_branch_next (exec_bltu s rs1 rs2 o) h
  · exact pc_of_branch_next (exec_bgeu s rs1 rs2 o) h

end Sys2Proof
end

section
/-! PROOFS. The system instructions of opcode 0x73 and the fences of opcode 0x0F: the stops of ECALL and EBREAK and of
the runs they end, the instructions that only advance `pc`, and the six CSR instructions. -/

namespace Sys2Proof

open Machine

/-! ## ECALL and EBREAK (R201, R211) -/

/-- A word of EBREAK stops under either setting: its meaning and the strict decoder's refusal raise the same fault. -/
theorem execWord_encode_ebreak (s : State) (rd rs1 : RegIdx) :
    execWord (encode (.ebreak rd rs1)) s = .fault .unsupportedInstruction := by
  rcases hd : decode s.cfg.strictReservedFields (encode (.ebreak rd rs1)) with r | i
  · exact execWord_of_reject hd
  · have hi : .ok (.ebreak rd rs1) = Except.ok i := (decodeFields_encode rfl).symm.trans (decode_ok_iff.1 hd).1
    cases hi
    rw [execWord_of_decode hd, exec_ebreak]; rfl

/-- A run whose next step terminates ends with the ECALL counted and `pc` at it (R262, R264). -/
theorem runLoop_ecallTermination {s : State} (n : Nat) (h : step s = .fault .ecallTermination) :
    (runLoop (n + 1) s).stop = .stopEcall ∧ (runLoop (n + 1) s).final.count = s.count + 1 ∧
      (runLoop (n + 1) s).final.pc = s.pc := by
  obtain ⟨-, hpc, -⟩ := stoppedState_frame s
  rw [runLoop_fault n h]
  exact ⟨rfl, rfl, hpc⟩

/-- A run whose next step is unsupported ends with nothing counted and `pc` at it (R262, R265). -/
theorem runLoop_unsupportedInstruction {s : State} (n : Nat) (h : step s = .fault .unsupportedInstruction) :
    (runLoop (n + 1) s).stop = .stopUnsupported ∧ (runLoop (n + 1) s).final.count = s.count ∧
      (runLoop (n + 1) s).final.pc = s.pc := by
  obtain ⟨-, hpc, -, -, hcount, -⟩ := stoppedState_frame s
  rw [runLoop_fault n h]
  exact ⟨rfl, hcount, hpc⟩

/-- Settles O33: each is one raised event, and a run stops on the event with the state that the step left. -/
theorem ecallAndEbreakStop : Obligations.EcallAndEbreakStop := by
  intro s rd rs1
  exact ⟨encodedAs_of_row "ECALL" (by decide) rfl, encodedAs_of_row "EBREAK" (by decide) rfl,
    exec_ecall s rd rs1, exec_ebreak s rd rs1, fun _ => execWord_encode_ebreak _ rd rs1,
    fun n h => runLoop_ecallTermination n h, fun n h => runLoop_unsupportedInstruction n h⟩

/-! ## MRET, FENCE and FENCE.I (R202, R240, R241) -/

section
variable {w : Word}

/-- Funct3 0 under opcode 0x0F is FENCE, whatever the other fields hold, and no setting refuses it (R73). -/
theorem decode_of_fence_mask (strict : Bool) (h : w &&& 0x707F#32 = 0x0F#32) :
    decode strict w = .ok (.fence (fieldRd w) (fieldRs1 w) (bits w 28 4) (bits w 24 4) (bits w 20 4)) := by
  refine decode_ok_iff.2 ⟨?_, fun _ => rfl⟩
  simp [decodeFields, opcode_of_and h rfl, decodeMiscMem, funct3_of_and h rfl]

/-- Funct3 1 under opcode 0x0F is FENCE.I, whatever the other fields hold, and no setting refuses it (R73). -/
theorem decode_of_fenceI_mask (strict : Bool) (h : w &&& 0x707F#32 = 0x100F#32) :
    decode strict w = .ok (.fenceI (fieldRd w) (fieldRs1 w) (funct12 w)) := by
  refine decode_ok_iff.2 ⟨?_, fun _ => rfl⟩
  simp [decodeFields, opcode_of_and h rfl, decodeMiscMem, funct3_of_and h rfl]

/-- A fetched word of either fence only advances `pc`. -/
theorem execWord_fence_result (s : State) (h : w &&& 0x707F#32 = 0x0F#32 ∨ w &&& 0x707F#32 = 0x100F#32) :
    ∃ t, execWord w s = .next t ∧ PcResult s t (s.pc + 4) := by
  rcases h with h | h
  · rw [execWord_of_decode (decode_of_fence_mask _ h), exec_fence]
    exact finish_result s
  · rw [execWord_of_decode (decode_of_fenceI_mask _ h), exec_fenceI]
    exact finish_result s

end

/-- Settles O34: MRET is the return from a trap that is never taken, and both fences are the bare end of an
instruction. -/
theorem mretAndFencesOnlyAdvance : Obligations.MretAndFencesOnlyAdvance := by
  intro s rd rs1 fm pred succ imm
  exact ⟨⟨encodedAs_of_row "MRET" (by decide) rfl, exec_mret s rd rs1 ▸ trapReturn_result s⟩,
    ⟨encodedAs_of_row "FENCE" (by decide) rfl, exec_fence s rd rs1 fm pred succ ▸ finish_result s⟩,
    ⟨encodedAs_of_row "FENCE.I" (by decide) rfl, exec_fenceI s rd rs1 imm ▸ finish_result s⟩,
    fun _ h => execWord_fence_result s h⟩

/-! ## The CSR instructions (R203 to R208, R210) -/

theorem uimm5_eq_ofNat (u : BitVec 5) : uimm5 u = BitVec.ofNat 32 u.toNat := (BitVec.ofNat_toNat 32 u).symm

theorem csrFileWf_of_canonical {s : State} (hs : s.canonical = true) : CsrFile.wf s.csrs = true := by
  rw [State.canonical, Bool.and_eq_true] at hs
  exact hs.2

section
variable {s : State} {i : Instr} {rd : RegIdx} {c : CsrIdx} {v m u : Word} (hs : s.canonical = true)
include hs

/-- The effect of an instruction that writes a CSR, with the source in another form. -/
theorem exec_csrWriteResult (hi : exec i s = csrWriteOp rd c v s) (hv : v = u) :
    ∃ t, exec i s = .next t ∧ CsrResult s t rd (readCsr s c) c u := by
  rw [hi, ← hv]
  exact csrWriteOp_result (csrFileWf_of_canonical hs) rd c v

/-- The effect of an instruction that sets bits of a CSR: also with a zero mask, the write of the old value with the
mask's bits set. -/
theorem exec_csrSetResult (hi : exec i s = csrSetOp rd c m s) (hm : m = u) :
    ∃ t, exec i s = .next t ∧ CsrResult s t rd (readCsr s c) c (readCsr s c ||| u) :=
  exec_csrWriteResult hs (hi.trans (csrSetOp_eq (csrFileWf_of_canonical hs) rd c m)) (by rw [hm])

/-- The effect of an instruction that clears bits of a CSR: also with a zero mask, the write of the old value with the
mask's bits cleared. -/
theorem exec_csrClearResult (hi : exec i s = csrClearOp rd c m s) (hm : m = u) :
    ∃ t, exec i s = .next t ∧ CsrResult s t rd (readCsr s c) c (readCsr s c &&& ~~~u) :=
  exec_csrWriteResult hs (hi.trans (csrClearOp_eq (csrFileWf_of_canonical hs) rd c m)) (by rw [hm])

end

/-- Settles O35: each is a write of its CSR, set and clear by a zero mask the write of what the CSR holds already. -/
theorem csrInstructionResults : Obligations.CsrInstructionResults := by
  intro s rd rs1 u c hs
  exact ⟨⟨encodedAs_of_row "CSRRW" (by decide) rfl, exec_csrWriteResult hs (exec_csrrw s rd rs1 c) rfl⟩,
    ⟨encodedAs_of_row "CSRRS" (by decide) rfl, exec_csrSetResult hs (exec_csrrs s rd rs1 c) rfl⟩,
    ⟨encodedAs_of_row "CSRRC" (by decide) rfl, exec_csrClearResult hs (exec_csrrc s rd rs1 c) rfl⟩,
    ⟨encodedAs_of_row "CSRRWI" (by decide) rfl,
      exec_csrWriteResult hs (exec_csrrwi s rd u c) (uimm5_eq_ofNat u)⟩,
    ⟨encodedAs_of_row "CSRRSI" (by decide) rfl, exec_csrSetResult hs (exec_csrrsi s rd u c) (uimm5_eq_ofNat u)⟩,
    ⟨encodedAs_of_row "CSRRCI" (by decide) rfl, exec_csrClearResult hs (exec_csrrci s rd u c) (uimm5_eq_ofNat u)⟩⟩

end Sys2Proof
end

section
/-! PROOFS. The atomic instructions of opcode 0x2F: each as one access of main memory or of a device, and that the
acquire and release bits have no effect. -/

namespace Sys2Proof

open Machine

/-! ## LR.W and SC.W (R224, R225, R236) -/

/-- The address of an atomic is that of a load with displacement 0 (R220, R224). -/
theorem loadAddr_zero (s : State) (rs1 : RegIdx) : loadAddr s rs1 0 = atomicAddr s rs1 := BitVec.add_zero _

/-- LR.W is `lw rd, 0(rs1)`. -/
theorem exec_lrW_eq_lw (s : State) (rd rs1 rs2 : RegIdx) (aq rl : BitVec 1) :
    exec (.lrW rd rs1 rs2 aq rl) s = exec (.lw rd rs1 0) s := by
  rw [exec_lrW, exec_lw, loadAddr_zero]

/-- The end of an instruction after a word was written to main memory: the register and the word. -/
theorem finishReg_afterMemWrite {s : State} (hm : Memory.wf s.cfg s.mem = true) (rd : RegIdx) (u : Word) {a : Word}
    (v : Word) (ha : Accessible s.cfg a 4) :
    AtomicResult s (advance (writeReg { s with mem := writeLE s.cfg a.toNat 4 v s.mem } rd u)) rd u a v := by
  refine ⟨?_, writesReg_advance { s with mem := _ } rd u, fun b => ?_, fun c => ?_, by simp [SamePort],
    by simp [SameRest]⟩
  · rw [advance_pc, writeReg_pc]; rfl
  · rw [readByte_advance, readByte_writeReg]
    exact writesBytes_memWrite (w := .word) hm v ha b
  · rw [readCsr_advance, readCsr_writeReg]; rfl

/-- The end of an instruction after one device write: the register and the transaction (R41). -/
theorem finishReg_afterDevWrite (s : State) (k : Nat) (off v : Word) (rd : RegIdx) (u : Word) :
    DeviceResult s (advance (writeReg (devWrite s k off v) rd u)) rd u [.write k off v] 0 := by
  refine ⟨?_, writesReg_advance (devWrite s k off v) rd u, ?_, fun c => ?_, fun b => ?_, by simp [SameRest]⟩
  · rw [advance_pc, writeReg_pc]; rfl
  · simp [PortTook]
  · rw [readCsr_advance, readCsr_writeReg]; rfl
  · rw [readByte_advance, readByte_writeReg]; rfl

/-- SC.W: the word and the success code, the fault of main memory, and the write of a device. -/
theorem exec_scWResult {s : State} (hs : s.canonical = true) (rd rs1 rs2 : RegIdx) (aq rl : BitVec 1) :
    (Unowned s.cfg (atomicAddr s rs1) → Accessible s.cfg (atomicAddr s rs1) 4 →
      ∃ t, exec (.scW rd rs1 rs2 aq rl) s = .next t ∧
        AtomicResult s t rd 0 (atomicAddr s rs1) (readReg s rs2)) ∧
    (Unowned s.cfg (atomicAddr s rs1) → ¬ Accessible s.cfg (atomicAddr s rs1) 4 →
      exec (.scW rd rs1 rs2 aq rl) s = .fault .memoryAccessError) ∧
    (∀ k p, OwnedBy s.cfg (atomicAddr s rs1) k p → ∃ v t, exec (.scW rd rs1 rs2 aq rl) s = .next t ∧
      v = readReg s rs2 ∧ DeviceResult s t rd 0 [.write k (atomicAddr s rs1 - p.base) v] 0) := by
  rw [exec_scW, execScW]
  refine ⟨fun hu ha => ?_, fun hu ha => ?_, fun k p ho => ?_⟩
  · rw [busWrite_memory (w := .word) _ hu ha]
    exact ⟨_, rfl, finishReg_afterMemWrite (memoryWf_of_canonical hs) rd 0 _ ha⟩
  · rw [busWrite_memory_fault (w := .word) _ hu ha]; rfl
  · rw [busWrite_device _ ho]
    exact ⟨_, _, rfl, rfl, finishReg_afterDevWrite s k _ _ rd 0⟩

/-- Settles O37: LR.W is a word load at the address, SC.W a word store that always succeeds. -/
theorem loadReservedAndStoreConditional : Obligations.LoadReservedAndStoreConditional := by
  intro s rd rs1 rs2 aq rl hs
  exact ⟨⟨encodedAs_of_row "LR.W" (by decide) rfl, exec_wordLoad (exec_lrW s rd rs1 rs2 aq rl)⟩,
    ⟨encodedAs_of_row "SC.W" (by decide) rfl, exec_scWResult hs rd rs1 rs2 aq rl⟩,
    exec_lrW_eq_lw s rd rs1 rs2 aq rl⟩

/-! ## The read-modify-writes (R220, R222, R226 to R235) -/

/-- The effect of an instruction that is a read-modify-write, with its operation in another form: the two words, the
fault of main memory, and the read and the write of a device. -/
theorem exec_amoResult {s : State} {i : Instr} {f : Word → Word → Word} (g : Word → Word → Word)
    {rd rs1 rs2 : RegIdx} (hs : s.canonical = true) (hi : exec i s = amoOp f rd rs1 rs2 s)
    (hf : ∀ old v, f old v = g old v) :
    (Unowned s.cfg (atomicAddr s rs1) → Accessible s.cfg (atomicAddr s rs1) 4 → ∃ t, exec i s = .next t ∧
      AtomicResult s t rd (memWord s (atomicAddr s rs1)) (atomicAddr s rs1)
        (g (memWord s (atomicAddr s rs1)) (readReg s rs2))) ∧
    (Unowned s.cfg (atomicAddr s rs1) → ¬ Accessible s.cfg (atomicAddr s rs1) 4 →
      exec i s = .fault .memoryAccessError) ∧
    (∀ k p, OwnedBy s.cfg (atomicAddr s rs1) k p → ∃ v t, exec i s = .next t ∧ DeviceMayReturn s v ∧
      DeviceResult s t rd v [.read k (atomicAddr s rs1 - p.base) v,
        .write k (atomicAddr s rs1 - p.base) (g v (readReg s rs2))] 1) := by
  obtain rfl : f = g := funext₂ hf
  rw [hi]
  exact ⟨amoOp_memory f rd rs2 (memoryWf_of_canonical hs), amoOp_memory_fault f rd rs2,
    fun _ _ => amoOp_device f rd rs2⟩

/-- Settles O38: each is one read-modify-write, the sum restated on the integers. -/
theorem atomicLogicResults : Obligations.AtomicLogicResults := by
  intro s rd rs1 rs2 aq rl hs
  exact ⟨⟨encodedAs_of_row "AMOSWAP.W" (by decide) rfl,
      exec_amoResult (fun _ v => v) hs (exec_amoswapW s rd rs1 rs2 aq rl) fun _ _ => rfl⟩,
    ⟨encodedAs_of_row "AMOADD.W" (by decide) rfl,
      exec_amoResult (fun old v => BitVec.ofNat 32 (old.toNat + v.toNat)) hs (exec_amoaddW s rd rs1 rs2 aq rl)
        add_eq_ofNat⟩,
    ⟨encodedAs_of_row "AMOXOR.W" (by decide) rfl,
      exec_amoResult (· ^^^ ·) hs (exec_amoxorW s rd rs1 rs2 aq rl) fun _ _ => rfl⟩,
    ⟨encodedAs_of_row "AMOAND.W" (by decide) rfl,
      exec_amoResult (· &&& ·) hs (exec_amoandW s rd rs1 rs2 aq rl) fun _ _ => rfl⟩,
    ⟨encodedAs_of_row "AMOOR.W" (by decide) rfl,
      exec_amoResult (· ||| ·) hs (exec_amoorW s rd rs1 rs2 aq rl) fun _ _ => rfl⟩⟩

/-! ## The smaller and the larger word (R231, R232, R233, R235) -/

theorem minSignedWord_eq_ofInt (a b : Word) : minSignedWord a b = BitVec.ofInt 32 (min a.toInt b.toInt) := by
  rw [minSignedWord, min_def, apply_ite (BitVec.ofInt 32), BitVec.ofInt_toInt, BitVec.ofInt_toInt]

theorem maxSignedWord_eq_ofInt (a b : Word) : maxSignedWord a b = BitVec.ofInt 32 (max a.toInt b.toInt) := by
  rw [maxSignedWord, max_comm, max_def, apply_ite (BitVec.ofInt 32), BitVec.ofInt_toInt, BitVec.ofInt_toInt]

theorem minUnsignedWord_eq_ofNat (a b : Word) : minUnsignedWord a b = BitVec.ofNat 32 (min a.toNat b.toNat) := by
  rw [minUnsignedWord, min_def, apply_ite (BitVec.ofNat 32), BitVec.ofNat_toNat, BitVec.ofNat_toNat,
    BitVec.setWidth_eq, BitVec.setWidth_eq]

theorem maxUnsignedWord_eq_ofNat (a b : Word) : maxUnsignedWord a b = BitVec.ofNat 32 (max a.toNat b.toNat) := by
  rw [maxUnsignedWord, max_comm, max_def, apply_ite (BitVec.ofNat 32), BitVec.ofNat_toNat, BitVec.ofNat_toNat,
    BitVec.setWidth_eq, BitVec.setWidth_eq]

/-- Settles O39: each is one read-modify-write, the choice restated as a minimum or maximum of integers. -/
theorem atomicMinMaxResults : Obligations.AtomicMinMaxResults := by
  intro s rd rs1 rs2 aq rl hs
  exact ⟨⟨encodedAs_of_row "AMOMIN.W" (by decide) rfl,
      exec_amoResult (fun old v => BitVec.ofInt 32 (min old.toInt v.toInt)) hs (exec_amominW s rd rs1 rs2 aq rl)
        minSignedWord_eq_ofInt⟩,
    ⟨encodedAs_of_row "AMOMAX.W" (by decide) rfl,
      exec_amoResult (fun old v => BitVec.ofInt 32 (max old.toInt v.toInt)) hs (exec_amomaxW s rd rs1 rs2 aq rl)
        maxSignedWord_eq_ofInt⟩,
    ⟨encodedAs_of_row "AMOMINU.W" (by decide) rfl,
      exec_amoResult (fun old v => BitVec.ofNat 32 (min old.toNat v.toNat)) hs (exec_amominuW s rd rs1 rs2 aq rl)
        minUnsignedWord_eq_ofNat⟩,
    ⟨encodedAs_of_row "AMOMAXU.W" (by decide) rfl,
      exec_amoResult (fun old v => BitVec.ofNat 32 (max old.toNat v.toNat)) hs (exec_amomaxuW s rd rs1 rs2 aq rl)
        maxUnsignedWord_eq_ofNat⟩⟩

/-! ## The acquire and release bits (R221) -/

/-- The instruction with `aq` and `rl` in place of its own acquire and release bits; one that has none, as it is. -/
def Instr.setAqRl (aq rl : BitVec 1) : Instr → Instr
  | .lrW rd rs1 rs2 _ _ => .lrW rd rs1 rs2 aq rl
  | .scW rd rs1 rs2 _ _ => .scW rd rs1 rs2 aq rl
  | .amoswapW rd rs1 rs2 _ _ => .amoswapW rd rs1 rs2 aq rl
  | .amoaddW rd rs1 rs2 _ _ => .amoaddW rd rs1 rs2 aq rl
  | .amoxorW rd rs1 rs2 _ _ => .amoxorW rd rs1 rs2 aq rl
  | .amoandW rd rs1 rs2 _ _ => .amoandW rd rs1 rs2 aq rl
  | .amoorW rd rs1 rs2 _ _ => .amoorW rd rs1 rs2 aq rl
  | .amominW rd rs1 rs2 _ _ => .amominW rd rs1 rs2 aq rl
  | .amomaxW rd rs1 rs2 _ _ => .amomaxW rd rs1 rs2 aq rl
  | .amominuW rd rs1 rs2 _ _ => .amominuW rd rs1 rs2 aq rl
  | .amomaxuW rd rs1 rs2 _ _ => .amomaxuW rd rs1 rs2 aq rl
  | i => i

/-- No meaning reads the two bits. -/
theorem exec_setAqRl (i : Instr) (aq rl : BitVec 1) (s : State) : exec (i.setAqRl aq rl) s = exec i s := by
  cases i <;> rfl

/-- The strict setting does not check the two bits. -/
theorem reservedZero_setAqRl (i : Instr) (aq rl : BitVec 1) : (i.setAqRl aq rl).reservedZero = i.reservedZero := by
  cases i <;> rfl

section
variable {w u : Word}

/-- Words that agree under a mask agree on every field that the mask covers. -/
theorem bits_congr_of_and {m : Word} (h : w &&& m = u &&& m) {lo len : Nat} (hm : bits m lo len = BitVec.allOnes len) :
    bits w lo len = bits u lo len :=
  (bits_of_and h hm).trans (bits_of_and rfl hm).symm

variable (h : w &&& 0xF9FFFFFF#32 = u &&& 0xF9FFFFFF#32)
include h

/-- The two words' atomic instructions differ in the two bits only. -/
theorem decodeAtomic_congr : decodeAtomic w = (decodeAtomic u).map (Instr.setAqRl (fieldAq w) (fieldRl w)) := by
  have h3 : funct3 w = funct3 u := bits_congr_of_and h rfl
  have h5 : funct5 w = funct5 u := bits_congr_of_and h rfl
  have hrd : fieldRd w = fieldRd u := bits_congr_of_and h rfl
  have hrs1 : fieldRs1 w = fieldRs1 u := bits_congr_of_and h rfl
  have hrs2 : fieldRs2 w = fieldRs2 u := bits_congr_of_and h rfl
  rw [decodeAtomic, decodeAtomic, h3, h5, hrd, hrs1, hrs2]
  split
  · split <;> rfl
  · rfl

theorem decode_congr_of_atomic (ho : opcode w = 0x2F#7) (strict : Bool) :
    decode strict w = (decode strict u).map (Instr.setAqRl (fieldAq w) (fieldRl w)) := by
  have hu : opcode u = 0x2F#7 := (bits_congr_of_and h rfl).symm.trans ho
  have hfields : decodeFields w = (decodeFields u).map (Instr.setAqRl (fieldAq w) (fieldRl w)) := by
    simpa only [decodeFields, ho, hu] using decodeAtomic_congr h
  rw [decode, decode, hfields]
  rcases decodeFields u with r | i
  · rfl
  · simp only [Except.map, reservedZero_setAqRl]
    split <;> rfl

end

/-- Settles O40: the two words decode alike but for the two bits, and no meaning reads these. -/
theorem acquireReleaseBitsHaveNoEffect : Obligations.AcquireReleaseBitsHaveNoEffect := by
  intro s w u hw h
  have hdecode := decode_congr_of_atomic h (opcode_of_and hw rfl) s.cfg.strictReservedFields
  rcases hu : decode s.cfg.strictReservedFields u with r | i <;> rw [hu] at hdecode
  · rw [execWord_of_reject hdecode, execWord_of_reject hu]
  · rw [execWord_of_decode hdecode, execWord_of_decode hu, exec_setAqRl]

end Sys2Proof
end

section
/-! PROOFS. How an instruction and a step can stop (R250, R255), and what a stop has changed. -/

namespace Sys2Proof.Machine

/-! ## No refusal (R250) -/

/-- Every shared operation continues or faults. -/
theorem Operation.run_not_refused (o : Operation) (s : State) (r : Refusal) : o.run s ≠ .refused r := by
  cases o with
  | load w f rd a => exact loadOp_not_refused w f rd a s r
  | store w a v => exact storeOp_not_refused w a v s r
  | storeCond rd rs1 rs2 => exact execScW_not_refused rd rs1 rs2 0 0 s r
  | amo g rd rs1 rs2 => exact amoOp_not_refused g rd rs1 rs2 s r
  | reg | branch | jump | stop | nop | csrWrite | csrSet | csrClear => exact nofun

theorem exec_not_refused (i : Instr) (s : State) (r : Refusal) : exec i s ≠ .refused r := by
  rw [exec_eq_run]
  exact Operation.run_not_refused _ s r

/-- A word that the decoder refuses is a fault, any other runs as its instruction. -/
theorem execWord_not_refused (w : Word) (s : State) (r : Refusal) : execWord w s ≠ .refused r := by
  unfold execWord
  split
  · exact exec_not_refused _ s r
  · exact nofun

theorem engineStep_not_refused (s : State) (r : Refusal) : engineStep s ≠ .refused r := by
  rcases hf : fetch s with f | ⟨w, t⟩
  · rw [engineStep_of_fetch_error hf]
    exact nofun
  · rw [engineStep_of_fetch hf]
    exact execWord_not_refused w t r

/-- A step continues or faults. -/
theorem step_next_or_fault (s : State) : (∃ t, step s = .next t) ∨ ∃ f, step s = .fault f := by
  rcases h : engineStep s with t | f | r
  · exact .inl ⟨_, step_of_engineStep_next h⟩
  · exact .inr ⟨f, step_of_engineStep_fault h⟩
  · exact absurd h (engineStep_not_refused s r)

/-- Settles O12: no operation is refused, and fetch and decode answer faults only. -/
theorem noStepIsRefused : Obligations.NoStepIsRefused := by
  intro s i r
  refine ⟨exec_not_refused i s r, ?_⟩
  obtain ⟨t, h⟩ | ⟨f, h⟩ := step_next_or_fault s <;> rw [h] <;> exact nofun

/-! ## Which instructions fault (R255) -/

/-- The width of the access an operation makes, where it makes one. -/
def Operation.width : Operation → Option Width
  | .load w _ _ _ | .store w _ _ => some w
  | .storeCond .. | .amo .. => some .word
  | .reg .. | .branch .. | .jump .. | .stop _ | .nop | .csrWrite .. | .csrSet .. | .csrClear .. => none

/-- An operation that faults is a stop, or an access: refused by a device that takes words only, or by main memory. -/
theorem Operation.run_fault {o : Operation} {s : State} {f : Fault} (h : o.run s = .fault f) :
    o = .stop f ∨
      ∃ w, o.width = some w ∧ ((w ≠ .word ∧ f = .unsupportedInstruction) ∨ f = .memoryAccessError) := by
  cases o with
  | load w g rd a => exact .inr ⟨w, rfl, loadOp_fault h⟩
  | store w a v => exact .inr ⟨w, rfl, storeOp_fault h⟩
  | storeCond rd rs1 rs2 => exact .inr ⟨.word, rfl, .inr (execScW_fault (aq := 0) (rl := 0) h)⟩
  | amo g rd rs1 rs2 => exact .inr ⟨.word, rfl, .inr (amoOp_fault h)⟩
  | stop e => cases h; exact .inl rfl
  | reg | branch | jump | nop | csrWrite | csrSet | csrClear => cases h

/-- The instructions that are a stop by their meaning (R201, R211). -/
theorem operation_stop {i : Instr} {s : State} {f : Fault} (h : operation i s = .stop f) :
    (i.mnemonic = "ECALL" ∧ f = .ecallTermination) ∨ (i.mnemonic = "EBREAK" ∧ f = .unsupportedInstruction) := by
  cases i <;> cases h
  case ecall => exact .inl ⟨rfl, rfl⟩
  case ebreak => exact .inr ⟨rfl, rfl⟩

/-- The instructions that access a byte or a halfword. -/
theorem operation_width_narrow {i : Instr} {s : State} {w : Width} (h : (operation i s).width = some w)
    (hw : w ≠ .word) : i.mnemonic ∈ ["LB", "LH", "LBU", "LHU", "SB", "SH"] := by
  cases i <;> cases h
  case lb | lh | lbu | lhu | sb | sh => simp [Instr.mnemonic]
  all_goals exact absurd rfl hw

/-- The instructions that access a word. -/
theorem operation_width_word {i : Instr} {s : State} (h : (operation i s).width = some .word) :
    i.mnemonic ∈ ["LW", "SW", "LR.W", "SC.W", "AMOSWAP.W", "AMOADD.W", "AMOXOR.W", "AMOAND.W", "AMOOR.W",
      "AMOMIN.W", "AMOMAX.W", "AMOMINU.W", "AMOMAXU.W"] := by
  cases i <;> cases h <;> simp [Instr.mnemonic]

/-- Settles O13: a fault is a stop's or an access's, and the width of the access tells which instructions make it. -/
theorem onlyTheListedInstructionsCanStop : Obligations.OnlyTheListedInstructionsCanStop := by
  intro s i f h
  rw [exec_eq_run] at h
  obtain hstop | ⟨w, hw, hf⟩ := Operation.run_fault h
  · obtain he | he := operation_stop hstop
    · exact .inl he
    · exact .inr (.inl he)
  · by_cases hword : w = .word
    · subst hword
      exact .inr (.inr (.inr ⟨operation_width_word hw, hf.resolve_left fun hn => hn.1 rfl⟩))
    · exact .inr (.inr (.inl ⟨operation_width_narrow hw hword, hf.imp_left And.right⟩))

/-! ## The state after a stop (R250, R38) -/

theorem stoppedState_of_fetch {s t : State} {w : Word} (h : fetch s = .ok (w, t)) : stoppedState s = t := by
  rw [stoppedState, h]

theorem stoppedState_of_fetch_error {s : State} {f : Fault} (h : fetch s = .error f) : stoppedState s = s := by
  rw [stoppedState, h]

/-- A fetch that reads no device leaves nothing behind. -/
theorem stoppedState_eq_self {s : State} (h : s.pc.toNat % 4 ≠ 0 ∨ Unowned s.cfg s.pc) : stoppedState s = s := by
  by_cases hpc : s.pc.toNat % 4 = 0
  · have hu : Unowned s.cfg s.pc := h.resolve_left (not_not_intro hpc)
    by_cases ha : Accessible s.cfg s.pc 4
    · exact stoppedState_of_fetch (fetch_memory hpc hu ha)
    · exact stoppedState_of_fetch_error (fetch_memory_fault hpc hu ha)
  · exact stoppedState_of_fetch_error (fetch_misaligned hpc)

/-- Settles O44: what the fetch has done is all that a stop leaves. -/
theorem stoppedStepChangedNothing : Obligations.StoppedStepChangedNothing := by
  intro s
  obtain ⟨hregs, hpc, hcsrs, hmem, hcount, hcfg⟩ := stoppedState_frame s
  refine ⟨hregs, hpc, hcsrs, hmem, ⟨hcfg, hcount⟩, stoppedState_eq_self, fun h k p ho => ?_⟩
  rw [stoppedState_of_fetch (fetch_device h ho)]
  exact ⟨_, deviceMayReturn_deviceWord s k _, portTook_afterDevRead s k _⟩

end Sys2Proof.Machine
end

section
/-! PROOFS. The run controller: where a run stops and with what state, that a limit only cuts a run short, and the
host's verdict on it. -/

namespace Sys2Proof.Machine

/-! ## Where a limited run stops (R262 to R268) -/

/-- The final state of a run that an event stopped: that of the last step, the peripheral port and the count apart. -/
theorem stopOn_final_frame (f : Fault) (s : State) :
    (stopOn f s).final.regs = s.regs ∧ (stopOn f s).final.pc = s.pc ∧ (stopOn f s).final.csrs = s.csrs ∧
      (stopOn f s).final.mem = s.mem := by
  obtain ⟨hregs, hpc, hcsrs, hmem, -⟩ := stoppedState_frame s
  cases f <;> exact ⟨hregs, hpc, hcsrs, hmem⟩

/-- A run with a limit takes steps that continue, each counted, until the limit is reached or a step faults. -/
theorem runLoop_cases (n : Nat) (s : State) :
    ∃ (k : Nat) (u : State), Host.Core.run core k s = .next u ∧ u.count = s.count + k ∧
      ((k = n ∧ runLoop n s = ⟨.stopLimit, u⟩) ∨
       (k < n ∧ ∃ f, step u = .fault f ∧ runLoop n s = stopOn f u)) := by
  induction n generalizing s with
  | zero => exact ⟨0, s, rfl, rfl, .inl ⟨rfl, rfl⟩⟩
  | succ n ih =>
    obtain ⟨t, ht⟩ | ⟨f, hf⟩ := step_next_or_fault s
    · obtain ⟨k, u, hrun, hcount, hstop⟩ := ih t
      obtain ⟨htcount, -⟩ := steppingCountsAndKeepsTheParameters s t ht
      refine ⟨k + 1, u, (core_run_next k ht).trans hrun, by omega, ?_⟩
      rw [runLoop_next n ht]
      exact hstop.imp (And.imp_left (congrArg (· + 1))) (And.imp_left Nat.succ_lt_succ)
    · exact ⟨0, s, rfl, rfl, .inr ⟨n.succ_pos, f, hf, runLoop_fault n hf⟩⟩

/-- Settles O51: the limit leaves the state as it is, and each event stops with its own row of the table. -/
theorem runStopsAsTheTableSays : Obligations.RunStopsAsTheTableSays := by
  intro n s
  obtain ⟨k, u, hrun, hcount, hstop⟩ := runLoop_cases n { s with count := 0 }
  have hk : u.count = k := hcount.trans (Nat.zero_add k)
  refine ⟨k, u, hrun, hk, ?_⟩
  rw [runLimited]
  obtain ⟨hkn, hr⟩ | ⟨hkn, f, hf, hr⟩ := hstop <;> rw [hr]
  · exact ⟨rfl, rfl, rfl, rfl, .inl ⟨rfl, hkn, rfl⟩⟩
  · obtain ⟨hregs, hpc, hcsrs, hmem⟩ := stopOn_final_frame f u
    obtain ⟨-, -, -, -, hscount, -⟩ := stoppedState_frame u
    refine ⟨hregs, hpc, hcsrs, hmem, .inr ?_⟩
    cases f with
    | ecallTermination => exact .inl ⟨rfl, hkn, hf, congrArg (· + 1) hk⟩
    | unsupportedInstruction => exact .inr (.inl ⟨rfl, hkn, hf, hscount.trans hk⟩)
    | memoryAccessError => exact .inr (.inr ⟨rfl, hkn, hf, hscount.trans hk⟩)

/-! ## The run with no limit (R263, R267) -/

/-- Looking at the unlimited run for `n` steps sees what a limit of `n` sees, unless the limit stops the run. -/
theorem unlimitedLoop_eq_some_iff (n : Nat) (s : State) (r : RunResult) :
    unlimitedLoop n s = some r ↔ runLoop n s = r ∧ r.stop ≠ .stopLimit := by
  induction n generalizing s with
  | zero => exact ⟨nofun, fun ⟨hr, hstop⟩ => absurd (congrArg RunResult.stop hr).symm hstop⟩
  | succ n ih =>
    obtain ⟨t, ht⟩ | ⟨f, hf⟩ := step_next_or_fault s
    · rw [unlimitedLoop_next n ht, runLoop_next n ht, ih]
    · rw [unlimitedLoop_fault n hf, runLoop_fault n hf, Option.some.injEq]
      exact ⟨fun h => ⟨h, h ▸ stopOn_ne_limit f s⟩, And.left⟩

/-- Once the unlimited run has stopped, looking longer changes nothing. -/
theorem unlimitedLoop_mono {m n : Nat} {s : State} {r : RunResult} (h : unlimitedLoop m s = some r) (hmn : m ≤ n) :
    unlimitedLoop n s = some r := by
  induction m generalizing n s with
  | zero => cases h
  | succ m ih =>
    cases n with
    | zero => cases hmn
    | succ n =>
      obtain ⟨t, ht⟩ | ⟨f, hf⟩ := step_next_or_fault s
      · rw [unlimitedLoop_next _ ht] at h ⊢
        exact ih h (Nat.le_of_succ_le_succ hmn)
      · rwa [unlimitedLoop_fault _ hf] at h ⊢

/-- Settles O52: a limit that is not the reason for the stop is enough to see it, and so is every larger one. -/
theorem limitOnlyCutsTheUnlimitedRun : Obligations.LimitOnlyCutsTheUnlimitedRun := by
  intro s r
  refine ⟨fun n hr hstop => ⟨n, (unlimitedLoop_eq_some_iff n _ r).2 ⟨hr, hstop⟩⟩, fun ⟨m, hm⟩ => ?_⟩
  obtain ⟨-, hstop⟩ := (unlimitedLoop_eq_some_iff m _ r).1 hm
  refine ⟨hstop, m, fun n hmn => ?_⟩
  obtain ⟨hr, -⟩ := (unlimitedLoop_eq_some_iff n _ r).1 (unlimitedLoop_mono hm hmn)
  exact hr

/-! ## The verdict (R292) -/

/-- Only an ECALL stop is classified (D27). -/
theorem classify_of_stop_ne_ecall {r : RunResult} (h : r.stop ≠ .stopEcall) : classify r = .unknown := by
  unfold classify
  split
  · next he => exact absurd he h
  all_goals rfl

/-- The nested reading of `x17`, `x3` and `x10` at an ECALL stop. -/
theorem classify_of_stop_ecall {r : RunResult} (h : r.stop = .stopEcall) :
    classify r =
      if readReg r.final 17 ≠ 93 then .unknown
      else if readReg r.final 3 ≠ 1 then .fail (readReg r.final 10)
      else if readReg r.final 10 = 0 then .pass
      else .unknown := by
  rw [classify, h]; rfl

/-- A Pass is an ECALL stop with 93, 1 and 0 in the three registers. -/
theorem classify_eq_pass_iff (r : RunResult) :
    classify r = .pass ↔
      r.stop = .stopEcall ∧ readReg r.final 17 = 93 ∧ readReg r.final 3 = 1 ∧ readReg r.final 10 = 0 := by
  by_cases he : r.stop = .stopEcall
  · rw [classify_of_stop_ecall he]
    split_ifs <;> simp_all
  · simp [classify_of_stop_ne_ecall he, he]

/-- Settles O53: the nested reading at an ECALL stop, branch by branch. -/
theorem classificationOfTheFinalRegisters : Obligations.ClassificationOfTheFinalRegisters := by
  intro r
  refine ⟨fun h => ?_, fun he h17 h3 => ?_, fun he h17 h3 h10 => ?_, classify_eq_pass_iff r⟩
  · by_cases he : r.stop = .stopEcall
    · rw [classify_of_stop_ecall he, if_pos (h.resolve_left (not_not_intro he))]
    · exact classify_of_stop_ne_ecall he
  · rw [classify_of_stop_ecall he, if_neg (not_not_intro h17), if_pos h3]
  · rw [classify_of_stop_ecall he, if_neg (not_not_intro h17), if_neg (not_not_intro h3), if_neg h10]

end Sys2Proof.Machine
end

section
/-! PROOFS. The state after reset, for the default parameters and for every platform that boots. -/

namespace Sys2Proof.Machine

/-! ## What the reset state reads (R280, R282 to R285) -/

/-- Registers that hold 0 read 0. -/
theorem readReg_of_regs_zero {s : State} (h : s.regs = Vector.replicate 31 0#32) (r : RegIdx) : readReg s r = 0 := by
  simp [readReg, h]

/-- A CSR file that nothing was written to reads 0 (R15). -/
theorem readCsr_of_csrs_nil {s : State} (h : s.csrs = []) (c : CsrIdx) : readCsr s c = 0 := by
  rw [readCsr, h]; rfl

/-- What a byte that nothing was written to reads as (R31, R32). -/
theorem fillByte_eq (c : Config) : fillByte c = if c.memBacking = .sparse then 0xFF#8 else 0x00#8 := by
  unfold fillByte
  split
  · next hs => rw [if_pos hs]
  · next hd => rw [if_neg (by rw [hd]; exact nofun)]

/-- Settles O1: the default machine's registers, CSRs and bytes are those that nothing was written to. -/
theorem resetStateReadsAsTheSpecSays : Obligations.ResetStateReadsAsTheSpecSays :=
  ⟨readReg_of_regs_zero rfl, readCsr_of_csrs_nil rfl, fun _ => rfl, rfl, rfl⟩

/-- Settles O3: the loader's law for the segments in an empty memory; the rest of the state is a constant. -/
theorem bootLeavesTheResetState : Obligations.BootLeavesTheResetState := by
  intro c entry segs inputs s h
  obtain ⟨hwf, m, hm, rfl⟩ := boot_ok h
  obtain ⟨-, hload⟩ := loadSegments_spec segs [] (Memory.wf_nil c)
  obtain ⟨-, hcovered, hfree⟩ := hload m hm
  exact ⟨readReg_of_regs_zero rfl, rfl, readCsr_of_csrs_nil rfl, rfl, rfl, hwf, rfl, rfl, hcovered,
    fun a ha => (hfree a ha).trans (fillByte_eq c)⟩

/-! ## Canonical form -/

/-- Settles O46: the loader keeps main memory in canonical form, and the CSR file is empty. -/
theorem resetAndBootStatesAreCanonical : Obligations.ResetAndBootStatesAreCanonical := by
  refine ⟨by decide, fun c entry segs inputs s h => ?_⟩
  obtain ⟨-, m, hm, rfl⟩ := boot_ok h
  obtain ⟨-, hload⟩ := loadSegments_spec segs [] (Memory.wf_nil c)
  obtain ⟨hmem, -⟩ := hload m hm
  exact Bool.and_eq_true_iff.2 ⟨hmem, rfl⟩

end Sys2Proof.Machine
end
